-- ==== Sys2Proof/Word.lean ====
section
/-! DEFINITION. The bit-vector types of the controller's words and fields (00_scope.md R7). -/

namespace Sys2Proof

/-- A data byte (R7). -/
abbrev Byte := BitVec 8

/-- A command word on `cmd_word` (R7, R100). -/
abbrev CmdWord := BitVec 128

/-- A response word on `rsp_word` (R7, R113). -/
abbrev RspWord := BitVec 72

/-- A ring id field, RA or RB (R7, R106). -/
abbrev RingId := BitVec 4

/-- A descriptor handle, field DH (R7, R105). -/
abbrev Handle := BitVec 8

/-- The count field CNT (R7, R102). -/
abbrev Count := BitVec 32

/-- A host byte address, field ADDR (R7, R103). -/
abbrev HostAddr := BitVec 64

/-- A context register: CAP, HEAD or TAIL (R7, R32, R34, R35). -/
abbrev CtxReg := BitVec 32

end Sys2Proof
end

