-- ==== Sys2Proof/Config.lean ====
section
/-! DEFINITION. What an implementation fixes (R5, R6), with the values the spec's examples use, and the
free values: constants without a body, of which nothing can be proved (R8; 93_implementation_defined.md). -/

namespace Sys2Proof

/-- MAXCAP of each context of the machine that `State.reset` describes; its length is R.
DESIGN CHOICE (log 1): the values of the spec's examples (R5, R6). Every other machine is a state with another
list of contexts, so a statement over all states speaks of every R and every MAXCAP. -/
def Config.maxCaps : List Nat := [8, 8]

/-- The largest number of contexts: ring ids have four bits (R5). -/
def Config.maxRings : Nat := 16

/-- The largest MAXCAP (R6). -/
def Config.maxMaxCap : Nat := 2 ^ 32 - 2

/-- The size of the host address space (R70). -/
def Config.hostSpace : Nat := 2 ^ 64

/-- Free value (log 3): the byte host memory holds at an address that neither the host nor the controller has stored
to in the run. A draw (R8); one value for an address, since host memory is plain memory (R74). -/
opaque Config.hostByte : Nat → Byte

/-- Free value (log 9): the place in the run of racing host stores at which the command accesses an address, for the draw
of the given number and the given address (R90, P5): the stores to that address before this place land before the access. -/
opaque Config.raceCut : Nat → Nat → Nat

/-- Free value (log 8): the host address from which on a command that hardware reset cuts has not yet written, for the
draw of the given number (R301, P6). Host writes ascend (R84), so every prefix of them is such a cut. -/
opaque Config.cutAt : Nat → Nat

/-- Free value (log 8): whether the device has returned its result before hardware reset cuts the command, for the draw
of the given number (R301, P6). -/
opaque Config.cutAnswered : Nat → Bool

/-- Free value (log 8): where no result was returned before the cut, how many effects on the descriptor device the command
has had, for the draw of the given number (R301, P6): its request, then each byte it sends. -/
opaque Config.cutDesc : Nat → Nat

end Sys2Proof
end

