-- ==== Sys2Proof/Syntax.lean ====
section
/-! DEFINITION. The instruction set CRB-CMD-1: one constructor for each row of spec/opcode_table.json (R2, R109,
R110), holding exactly the fields the instruction uses; and the names of the reasons for ILLEGAL (R275). -/

namespace Sys2Proof

/-- An instruction. `ra`, `rb` are ring ids (R106), `cnt` is CNT (R102), `addr` is ADDR (R103), `b8` is B8 (R104), `dh`
is DH (R105). -/
inductive Instr where
  /-- NEW (R141): construct context `ra` with capacity `cnt`. -/
  | new (ra : RingId) (cnt : Count)
  /-- FREE (R142): destroy context `ra`. -/
  | free (ra : RingId)
  /-- RESET (R143): empty context `ra`. -/
  | reset (ra : RingId)
  /-- QUERY.BUFSIZE (R145). -/
  | queryBufsize (ra : RingId)
  /-- QUERY.CAPACITY (R146). -/
  | queryCapacity (ra : RingId)
  /-- QUERY.FREE (R147). -/
  | queryFree (ra : RingId)
  /-- QUERY.USED (R148). -/
  | queryUsed (ra : RingId)
  /-- QUERY.FULL (R149). -/
  | queryFull (ra : RingId)
  /-- QUERY.EMPTY (R150). -/
  | queryEmpty (ra : RingId)
  /-- QUERY.HEAD (R151). -/
  | queryHead (ra : RingId)
  /-- QUERY.TAIL (R152). -/
  | queryTail (ra : RingId)
  /-- WRITE_MEM (R182): copy `cnt` bytes of host memory at `addr` into context `ra`. -/
  | writeMem (ra : RingId) (addr : HostAddr) (cnt : Count)
  /-- READ_FD (R184): read at most `cnt` bytes of descriptor `dh` into context `ra`. -/
  | readFd (ra : RingId) (dh : Handle) (cnt : Count)
  /-- READ_MEM (R211): move `cnt` bytes of context `ra` to host memory at `addr`. -/
  | readMem (ra : RingId) (addr : HostAddr) (cnt : Count)
  /-- WRITE_FD (R213): move at most `cnt` bytes of context `ra` to descriptor `dh`. -/
  | writeFd (ra : RingId) (dh : Handle) (cnt : Count)
  /-- COPY (R230): move `cnt` bytes of context `rb` to context `ra`. -/
  | copy (ra : RingId) (rb : RingId) (cnt : Count)
  /-- FIND (R250): the first `b8` of context `ra` at or after logical offset `cnt`. -/
  | find (ra : RingId) (b8 : Byte) (cnt : Count)
  /-- FILL (R185): write `min(cnt, S)` copies of `b8` into context `ra`. -/
  | fill (ra : RingId) (b8 : Byte) (cnt : Count)
  deriving DecidableEq, Repr

/-- Why a command is ILLEGAL (R275). No part of the response; named for the model and its tests (P11). -/
inductive IllegalReason where
  | badOpcode
  | rsvNonzero
  | badRing
  | sameRing
  | badSelector
  | live
  | notLive
  | spanWrap
  | zeroCap
  deriving DecidableEq, Repr

end Sys2Proof
end

