-- ==== Sys2Proof/Decode.lean ====
section
/-! DEFINITION. From command words to instructions and back (30_encoding.md), and the byte form of a word (R85). -/

namespace Sys2Proof

/-! ## The fields of a command word (R101) -/

/-- OPC, bits 3:0. -/
def fieldOpc (w : CmdWord) : BitVec 4 := w.extractLsb' 0 4
/-- RSV, bits 7:4. -/
def fieldRsv (w : CmdWord) : BitVec 4 := w.extractLsb' 4 4
/-- RA, bits 11:8. -/
def fieldRa (w : CmdWord) : RingId := w.extractLsb' 8 4
/-- RB, bits 15:12. -/
def fieldRb (w : CmdWord) : RingId := w.extractLsb' 12 4
/-- B8, bits 23:16. -/
def fieldB8 (w : CmdWord) : Byte := w.extractLsb' 16 8
/-- DH, bits 31:24. -/
def fieldDh (w : CmdWord) : Handle := w.extractLsb' 24 8
/-- CNT, bits 63:32. -/
def fieldCnt (w : CmdWord) : Count := w.extractLsb' 32 32
/-- ADDR, bits 127:64. -/
def fieldAddr (w : CmdWord) : HostAddr := w.extractLsb' 64 64

/-- The QUERY instruction of a selector (R110). -/
def decodeQuery (sel : Byte) (ra : RingId) : Option Instr :=
  match sel.toNat with
  | 0 => some (.queryBufsize ra)
  | 1 => some (.queryCapacity ra)
  | 2 => some (.queryFree ra)
  | 3 => some (.queryUsed ra)
  | 4 => some (.queryFull ra)
  | 5 => some (.queryEmpty ra)
  | 6 => some (.queryHead ra)
  | 7 => some (.queryTail ra)
  | _ => none

/-- The decoder (R109-R112, R116), total on all command words. A word that selects no instruction is refused with the
FIRST of R116's checks that it fails; `rings` is needed for that alone: a QUERY with a reserved selector and a ring id
that names no context is BAD_RING, since R116 looks at the ring first. The checks of R116 that a word of an instruction
can fail (ring, same ring, liveness, span) are the instruction's own (Machine/Operands.lean), in R116's order. -/
def decode (rings : Nat) (w : CmdWord) : Except IllegalReason Instr :=
  match (fieldOpc w).toNat with
  | 0 => .error .badOpcode
  | 12 => .error .badOpcode
  | 13 => .error .badOpcode
  | 14 => .error .badOpcode
  | 15 => .error .badOpcode
  | opc =>
    if fieldRsv w ≠ 0#4 then .error .rsvNonzero
    else
      match opc with
      | 1 => .ok (.new (fieldRa w) (fieldCnt w))
      | 2 => .ok (.free (fieldRa w))
      | 3 => .ok (.reset (fieldRa w))
      | 4 =>
        match decodeQuery (fieldB8 w) (fieldRa w) with
        | some i => .ok i
        | none => if rings ≤ (fieldRa w).toNat then .error .badRing else .error .badSelector
      | 5 => .ok (.writeMem (fieldRa w) (fieldAddr w) (fieldCnt w))
      | 6 => .ok (.readFd (fieldRa w) (fieldDh w) (fieldCnt w))
      | 7 => .ok (.readMem (fieldRa w) (fieldAddr w) (fieldCnt w))
      | 8 => .ok (.writeFd (fieldRa w) (fieldDh w) (fieldCnt w))
      | 9 => .ok (.copy (fieldRa w) (fieldRb w) (fieldCnt w))
      | 10 => .ok (.find (fieldRa w) (fieldB8 w) (fieldCnt w))
      | 11 => .ok (.fill (fieldRa w) (fieldB8 w) (fieldCnt w))
      | _ => .error .badOpcode

/-- The instruction the decoder reads from a word of the opcode table (bit 0 the least significant, R9): the whole
command is one 128-bit word, so the bits are the word's own. -/
def decodeTableWord (nbits w : Nat) : Option Instr :=
  match decode Config.maxRings (BitVec.ofNat 128 (w % 2 ^ nbits)) with
  | .ok i => some i
  | .error _ => none

/-! ## The encoder -/

/-- The command word of its eight fields (R101). -/
def packFields (opc rsv : BitVec 4) (ra rb : RingId) (b8 : Byte) (dh : Handle) (cnt : Count) (addr : HostAddr) : CmdWord :=
  addr ++ cnt ++ dh ++ b8 ++ rb ++ ra ++ rsv ++ opc

/-- The word of an instruction, RSV and every field it does not use 0 (R107, R108, R109, R110, R117). -/
def encode : Instr → CmdWord
  | .new ra cnt => packFields 1 0 ra 0 0 0 cnt 0
  | .free ra => packFields 2 0 ra 0 0 0 0 0
  | .reset ra => packFields 3 0 ra 0 0 0 0 0
  | .queryBufsize ra => packFields 4 0 ra 0 0 0 0 0
  | .queryCapacity ra => packFields 4 0 ra 0 1 0 0 0
  | .queryFree ra => packFields 4 0 ra 0 2 0 0 0
  | .queryUsed ra => packFields 4 0 ra 0 3 0 0 0
  | .queryFull ra => packFields 4 0 ra 0 4 0 0 0
  | .queryEmpty ra => packFields 4 0 ra 0 5 0 0 0
  | .queryHead ra => packFields 4 0 ra 0 6 0 0 0
  | .queryTail ra => packFields 4 0 ra 0 7 0 0 0
  | .writeMem ra addr cnt => packFields 5 0 ra 0 0 0 cnt addr
  | .readFd ra dh cnt => packFields 6 0 ra 0 0 dh cnt 0
  | .readMem ra addr cnt => packFields 7 0 ra 0 0 0 cnt addr
  | .writeFd ra dh cnt => packFields 8 0 ra 0 0 dh cnt 0
  | .copy ra rb cnt => packFields 9 0 ra rb 0 0 cnt 0
  | .find ra b8 cnt => packFields 10 0 ra 0 b8 0 cnt 0
  | .fill ra b8 cnt => packFields 11 0 ra 0 b8 0 cnt 0

/-- The bits of a command word that an instruction uses: OPC, RSV, and its fields of R109's table (SEL for QUERY, R110).
Every other bit is ignored (R108). -/
def usedBits : Instr → CmdWord
  | .new _ _ => packFields 15 15 15 0 0 0 0xFFFFFFFF 0
  | .free _ => packFields 15 15 15 0 0 0 0 0
  | .reset _ => packFields 15 15 15 0 0 0 0 0
  | .queryBufsize _ => packFields 15 15 15 0 255 0 0 0
  | .queryCapacity _ => packFields 15 15 15 0 255 0 0 0
  | .queryFree _ => packFields 15 15 15 0 255 0 0 0
  | .queryUsed _ => packFields 15 15 15 0 255 0 0 0
  | .queryFull _ => packFields 15 15 15 0 255 0 0 0
  | .queryEmpty _ => packFields 15 15 15 0 255 0 0 0
  | .queryHead _ => packFields 15 15 15 0 255 0 0 0
  | .queryTail _ => packFields 15 15 15 0 255 0 0 0
  | .writeMem _ _ _ => packFields 15 15 15 0 0 0 0xFFFFFFFF 0xFFFFFFFFFFFFFFFF
  | .readFd _ _ _ => packFields 15 15 15 0 0 255 0xFFFFFFFF 0
  | .readMem _ _ _ => packFields 15 15 15 0 0 0 0xFFFFFFFF 0xFFFFFFFFFFFFFFFF
  | .writeFd _ _ _ => packFields 15 15 15 0 0 255 0xFFFFFFFF 0
  | .copy _ _ _ => packFields 15 15 15 15 0 0 0xFFFFFFFF 0
  | .find _ _ _ => packFields 15 15 15 0 255 0 0xFFFFFFFF 0
  | .fill _ _ _ => packFields 15 15 15 0 255 0 0xFFFFFFFF 0

/-! ## Words as bytes (R85) -/

/-- The bytes of a word of `8 * n` bits from byte `k` on, least significant first: byte `k` is bits `[8k+7:8k]`. -/
def wordBytesFrom {m : Nat} (w : BitVec m) (k : Nat) : Nat → List Byte
  | 0 => []
  | n + 1 => w.extractLsb' (8 * k) 8 :: wordBytesFrom w (k + 1) n

/-- The 16 bytes of a command word, little-endian (R85). -/
def cmdBytes (w : CmdWord) : List Byte := wordBytesFrom w 0 16

/-- The 9 bytes of a response word, little-endian (R85). -/
def rspBytes (q : RspWord) : List Byte := wordBytesFrom q 0 9

/-- The number that bytes stand for, least significant first. -/
def bytesToNat : List Byte → Nat
  | [] => 0
  | b :: bs => b.toNat + 256 * bytesToNat bs

/-- The command word a byte bus carries (R85): exactly 16 bytes. -/
def cmdOfBytes (bs : List Byte) : Option CmdWord :=
  if bs.length = 16 then some (BitVec.ofNat 128 (bytesToNat bs)) else none

/-- The decoder on the bytes of a byte bus: none where they are no whole command word. -/
def decodeBytes (rings : Nat) (bs : List Byte) : Option (Except IllegalReason Instr) :=
  (cmdOfBytes bs).map (decode rings)

end Sys2Proof
end

