-- ==== Sys2Proof/Machine/State.lean ====
section
/-! DEFINITION. The state of the controller and of what stands around it, as plain data (10_state.md; R54, R74, R77,
R79-R82, R314), why a step can stop, and the state after hardware reset (R56, R300). -/

namespace Sys2Proof.Machine

/-- Bytes by address, addresses strictly rising. An address that is not listed holds no value: `⊥` in a context's
storage (R39), a byte nobody has stored yet in host memory (log 3). -/
abbrev Memory := List Host.Cell

/-- A ring context `C[r]` (R31). -/
structure Ring where
  /-- MAXCAP[r] (R6): an elaboration-time parameter, written by no step. -/
  maxCap : Nat
  /-- `C[r].live` (R38). -/
  live : Bool
  /-- `C[r].CAP` (R32). -/
  cap : CtxReg
  /-- `C[r].HEAD` (R34). -/
  head : CtxReg
  /-- `C[r].TAIL` (R35). -/
  tail : CtxReg
  /-- `Sto[r]` (R39). -/
  sto : Memory
  deriving DecidableEq, Repr

/-- The direction of an access to host memory (R77) or of a request to the descriptor device (R54). -/
inductive Dir where
  | read
  | write
  deriving DecidableEq, Repr

/-- A range of host addresses that host memory does not admit in one direction (R77). -/
structure Hole where
  base : Nat
  size : Nat
  dir : Dir
  deriving DecidableEq, Repr

/-- A request the descriptor device has received (R79, R80). -/
inductive DevRequest where
  /-- A read request: handle and maximum length. -/
  | read (dh : Handle) (len : Nat)
  /-- A write request: handle and the bytes sent, in order; its length is their number. -/
  | write (dh : Handle) (bytes : List Byte)
  /-- A write request that hardware reset cut (R301, log 8): handle, its length, and the bytes sent before, fewer than its
  length. -/
  | writePart (dh : Handle) (len : Nat) (bytes : List Byte)
  deriving DecidableEq, Repr

/-- The device's result of a read request: `n`, two's complement, and the bytes it delivers (R79). -/
structure ReadAnswer where
  n : BitVec 64
  bytes : List Byte
  deriving DecidableEq, Repr

/-- What a command in phase BUSY waits for (R51, R291). -/
inductive Wait where
  /-- The answer of a host-memory read. -/
  | hostRead (addr : Nat)
  /-- The acceptance of a host-memory write. -/
  | hostWrite (addr : Nat)
  /-- The device's result of the request. -/
  | device (req : DevRequest)
  deriving DecidableEq, Repr

/-- What a waiting command holds of the overflow prediction (R51, R181). -/
inductive Prediction where
  /-- WRITE_MEM: the bit, computed before any byte is moved (R182). -/
  | ovf (b : Bool)
  /-- READ_FD: the free space from before the call, since the bit needs the result `n` (R51, R184). -/
  | free0 (n : Nat)
  /-- READ_MEM and WRITE_FD: these commands predict nothing (R211, R213). DEDUCED (log 7). -/
  | absent
  deriving DecidableEq, Repr

/-- The per-command locals of phase BUSY (R51). -/
structure Busy where
  /-- The command being executed. -/
  instr : Instr
  /-- The overflow prediction, as far as the command has one. -/
  prediction : Prediction
  /-- The progress counter: bytes moved so far; 0 where the command waits for the device. DEDUCED (log 7). -/
  done : Nat
  /-- The request that is pending. -/
  wait : Wait
  deriving DecidableEq, Repr

/-- The phase (R50), with the locals that exist only in BUSY (R51) and the response register, which holds a response
only in RESP (R56). -/
inductive Phase where
  | idle
  | busy (b : Busy)
  | resp (q : RspWord)
  deriving DecidableEq, Repr

/-- What the host does to the controller, one after another (R30, R52, R88, R300, R305). -/
inductive HostInput where
  /-- The host presents a command. -/
  | command (w : CmdWord)
  /-- The host presents a command and, while it is BUSY, stores the bytes given (R90). -/
  | raced (w : CmdWord) (stores : List (HostAddr × Byte))
  /-- The host presents a command and drives `rst` while it is BUSY (R301). -/
  | cut (w : CmdWord)
  /-- The host drives `rst` to a level (R300). -/
  | rst (level : Bool)
  /-- The host stores a byte to its memory (R74). -/
  | store (addr : HostAddr) (v : Byte)
  deriving DecidableEq, Repr

/-- The machine's state. -/
structure State where
  /-- `C[0] .. C[R-1]` (R31); the length is R (R5). -/
  rings : List Ring
  /-- The phase, the per-command locals and the response register (R50, R51, R56). -/
  phase : Phase
  /-- The level of the reset input (R54, R300). -/
  rst : Bool
  /-- Host memory: the bytes stored so far (R74). -/
  hostMem : Memory
  /-- hostAdmits as its complement (R77); written by no step (log 2). -/
  holes : List Hole
  /-- The device's results of the read requests to come: `none` is a request it never answers, and so is a request after
  the end of the list (R79, R81; log 4). -/
  readAnswers : List (Option ReadAnswer)
  /-- The device's results of the write requests to come, in the same way (R80, R81; log 4). -/
  writeAnswers : List (Option (BitVec 64))
  /-- The requests the device has received, oldest first (R82, R314). -/
  requests : List DevRequest
  /-- What the host will do, next action first (R52, R314). -/
  inputs : List HostInput
  /-- How many commands have been accepted (R52). -/
  index : Nat
  /-- The responses the host has taken, oldest first (R314). -/
  taken : List RspWord
  /-- The model's own counter of free choices (log 8, log 9). -/
  draws : Nat
  deriving DecidableEq, Repr

/-- Why a step stops. -/
inductive Fault where
  /-- Raised by `step` in phase BUSY: the command waits for an answer that never comes (R77, R81, R291), and nothing
  but `rst` ends that. Safe: the spec gives the state no next step. -/
  | stuck
  /-- Raised by READ_MEM, WRITE_FD, COPY and FIND on reading a storage cell that holds no value (R39, R290). Safe: the
  spec calls it a model fault, and no reachable state raises it (R47). -/
  | unwrittenStorage
  /-- Raised by READ_FD and WRITE_FD when the device breaks its contract (R79, R80). Safe: the spec gives that result no
  step (R81; log 5). -/
  | deviceContract
  deriving DecidableEq, Repr

/-- Why an instruction has no meaning. -/
inductive Refusal where
  /-- Raised by `exec` for an instruction that has not been modelled. Safe. -/
  | notModelled (mnemonic : String)
  deriving DecidableEq, Repr

/-- A context after hardware reset (R56, R300): not live, its registers 0, every storage cell without a value. -/
def Ring.afterReset (maxCap : Nat) : Ring :=
  { maxCap := maxCap, live := false, cap := 0, head := 0, tail := 0, sto := [] }

/-- The machine right after hardware reset (R56, R300), for the parameters of Config (log 1, log 2) and with nothing
presented yet (log 13, log 14). -/
def State.reset : State :=
  { rings := Config.maxCaps.map Ring.afterReset
    phase := .idle
    rst := false
    hostMem := []
    holes := []
    readAnswers := []
    writeAnswers := []
    requests := []
    inputs := []
    index := 0
    taken := []
    draws := 0 }

end Sys2Proof.Machine
end

