-- ==== Sys2Proof/Machine/Flags.lean ====
section
/-! DEFINITION. What is derived from a context's registers (10_state.md R33, R40-R43), the overflow prediction (R181),
the response word with its flags (R113-R115), and the outputs (R54, R55). -/

namespace Sys2Proof.Machine

/-! ## Derived quantities of a context -/

/-- The buffer size `S(r)` (R33). -/
def Ring.size (c : Ring) : Nat := c.cap.toNat + 1

/-- `bytes_free(r)` (R40). -/
def Ring.free (c : Ring) : Nat :=
  if c.tail.toNat ≤ c.head.toNat then c.cap.toNat - (c.head.toNat - c.tail.toNat)
  else c.tail.toNat - c.head.toNat - 1

/-- `bytes_used(r)` (R41). -/
def Ring.used (c : Ring) : Nat := c.cap.toNat - c.free

/-- `is_full(r)` (R42). -/
def Ring.isFull (c : Ring) : Bool := decide (c.free = 0)

/-- `is_empty(r)` (R42). -/
def Ring.isEmpty (c : Ring) : Bool := decide (c.free = c.cap.toNat)

/-- `nextp(r, p)` (R43). -/
def Ring.nextp (c : Ring) (p : Nat) : Nat := if p + 1 = c.size then 0 else p + 1

/-- A cursor that has reached the storage end goes to 0 (R34, R35). -/
def wrapAt (size p : Nat) : Nat := if p = size then 0 else p

/-- The overflow prediction for `n` bytes to be added (R181), from the free space before any byte is moved. -/
def Ring.predictOvf (c : Ring) (n : Nat) : Bool := decide (c.free < n)

/-! ## The response word -/

/-- The completion statuses (R115). -/
inductive Status where
  | ok
  | underflow
  | allocFail
  | descErr
  | illegal
  deriving DecidableEq, Repr

/-- The STATUS field of a status (R115). -/
def statusCode : Status → BitVec 3
  | .ok => 0
  | .underflow => 1
  | .allocFail => 2
  | .descErr => 3
  | .illegal => 4

/-- UNF: 1 exactly when the status is UNDERFLOW (R49, R113). -/
def unfFlag (st : Status) : Bool := decide (st = .underflow)

/-- The response word (R113): RESULT in two's complement (R114), three zero bits, UNF, OVF, STATUS. -/
def packResponse (st : Status) (result : Int) (ovf : Bool) : RspWord :=
  BitVec.ofInt 64 result ++ 0#3 ++ BitVec.ofBool (unfFlag st) ++ BitVec.ofBool ovf ++ statusCode st

/-- STATUS, bits 2:0 of a response (R113). -/
def rspStatus (q : RspWord) : BitVec 3 := q.extractLsb' 0 3
/-- OVF, bit 3 (R113). -/
def rspOvf (q : RspWord) : Bool := q.getLsbD 3
/-- UNF, bit 4 (R113). -/
def rspUnf (q : RspWord) : Bool := q.getLsbD 4
/-- Bits 7:5, always 0 (R113). -/
def rspZero (q : RspWord) : BitVec 3 := q.extractLsb' 5 3
/-- RESULT, bits 71:8, as the integer it stands for (R113, R114). -/
def rspResult (q : RspWord) : Int := (q.extractLsb' 8 64).toInt

/-! ## The outputs -/

/-- The response register: it holds a response in phase RESP only (R56). -/
def State.response (s : State) : Option RspWord :=
  match s.phase with
  | .resp q => some q
  | _ => none

/-- The port `cmd_ready`: 1 only in phase IDLE (R54), 0 while `rst` is 1 (R300). -/
def State.cmdReady (s : State) : Bool := decide (s.phase = .idle) && !s.rst

/-- The port `rsp_valid`: 1 only in phase RESP (R54), 0 while `rst` is 1 (R300). -/
def State.rspValid (s : State) : Bool := s.response.isSome && !s.rst

/-- The port `live_o` (R55). A command in phase BUSY has not changed any context (log 7), so the outputs hold the values
from before it. -/
def State.liveO (s : State) : List Bool := s.rings.map (·.live)

/-- The port `empty_o` (R55). -/
def State.emptyO (s : State) : List Bool := s.rings.map (fun c => c.live && c.isEmpty)

/-- The port `full_o` (R55). -/
def State.fullO (s : State) : List Bool := s.rings.map (fun c => c.live && c.isFull)

end Sys2Proof.Machine
end

