-- ==== Sys2Proof/Machine/Ops.lean ====
section
/-! DEFINITION. The named operations over memories, contexts and the machine: the accesses of 20_memory.md, the data
mover (R83), the cursors (R34, R35, R43), the overflow fixup (R180), the two descriptor calls (R79, R80), ending a
command (R14), waiting for ever (R291), hardware reset (R300, R301) and the host's own actions. -/

namespace Sys2Proof.Machine

/-! ## Memories -/

/-- The byte at an address, where one is held. -/
def Memory.read? : Memory → Nat → Option Byte
  | [], _ => none
  | (k, v) :: m, a => if a = k then some v else Memory.read? m a

/-- The memory after a byte is written. -/
def Memory.write : Memory → Nat → Byte → Memory
  | [], a, v => [(a, v)]
  | (k, w) :: m, a, v =>
    if a < k then (a, v) :: (k, w) :: m
    else if a = k then (a, v) :: m
    else (k, w) :: Memory.write m a v

/-- The canonical form: addresses strictly rising. -/
abbrev Memory.wf (m : Memory) : Prop := List.Pairwise (fun p q : Host.Cell => p.1 < q.1) m

/-- `n` bytes from an address on, ascending; none where one of them holds no value. -/
def Memory.readSpan (m : Memory) (a : Nat) : Nat → Option (List Byte)
  | 0 => some []
  | n + 1 =>
    match m.read? a with
    | none => none
    | some b => (Memory.readSpan m (a + 1) n).map (b :: ·)

/-- Bytes written from an address on, ascending (R83, R84). -/
def Memory.writeSpan (m : Memory) (a : Nat) : List Byte → Memory
  | [] => m
  | b :: bs => Memory.writeSpan (m.write a b) (a + 1) bs

/-! ## Host memory (R74-R77) -/

/-- The byte of host memory at an address: what was stored there last, or the byte it held all along (R74, log 3). -/
def Memory.hostByte (m : Memory) (a : Nat) : Byte := (m.read? a).getD (Config.hostByte a)

/-- `MemRead(a, 1)` (R75). -/
def State.memRead (s : State) (a : Nat) : Byte := s.hostMem.hostByte a

/-- The hole takes in the access of an address in a direction. -/
def Hole.covers (h : Hole) (dir : Dir) (a : Nat) : Bool :=
  decide (h.dir = dir) && decide (h.base ≤ a) && decide (a < h.base + h.size)

/-- `hostAdmits(a, dir)` (R77). -/
def State.hostAdmits (s : State) (a : Nat) (dir : Dir) : Bool := !s.holes.any (fun h => h.covers dir a)

/-- Of `k` ascending accesses from address `a` on, those before the hole. -/
def Hole.before (h : Hole) (dir : Dir) (a k : Nat) : Nat :=
  if h.dir = dir ∧ 0 < h.size ∧ a < h.base + h.size then min k (h.base - a) else k

/-- How many of the `n` ascending accesses from address `a` on are admitted before the first that is not (R77, R84). -/
def State.admitted (s : State) (dir : Dir) (a n : Nat) : Nat := s.holes.foldr (fun h k => h.before dir a k) n

/-! ## Contexts -/

/-- HEAD moved on by a span of `k` bytes, to 0 where it reaches the storage end (R34). -/
def Ring.advanceHead (c : Ring) (k : Nat) : Ring :=
  { c with head := BitVec.ofNat 32 (wrapAt c.size (c.head.toNat + k)) }

/-- TAIL moved on by a span of `k` bytes, to 0 where it reaches the storage end (R35). -/
def Ring.advanceTail (c : Ring) (k : Nat) : Ring :=
  { c with tail := BitVec.ofNat 32 (wrapAt c.size (c.tail.toNat + k)) }

/-- `AdvanceTailPast(r)`, the overflow fixup (R180). -/
def Ring.advanceTailPast (c : Ring) : Ring := { c with tail := BitVec.ofNat 32 (c.nextp c.head.toNat) }

/-- The fixup, run only where an overflow was predicted (R181). -/
def Ring.fixup (c : Ring) (ovf : Bool) : Ring := if ovf then c.advanceTailPast else c

/-- One span written at HEAD, and HEAD moved past it (R83). -/
def Ring.putSpan (c : Ring) (bs : List Byte) : Ring :=
  Ring.advanceHead { c with sto := c.sto.writeSpan c.head.toNat bs } bs.length

/-- The `k` bytes from TAIL on (R83); none where a cell holds no value (R290). -/
def Ring.getSpan (c : Ring) (k : Nat) : Option (List Byte) := c.sto.readSpan c.tail.toNat k

/-- `LB(r, i)`, the byte at a logical offset (R44), where the cell holds one. -/
def Ring.logicalByte (c : Ring) (i : Nat) : Option Byte := c.sto.read? ((c.tail.toNat + i) % c.size)

/-- Bytes `start .. start + n - 1` of a source of bytes. -/
def sourceSpan (src : Nat → Byte) (start : Nat) : Nat → List Byte
  | 0 => []
  | n + 1 => src start :: sourceSpan src (start + 1) n

/-- The span loop of WRITE_MEM and FILL (R182, R185), `src i` the `i`-th byte to write. Every pass moves at least one
byte, so `cnt` passes are enough (log 12). -/
def Ring.addSpans (src : Nat → Byte) (cnt : Nat) : Nat → Nat → Ring → Ring
  | 0, _, c => c
  | fuel + 1, done, c =>
    if done = cnt then c
    else
      let k := min (c.size - c.head.toNat) (cnt - done)
      Ring.addSpans src cnt fuel (done + k) (c.putSpan (sourceSpan src done k))

/-- `cnt` bytes added at HEAD, with the overflow predicted before and the fixup run after (R181, R182, R185). -/
def Ring.addData (c : Ring) (src : Nat → Byte) (cnt : Nat) : Ring :=
  (Ring.addSpans src cnt cnt 0 c).fixup (c.predictOvf cnt)

/-- The span loop of READ_MEM (R211): the context and host memory, `addr` the first host address; none where a storage
cell that is read holds no value (R290). -/
def Ring.takeSpans (addr cnt : Nat) : Nat → Nat → Ring → Memory → Option (Ring × Memory)
  | 0, _, c, m => some (c, m)
  | fuel + 1, done, c, m =>
    if done = cnt then some (c, m)
    else
      let k := min (c.size - c.tail.toNat) (cnt - done)
      match c.getSpan k with
      | none => none
      | some bs => Ring.takeSpans addr cnt fuel (done + k) (c.advanceTail k) (m.writeSpan (addr + done) bs)

/-- The span loop of COPY (R230): destination and source; none where a storage cell that is read holds no value. -/
def Ring.copySpans (cnt : Nat) : Nat → Nat → Ring → Ring → Option (Ring × Ring)
  | 0, _, d, c => some (d, c)
  | fuel + 1, done, d, c =>
    if done = cnt then some (d, c)
    else
      let ks := min (c.size - c.tail.toNat) (cnt - done)
      let k := min (d.size - d.head.toNat) ks
      match c.getSpan k with
      | none => none
      | some bs => Ring.copySpans cnt fuel (done + k) (d.putSpan bs) (c.advanceTail k)

/-- FIND's scan of one segment (R250): `n` cells from offset `a` on, of which the first is at logical offset `off`. The
outer none is a cell that holds no value (R290); the inner none is no match. -/
def Memory.scan (m : Memory) (b : Byte) (a off : Nat) : Nat → Option (Option Nat)
  | 0 => some none
  | n + 1 =>
    match m.read? a with
    | none => none
    | some v => if v = b then some (some off) else Memory.scan m b (a + 1) (off + 1) n

/-- FIND's loop over segments (R250) from logical offset `off` on; none where a cell that is read holds no value. -/
def Ring.findFrom (c : Ring) (b : Byte) : Nat → Nat → Option Nat
  | 0, _ => some c.used
  | fuel + 1, off =>
    if c.used ≤ off then some c.used
    else
      let start := (c.tail.toNat + off) % c.size
      let n := min (c.size - start) (c.used - off)
      match c.sto.scan b start off n with
      | none => none
      | some (some i) => some i
      | some none => Ring.findFrom c b fuel (off + n)

/-! ## Ending a command (R14) and waiting for ever (R291) -/

/-- Context `ra` replaced. -/
def State.setRing (s : State) (ra : RingId) (c : Ring) : State := { s with rings := s.rings.set ra.toNat c }

/-- `respond(status, result, ovf)` (R14): the command is complete and its response is presented (R50). -/
def State.respond (s : State) (st : Status) (result : Int) (ovf : Bool) : State :=
  { s with phase := .resp (packResponse st result ovf) }

/-- `raise Illegal(reason)` (R14, R275): the reason is no part of the response, and the model keeps it nowhere (P11). -/
def State.raiseIllegal (s : State) (_reason : IllegalReason) : State := s.respond .illegal 0 false

/-- `raise Underflow` (R14, R210, R272). -/
def State.raiseUnderflow (s : State) : State := s.respond .underflow 0 false

/-- `raise AllocFail` (R14, R273). -/
def State.raiseAllocFail (s : State) : State := s.respond .allocFail 0 false

/-- A request of the command is never answered: the command stays in phase BUSY (R77, R81, R291). -/
def State.stall (s : State) (b : Busy) : State := { s with phase := .busy b }

/-! ## The descriptor device (R79-R82) -/

/-- What a call of the device comes to. -/
inductive DescResult (α : Type) where
  /-- The device answers. -/
  | answer (a : α) (s : State)
  /-- The device never answers (R81). -/
  | silent (s : State)
  /-- The device breaks its contract, for which the spec gives no step (R81). -/
  | breach
  deriving DecidableEq, Repr

/-- The contract of a read result for a request of at most `len` bytes (R79): `n <= len`, and exactly `n` bytes where
`n` is positive, else none. -/
def ReadAnswer.keepsContract (a : ReadAnswer) (len : Nat) : Bool :=
  decide (a.n.toInt ≤ (len : Int)) && decide (a.bytes.length = a.n.toInt.toNat)

/-- `DescRead(dh, len)` (R79). -/
def descRead (s : State) (dh : Handle) (len : Nat) : DescResult ReadAnswer :=
  match s.readAnswers with
  | [] => .silent { s with requests := s.requests ++ [.read dh len] }
  | none :: rest => .silent { s with requests := s.requests ++ [.read dh len], readAnswers := rest }
  | some a :: rest =>
    if a.keepsContract len then .answer a { s with requests := s.requests ++ [.read dh len], readAnswers := rest }
    else .breach

/-- `DescWrite(dh, bytes)` (R80). -/
def descWrite (s : State) (dh : Handle) (bytes : List Byte) : DescResult (BitVec 64) :=
  match s.writeAnswers with
  | [] => .silent { s with requests := s.requests ++ [.write dh bytes] }
  | none :: rest => .silent { s with requests := s.requests ++ [.write dh bytes], writeAnswers := rest }
  | some n :: rest =>
    if n.toInt ≤ (bytes.length : Int) then
      .answer n { s with requests := s.requests ++ [.write dh bytes], writeAnswers := rest }
    else .breach

/-! ## Hardware reset and the host's actions -/

/-- `rst` is 1 at a clock edge (R300): every piece of the controller's state takes its reset value. Host memory, the
device and the parameters are not the controller's. -/
def State.hardwareReset (s : State) : State :=
  { s with rings := s.rings.map (fun c => Ring.afterReset c.maxCap), phase := .idle, rst := true }

/-- The host drives `rst` to a level (R300). -/
def State.driveRst (s : State) (level : Bool) : State :=
  if level then s.hardwareReset else { s with rst := false }

/-- The host stores a byte to its memory (R74). -/
def State.hostStore (s : State) (addr : HostAddr) (v : Byte) : State :=
  { s with hostMem := s.hostMem.write addr.toNat v }

/-- The host stores bytes, one after another. -/
def State.hostStores (s : State) : List (HostAddr × Byte) → State
  | [] => s
  | (a, v) :: rest => State.hostStores (s.hostStore a v) rest

/-- The host takes the response (R50, R306). -/
def State.take (s : State) (q : RspWord) : State := { s with phase := .idle, taken := s.taken ++ [q] }

/-- The command at the head of the inputs is accepted (R50, R52). -/
def State.accept (s : State) (rest : List HostInput) : State := { s with inputs := rest, index := s.index + 1 }

/-- The outcome with its next state changed. -/
def mapNext (f : State → State) : Host.Outcome State Fault Refusal → Host.Outcome State Fault Refusal
  | .next s => .next (f s)
  | .fault r => .fault r
  | .refused r => .refused r

/-- The racing stores, from place `i` of the run on, that land before the command's access of their address (R90): a free
choice for each address (log 9). -/
def earlyStores (draw : Nat) : Nat → List (HostAddr × Byte) → List (HostAddr × Byte)
  | _, [] => []
  | i, p :: rest =>
    if i < Config.raceCut draw p.1.toNat then p :: earlyStores draw (i + 1) rest else earlyStores draw (i + 1) rest

/-- The racing stores that land after it. -/
def lateStores (draw : Nat) : Nat → List (HostAddr × Byte) → List (HostAddr × Byte)
  | _, [] => []
  | i, p :: rest =>
    if i < Config.raceCut draw p.1.toNat then lateStores draw (i + 1) rest else p :: lateStores draw (i + 1) rest

/-- The device returns no result: the command stays without one until reset cuts it (R301). -/
def State.silenced (s : State) : State := { s with readAnswers := [], writeAnswers := [] }

/-- A command that reset will cut is run against a host memory that admits no write from a freely chosen address on, so
that a prefix of its host writes happens, and against a device that returns a result only where that comes before the cut
(R301, log 8). -/
def State.beforeCut (s : State) : State :=
  let d := if Config.cutAnswered s.draws then s else s.silenced
  { d with holes := { base := Config.cutAt s.draws, size := Config.hostSpace, dir := .write } :: s.holes }

/-- What the device has received of a request after its first `k` effects, the request itself and each byte sent (R80,
R87): nothing, a part of its bytes, or all of it. -/
def DevRequest.firstEffects (r : DevRequest) (k : Nat) : Option DevRequest :=
  match r with
  | .read dh len => if k = 0 then none else some (.read dh len)
  | .write dh bytes =>
    if k = 0 then none
    else if k ≤ bytes.length then some (.writePart dh bytes.length (bytes.take (k - 1)))
    else some (.write dh bytes)
  | .writePart dh len bytes => if k = 0 then none else some (.writePart dh len (bytes.take (k - 1)))

/-- The requests made from `s` to `s'`. -/
def State.requestsSince (s' s : State) : List DevRequest := s'.requests.drop s.requests.length

/-- Hardware reset in phase BUSY (R301): of the cut command, the host writes of `s'` have happened. Where the device's
result came before the cut, so did the whole request, and the result is used up; else the first `Config.cutDesc` effects
of the request have happened, and the result is still to come (log 8); `s` is the state before it. -/
def State.afterCut (s s' : State) : State :=
  let answered := Config.cutAnswered s.draws
  State.hardwareReset
    { s with
      hostMem := s'.hostMem
      requests :=
        if answered then s'.requests
        else s.requests ++ (s'.requestsSince s).filterMap (fun r => r.firstEffects (Config.cutDesc s.draws))
      readAnswers := if answered then s'.readAnswers else s.readAnswers
      writeAnswers := if answered then s'.writeAnswers else s.writeAnswers
      draws := s.draws + 1 }

end Sys2Proof.Machine
end

