-- ==== Sys2Proof/WellFormed.lean ====
section
/-! DEFINITION. What an instruction's own fields must satisfy on a machine of `rings` contexts, whatever its state:
the checks of R116 and R141 that look at no context. An instruction that fails one is still an instruction: the machine
answers it with ILLEGAL (R275). -/

namespace Sys2Proof

/-- A ring id names a context (R106). -/
def RingId.names (rings : Nat) (r : RingId) : Bool := decide (r.toNat < rings)

/-- A host span lies inside the host address space (R76). -/
def spanFits (addr : HostAddr) (cnt : Count) : Bool := decide (addr.toNat + cnt.toNat ≤ Config.hostSpace)

/-- The checks on an instruction's own fields (R76, R106, R141, D14). -/
def Instr.wellFormed (rings : Nat) : Instr → Bool
  | .new ra cnt => RingId.names rings ra && decide (cnt ≠ 0#32)
  | .free ra => RingId.names rings ra
  | .reset ra => RingId.names rings ra
  | .queryBufsize ra => RingId.names rings ra
  | .queryCapacity ra => RingId.names rings ra
  | .queryFree ra => RingId.names rings ra
  | .queryUsed ra => RingId.names rings ra
  | .queryFull ra => RingId.names rings ra
  | .queryEmpty ra => RingId.names rings ra
  | .queryHead ra => RingId.names rings ra
  | .queryTail ra => RingId.names rings ra
  | .writeMem ra addr cnt => RingId.names rings ra && spanFits addr cnt
  | .readFd ra _ _ => RingId.names rings ra
  | .readMem ra addr cnt => RingId.names rings ra && spanFits addr cnt
  | .writeFd ra _ _ => RingId.names rings ra
  | .copy ra rb _ => RingId.names rings ra && RingId.names rings rb && decide (rb ≠ ra)
  | .find ra _ _ => RingId.names rings ra
  | .fill ra _ _ => RingId.names rings ra

end Sys2Proof
end

