-- ==== Sys2Proof/Machine/Operands.lean ====
section
/-! DEFINITION. The operands of a command: the contexts its ring ids name and its host span, with the checks of R116
that look at them, in the order in which R116 lists them. A check that fails is the reason for ILLEGAL (R275). -/

namespace Sys2Proof.Machine

/-- The context a ring id names (R106): BAD_RING where it names none. -/
def State.ringOf (s : State) (ra : RingId) : Except IllegalReason Ring :=
  match s.rings[ra.toNat]? with
  | none => .error .badRing
  | some c => .ok c

/-- The operand of NEW (R38, R116): BAD_RING, then LIVE. -/
def State.freshRing (s : State) (ra : RingId) : Except IllegalReason Ring :=
  match s.ringOf ra with
  | .error r => .error r
  | .ok c => if c.live then .error .live else .ok c

/-- The context operand of every other command (R38, R116): BAD_RING, then NOT_LIVE. -/
def State.liveRing (s : State) (ra : RingId) : Except IllegalReason Ring :=
  match s.ringOf ra with
  | .error r => .error r
  | .ok c => if c.live then .ok c else .error .notLive

/-- The context and host span of WRITE_MEM and READ_MEM (R76, R116): BAD_RING, NOT_LIVE, then SPAN_WRAP. -/
def State.liveRingSpan (s : State) (ra : RingId) (addr : HostAddr) (cnt : Count) : Except IllegalReason Ring :=
  match s.liveRing ra with
  | .error r => .error r
  | .ok c => if spanFits addr cnt then .ok c else .error .spanWrap

/-- The contexts of COPY, destination and source (R116): BAD_RING of either, SAME_RING, then NOT_LIVE of either. -/
def State.copyRings (s : State) (ra rb : RingId) : Except IllegalReason (Ring × Ring) :=
  match s.ringOf ra with
  | .error r => .error r
  | .ok d =>
    match s.ringOf rb with
    | .error r => .error r
    | .ok c =>
      if rb = ra then .error .sameRing
      else if d.live = false then .error .notLive
      else if c.live = false then .error .notLive
      else .ok (d, c)

end Sys2Proof.Machine
end

