-- ==== Sys2Proof/Machine/AddData.lean ====
section
/-! DEFINITION. WRITE_MEM, READ_FD and FILL (41_add_data.md R180-R185). -/

namespace Sys2Proof.Machine

/-- WRITE_MEM (R182): the span loop of R182 over the bytes `MemRead(addr + i, 1)`. Where one of the reads is not admitted
the command waits for it for ever (R77), and no context has changed (log 7). -/
def execWriteMem (ra : RingId) (addr : HostAddr) (cnt : Count) (s : State) : Host.Outcome State Fault Refusal :=
  match s.liveRingSpan ra addr cnt with
  | .error r => .next (s.raiseIllegal r)
  | .ok c =>
    let n := s.admitted .read addr.toNat cnt.toNat
    if n < cnt.toNat then
      .next (s.stall { instr := .writeMem ra addr cnt, prediction := .ovf (c.predictOvf cnt.toNat), done := n,
                       wait := .hostRead (addr.toNat + n) })
    else
      let c' := c.addData (fun i => s.memRead (addr.toNat + i)) cnt.toNat
      .next ((s.setRing ra c').respond .ok c'.head.toNat (c.predictOvf cnt.toNat))

/-- READ_FD (R184). -/
def execReadFd (ra : RingId) (dh : Handle) (cnt : Count) (s : State) : Host.Outcome State Fault Refusal :=
  match s.liveRing ra with
  | .error r => .next (s.raiseIllegal r)
  | .ok c =>
    let len := min cnt.toNat (c.size - c.head.toNat)
    if len = 0 then .next (s.respond .ok 0 false)
    else
      match descRead s dh len with
      | .breach => .fault .deviceContract
      | .silent s' =>
        .next (s'.stall { instr := .readFd ra dh cnt, prediction := .free0 c.free, done := 0,
                          wait := .device (.read dh len) })
      | .answer a s' =>
        if a.n.toInt < 0 then .next (s'.respond .descErr a.n.toInt false)
        else if a.n.toInt = 0 then .next (s'.respond .ok 0 false)
        else
          let ovf := c.predictOvf a.n.toInt.toNat
          .next ((s'.setRing ra ((c.putSpan a.bytes).fixup ovf)).respond .ok a.n.toInt ovf)

/-- FILL (R185). -/
def execFill (ra : RingId) (b8 : Byte) (cnt : Count) (s : State) : Host.Outcome State Fault Refusal :=
  match s.liveRing ra with
  | .error r => .next (s.raiseIllegal r)
  | .ok c =>
    let n := min cnt.toNat c.size
    .next ((s.setRing ra (c.addData (fun _ => b8) n)).respond .ok n (c.predictOvf n))

end Sys2Proof.Machine
end

