-- ==== Sys2Proof/Machine/CopyFind.lean ====
section
/-! DEFINITION. COPY (43_copy.md R230) and FIND (44_find.md R250). -/

namespace Sys2Proof.Machine

/-- COPY (R230): `ra` is the destination, `rb` the source. -/
def execCopy (ra rb : RingId) (cnt : Count) (s : State) : Host.Outcome State Fault Refusal :=
  match s.copyRings ra rb with
  | .error r => .next (s.raiseIllegal r)
  | .ok (d, c) =>
    if c.used < cnt.toNat then .next s.raiseUnderflow
    else
      match Ring.copySpans cnt.toNat cnt.toNat 0 d c with
      | none => .fault .unwrittenStorage
      | some (d', c') =>
        let ovf := d.predictOvf cnt.toNat
        .next (((s.setRing rb c').setRing ra (d'.fixup ovf)).respond .ok d'.head.toNat ovf)

/-- FIND (R250). -/
def execFind (ra : RingId) (b8 : Byte) (cnt : Count) (s : State) : Host.Outcome State Fault Refusal :=
  match s.liveRing ra with
  | .error r => .next (s.raiseIllegal r)
  | .ok c =>
    match c.findFrom b8 c.used cnt.toNat with
    | none => .fault .unwrittenStorage
    | some v => .next (s.respond .ok v false)

end Sys2Proof.Machine
end

