-- ==== Sys2Proof/Machine/Lifecycle.lean ====
section
/-! DEFINITION. NEW, FREE and RESET (40_lifecycle_query.md R140-R143). -/

namespace Sys2Proof.Machine

/-- NEW (R141). -/
def execNew (ra : RingId) (cnt : Count) (s : State) : Host.Outcome State Fault Refusal :=
  match s.freshRing ra with
  | .error r => .next (s.raiseIllegal r)
  | .ok c =>
    if cnt = 0#32 then .next (s.raiseIllegal .zeroCap)
    else if c.maxCap < cnt.toNat then .next s.raiseAllocFail
    else .next ((s.setRing ra { c with live := true, cap := cnt, head := 0, tail := 0 }).respond .ok 0 false)

/-- FREE (R142). -/
def execFree (ra : RingId) (s : State) : Host.Outcome State Fault Refusal :=
  match s.liveRing ra with
  | .error r => .next (s.raiseIllegal r)
  | .ok c => .next ((s.setRing ra { c with live := false, cap := 0, head := 0, tail := 0 }).respond .ok 0 false)

/-- RESET (R143). -/
def execReset (ra : RingId) (s : State) : Host.Outcome State Fault Refusal :=
  match s.liveRing ra with
  | .error r => .next (s.raiseIllegal r)
  | .ok c => .next ((s.setRing ra { c with head := 0, tail := 0 }).respond .ok 0 false)

end Sys2Proof.Machine
end

