-- ==== Sys2Proof/Machine/Query.lean ====
section
/-! DEFINITION. The eight queries (40_lifecycle_query.md R144-R152). -/

namespace Sys2Proof.Machine

/-- The common template of the queries (R144): the value of an expression of the context's registers. -/
def query (ra : RingId) (value : Ring → Nat) (s : State) : Host.Outcome State Fault Refusal :=
  match s.liveRing ra with
  | .error r => .next (s.raiseIllegal r)
  | .ok c => .next (s.respond .ok (value c) false)

/-- QUERY.BUFSIZE (R145). -/
def execQueryBufsize (ra : RingId) (s : State) : Host.Outcome State Fault Refusal := query ra Ring.size s

/-- QUERY.CAPACITY (R146). -/
def execQueryCapacity (ra : RingId) (s : State) : Host.Outcome State Fault Refusal := query ra (fun c => c.cap.toNat) s

/-- QUERY.FREE (R147). -/
def execQueryFree (ra : RingId) (s : State) : Host.Outcome State Fault Refusal := query ra Ring.free s

/-- QUERY.USED (R148). -/
def execQueryUsed (ra : RingId) (s : State) : Host.Outcome State Fault Refusal := query ra Ring.used s

/-- QUERY.FULL (R149): 1 or 0. -/
def execQueryFull (ra : RingId) (s : State) : Host.Outcome State Fault Refusal := query ra (fun c => c.isFull.toNat) s

/-- QUERY.EMPTY (R150): 1 or 0. -/
def execQueryEmpty (ra : RingId) (s : State) : Host.Outcome State Fault Refusal := query ra (fun c => c.isEmpty.toNat) s

/-- QUERY.HEAD (R151). -/
def execQueryHead (ra : RingId) (s : State) : Host.Outcome State Fault Refusal := query ra (fun c => c.head.toNat) s

/-- QUERY.TAIL (R152). -/
def execQueryTail (ra : RingId) (s : State) : Host.Outcome State Fault Refusal := query ra (fun c => c.tail.toNat) s

end Sys2Proof.Machine
end

