-- ==== Sys2Proof/Machine/RemoveData.lean ====
section
/-! DEFINITION. READ_MEM and WRITE_FD (42_remove_data.md R210-R213). -/

namespace Sys2Proof.Machine

/-- READ_MEM (R211). Where one of the host writes is not admitted, the writes before it have happened and the command
waits for ever (R77); no context has changed (log 7). -/
def execReadMem (ra : RingId) (addr : HostAddr) (cnt : Count) (s : State) : Host.Outcome State Fault Refusal :=
  match s.liveRingSpan ra addr cnt with
  | .error r => .next (s.raiseIllegal r)
  | .ok c =>
    if c.used < cnt.toNat then .next s.raiseUnderflow
    else
      let n := s.admitted .write addr.toNat cnt.toNat
      match Ring.takeSpans addr.toNat n n 0 c s.hostMem with
      | none => .fault .unwrittenStorage
      | some (c', m') =>
        if n < cnt.toNat then
          .next ({ s with hostMem := m' }.stall { instr := .readMem ra addr cnt, prediction := .absent, done := n,
                                                  wait := .hostWrite (addr.toNat + n) })
        else .next (({ s with hostMem := m' }.setRing ra c').respond .ok c'.tail.toNat false)

/-- WRITE_FD (R213). -/
def execWriteFd (ra : RingId) (dh : Handle) (cnt : Count) (s : State) : Host.Outcome State Fault Refusal :=
  match s.liveRing ra with
  | .error r => .next (s.raiseIllegal r)
  | .ok c =>
    if c.used < cnt.toNat then .next s.raiseUnderflow
    else
      let len := min cnt.toNat (c.size - c.tail.toNat)
      if len = 0 then .next (s.respond .ok 0 false)
      else
        match c.getSpan len with
        | none => .fault .unwrittenStorage
        | some bytes =>
          match descWrite s dh bytes with
          | .breach => .fault .deviceContract
          | .silent s' =>
            .next (s'.stall { instr := .writeFd ra dh cnt, prediction := .absent, done := 0,
                              wait := .device (.write dh bytes) })
          | .answer n s' =>
            if n.toInt < 0 then .next (s'.respond .descErr n.toInt false)
            else if n.toInt = 0 then .next (s'.respond .ok 0 false)
            else .next ((s'.setRing ra (c.advanceTail n.toInt.toNat)).respond .ok n.toInt false)

end Sys2Proof.Machine
end

