-- ==== Sys2Proof/Machine/Dispatch.lean ====
section
/-! DEFINITION. One arm for each instruction. -/

namespace Sys2Proof.Machine

/-- The meaning of an instruction, from the state in which its command has been accepted. -/
def exec (i : Instr) (s : State) : Host.Outcome State Fault Refusal :=
  match i with
  | .new ra cnt => Sys2Proof.Machine.execNew ra cnt s
  | .free ra => Sys2Proof.Machine.execFree ra s
  | .reset ra => Sys2Proof.Machine.execReset ra s
  | .queryBufsize ra => Sys2Proof.Machine.execQueryBufsize ra s
  | .queryCapacity ra => Sys2Proof.Machine.execQueryCapacity ra s
  | .queryFree ra => Sys2Proof.Machine.execQueryFree ra s
  | .queryUsed ra => Sys2Proof.Machine.execQueryUsed ra s
  | .queryFull ra => Sys2Proof.Machine.execQueryFull ra s
  | .queryEmpty ra => Sys2Proof.Machine.execQueryEmpty ra s
  | .queryHead ra => Sys2Proof.Machine.execQueryHead ra s
  | .queryTail ra => Sys2Proof.Machine.execQueryTail ra s
  | .writeMem ra addr cnt => Sys2Proof.Machine.execWriteMem ra addr cnt s
  | .readFd ra dh cnt => Sys2Proof.Machine.execReadFd ra dh cnt s
  | .readMem ra addr cnt => Sys2Proof.Machine.execReadMem ra addr cnt s
  | .writeFd ra dh cnt => Sys2Proof.Machine.execWriteFd ra dh cnt s
  | .copy ra rb cnt => Sys2Proof.Machine.execCopy ra rb cnt s
  | .find ra b8 cnt => Sys2Proof.Machine.execFind ra b8 cnt s
  | .fill ra b8 cnt => Sys2Proof.Machine.execFill ra b8 cnt s

end Sys2Proof.Machine
end

