-- ==== Sys2Proof/Machine/Step.lean ====
section
/-! DEFINITION. One step: the controller takes the next command from acceptance to response (R50, D1), or the host's
next action reaches it (R300-R306). -/

namespace Sys2Proof.Machine

/-- A command word that has been accepted: decoded, then executed or refused (R116). -/
def issue (w : CmdWord) (s : State) : Host.Outcome State Fault Refusal :=
  match decode s.rings.length w with
  | .error r => .next (s.raiseIllegal r)
  | .ok i => exec i s

/-- A command word that host stores race (R90). -/
def issueRaced (w : CmdWord) (stores : List (HostAddr × Byte)) (s : State) : Host.Outcome State Fault Refusal :=
  mapNext (fun t => t.hostStores (lateStores s.draws 0 stores))
    (issue w { s.hostStores (earlyStores s.draws 0 stores) with draws := s.draws + 1 })

/-- A command word that hardware reset cuts in phase BUSY (R301). -/
def issueCut (w : CmdWord) (s : State) : Host.Outcome State Fault Refusal :=
  mapNext (fun t => s.afterCut t) (issue w s.beforeCut)

/-- The controller's own move, the host at rest or presenting what `inputs` begins with: in BUSY it waits for an answer
that never comes (R291); in RESP the host takes the response (R306); in IDLE a presented command is accepted (R88), and
without one the controller waits (R289, R302). While `rst` is 1 nothing is accepted (R300). -/
def stepController (s : State) : Host.Outcome State Fault Refusal :=
  if s.rst then .next s
  else
    match s.phase with
    | .busy _ => .fault .stuck
    | .resp q => .next (s.take q)
    | .idle =>
      match s.inputs with
      | .command w :: rest => issue w (s.accept rest)
      | .raced w stores :: rest => issueRaced w stores (s.accept rest)
      | .cut w :: rest => issueCut w (s.accept rest)
      | .rst _ :: _ => .next s
      | .store _ _ :: _ => .next s
      | [] => .next s

/-- One step. The host drives `rst` and stores to its memory in any phase (R74, R300, R301). -/
def step (s : State) : Host.Outcome State Fault Refusal :=
  match s.inputs with
  | .rst level :: rest => .next ({ s with inputs := rest }.driveRst level)
  | .store addr v :: rest => .next ({ s with inputs := rest }.hostStore addr v)
  | .command _ :: _ => stepController s
  | .raced _ _ :: _ => stepController s
  | .cut _ :: _ => stepController s
  | [] => stepController s

/-- The state in which the very next step accepts and runs the command whose lowest `nbits` bits are those of `w`, the
bits above 0: the phase is IDLE, `rst` is 0, and the command is the host's next action (log 13). -/
def State.withFetchWord (s : State) (nbits w : Nat) : State :=
  { s with phase := .idle, rst := false, inputs := .command (BitVec.ofNat 128 (w % 2 ^ nbits)) :: s.inputs }

end Sys2Proof.Machine
end

