-- ==== Sys2Proof/Machine/Assembler.lean ====
section
/-! DEFINITION. The assembler: one line of text to one command word (30_encoding.md R117, R118). What the spec leaves open
about blanks is said in log 18. -/

namespace Sys2Proof.Assembler

/-- The value of a digit, either case. -/
def digit (c : Char) : Option Nat :=
  let n := c.toNat
  if 48 ≤ n ∧ n ≤ 57 then some (n - 48)
  else if 97 ≤ n ∧ n ≤ 102 then some (n - 87)
  else if 65 ≤ n ∧ n ≤ 70 then some (n - 55)
  else none

/-- Digits of a base, added to what stands before them. -/
def readDigits (base : Nat) : Nat → List Char → Option Nat
  | acc, [] => some acc
  | acc, c :: cs =>
    match digit c with
    | none => none
    | some d => if d < base then readDigits base (acc * base + d) cs else none

/-- At least one digit of a base. -/
def readNumber (base : Nat) (cs : List Char) : Option Nat := if cs = [] then none else readDigits base 0 cs

/-- A value that fits a field. -/
def fit (n : Nat) : Option Nat → Option (BitVec n)
  | none => none
  | some v => if v < 2 ^ n then some (BitVec.ofNat n v) else none

/-- A number, decimal or `0x` hexadecimal, for a field of `n` bits. -/
def number (n : Nat) : List Char → Option (BitVec n)
  | '0' :: 'x' :: cs => fit n (readNumber 16 cs)
  | cs => fit n (readNumber 10 cs)

/-- `r<n>`. -/
def ringOperand : List Char → Option RingId
  | 'r' :: cs => fit 4 (readNumber 10 cs)
  | _ => none

/-- `fd<n>`. -/
def handleOperand : List Char → Option Handle
  | 'f' :: 'd' :: cs => fit 8 (readNumber 10 cs)
  | _ => none

/-- Blanks. -/
def isBlank (c : Char) : Bool := c = ' ' || c = '\t'

/-- The text without the blanks around it. -/
def trim (cs : List Char) : List Char := ((cs.dropWhile isBlank).reverse.dropWhile isBlank).reverse

/-- `[<number>]`. -/
def addrOperand : List Char → Option HostAddr
  | '[' :: cs => if cs.getLast? = some ']' then number 64 (trim cs.dropLast) else none
  | _ => none

/-- The pieces between commas. -/
def splitCommas : List Char → List (List Char)
  | [] => [[]]
  | c :: cs =>
    if c = ',' then [] :: splitCommas cs
    else
      match splitCommas cs with
      | [] => [[c]]
      | w :: ws => (c :: w) :: ws

/-- The instruction of a mnemonic and its operands, in the operand orders of R117. -/
def instruction (mnemonic : String) (operands : List (List Char)) : Option Instr :=
  match mnemonic, operands with
  | "NEW", [a, n] => do return .new (← ringOperand a) (← number 32 n)
  | "FREE", [a] => do return .free (← ringOperand a)
  | "RESET", [a] => do return .reset (← ringOperand a)
  | "QUERY.BUFSIZE", [a] => do return .queryBufsize (← ringOperand a)
  | "QUERY.CAPACITY", [a] => do return .queryCapacity (← ringOperand a)
  | "QUERY.FREE", [a] => do return .queryFree (← ringOperand a)
  | "QUERY.USED", [a] => do return .queryUsed (← ringOperand a)
  | "QUERY.FULL", [a] => do return .queryFull (← ringOperand a)
  | "QUERY.EMPTY", [a] => do return .queryEmpty (← ringOperand a)
  | "QUERY.HEAD", [a] => do return .queryHead (← ringOperand a)
  | "QUERY.TAIL", [a] => do return .queryTail (← ringOperand a)
  | "WRITE_MEM", [a, m, n] => do return .writeMem (← ringOperand a) (← addrOperand m) (← number 32 n)
  | "READ_MEM", [a, m, n] => do return .readMem (← ringOperand a) (← addrOperand m) (← number 32 n)
  | "READ_FD", [a, d, n] => do return .readFd (← ringOperand a) (← handleOperand d) (← number 32 n)
  | "WRITE_FD", [a, d, n] => do return .writeFd (← ringOperand a) (← handleOperand d) (← number 32 n)
  | "COPY", [a, b, n] => do return .copy (← ringOperand a) (← ringOperand b) (← number 32 n)
  | "FIND", [a, v, n] => do return .find (← ringOperand a) (← number 8 v) (← number 32 n)
  | "FILL", [a, v, n] => do return .fill (← ringOperand a) (← number 8 v) (← number 32 n)
  | _, _ => none

/-- What a line of assembly is. -/
inductive Line where
  /-- Nothing but blanks and a comment. -/
  | empty
  /-- A command. -/
  | command (i : Instr)
  /-- No line of R117. -/
  | malformed
  deriving DecidableEq, Repr

/-- A line read: the comment is dropped, the first word is the mnemonic, the rest its operands between commas. -/
def readLine (line : String) : Line :=
  let cs := trim (line.toList.takeWhile (fun c => c ≠ ';'))
  if cs = [] then .empty
  else
    match instruction (String.ofList (cs.takeWhile (fun c => !isBlank c)))
        ((splitCommas (cs.dropWhile (fun c => !isBlank c))).map trim) with
    | some i => .command i
    | none => .malformed

/-- The command word of a line: every mnemonic assembles to exactly one word (R118), with RSV and every field the opcode
ignores 0. -/
def assemble (line : String) : Option CmdWord :=
  match readLine line with
  | .command i => some (encode i)
  | .empty => none
  | .malformed => none

end Sys2Proof.Assembler
end

