-- ==== Sys2Proof/Safety.lean ====
section
/-! DEFINITION. What holds of every reachable state (10_state.md R45, R47), and R116 written on the raw command word,
in the terms that statements use. -/

namespace Sys2Proof.Machine

/-- The first `n` bytes of the used region of a context are there, `⊥` none of them (R45 (d)). -/
def Ring.holdsUsed (c : Ring) : Prop := ∀ i, i < c.used → c.logicalByte i ≠ none

/-- R45 for one context, with its parameter (R6) and the form of its storage (R31, R39). -/
structure Ring.Inv (c : Ring) : Prop where
  /-- R6. -/
  maxCap_pos : 1 ≤ c.maxCap
  /-- R6. -/
  maxCap_le : c.maxCap ≤ Config.maxMaxCap
  /-- The storage list is in canonical form. -/
  sto_wf : c.sto.wf
  /-- Storage has MAXCAP + 1 bytes (R31). -/
  sto_inside : ∀ p ∈ c.sto, p.1 ≤ c.maxCap
  /-- R45 (a). -/
  cap_legal : c.live = true → 1 ≤ c.cap.toNat ∧ c.cap.toNat ≤ c.maxCap
  /-- R45 (b). -/
  cursors_legal : c.live = true → c.head.toNat < c.size ∧ c.tail.toNat < c.size
  /-- R45 (d). -/
  used_held : c.live = true → c.holdsUsed
  /-- R45, last clause. -/
  dead_zero : c.live = false → c.cap = 0 ∧ c.head = 0 ∧ c.tail = 0

/-- A response word that the controller can produce (R113, R277): bits 7:5 are 0, STATUS is no reserved value, OVF comes
only with OK, and UNF exactly with UNDERFLOW. -/
structure LegalResponse (q : RspWord) : Prop where
  zero : rspZero q = 0
  status : (rspStatus q).toNat ≤ 4
  ovf : rspOvf q = true → rspStatus q = statusCode .ok
  unf : rspUnf q = true ↔ rspStatus q = statusCode .underflow

/-- The invariant of the whole machine: R of R5, R45 for every context, host memory canonical and inside its address
space (R70), every presented or taken response legal, every context at its reset values while `rst` is 1 (R300). -/
structure State.Inv (s : State) : Prop where
  rings_pos : 1 ≤ s.rings.length
  rings_le : s.rings.length ≤ Config.maxRings
  rings_inv : ∀ c ∈ s.rings, c.Inv
  host_wf : s.hostMem.wf
  host_inside : ∀ p ∈ s.hostMem, p.1 < Config.hostSpace
  rsp_legal : ∀ q, s.response = some q → LegalResponse q
  taken_legal : ∀ q ∈ s.taken, LegalResponse q
  in_reset : s.rst = true → s.phase = .idle ∧ s.rings = s.rings.map (fun c => Ring.afterReset c.maxCap)

/-- The content of the FIFO (R44): the used region, oldest byte first. -/
def Ring.content (c : Ring) : List (Option Byte) := (List.range c.used).map c.logicalByte

/-- The last `n` elements of a list, or all of them. -/
def lastOf {α : Type} (n : Nat) (l : List α) : List α := l.drop (l.length - n)

/-- The device keeps its contract with the request the instruction makes, where it makes one (of at least one byte, on a
live context, and for WRITE_FD without underflow) and the device answers (R79, R80). -/
def deviceKeeps (i : Instr) (s : State) : Prop :=
  match i with
  | .readFd ra _ cnt =>
    ∀ c a rest, s.rings[ra.toNat]? = some c → c.live = true → 1 ≤ min cnt.toNat (c.size - c.head.toNat) →
      s.readAnswers = some a :: rest → a.keepsContract (min cnt.toNat (c.size - c.head.toNat)) = true
  | .writeFd ra _ cnt =>
    ∀ c n rest, s.rings[ra.toNat]? = some c → c.live = true → cnt.toNat ≤ c.used →
      1 ≤ min cnt.toNat (c.size - c.tail.toNat) → s.writeAnswers = some n :: rest →
      n.toInt ≤ ((min cnt.toNat (c.size - c.tail.toNat) : Nat) : Int)
  | _ => True

/-- Context `r` exists and is live. -/
def State.isLive (s : State) (r : Nat) : Bool :=
  match s.rings[r]? with
  | some c => c.live
  | none => false

/-- R116 as it is written, on the raw command word: the first check that fails. -/
def firstFailedCheck (s : State) (w : CmdWord) : Option IllegalReason :=
  let opc := (w.extractLsb' 0 4).toNat
  let rsv := (w.extractLsb' 4 4).toNat
  let ra := (w.extractLsb' 8 4).toNat
  let rb := (w.extractLsb' 12 4).toNat
  let b8 := (w.extractLsb' 16 8).toNat
  let cnt := (w.extractLsb' 32 32).toNat
  let addr := (w.extractLsb' 64 64).toNat
  if opc ∈ [0x0, 0xC, 0xD, 0xE, 0xF] then some .badOpcode
  else if rsv ≠ 0 then some .rsvNonzero
  else if s.rings.length ≤ ra then some .badRing
  else if opc = 9 ∧ s.rings.length ≤ rb then some .badRing
  else if opc = 9 ∧ rb = ra then some .sameRing
  else if opc = 4 ∧ 7 < b8 then some .badSelector
  else if opc = 1 ∧ s.isLive ra = true then some .live
  else if opc ≠ 1 ∧ s.isLive ra = false then some .notLive
  else if opc = 9 ∧ s.isLive rb = false then some .notLive
  else if opc ∈ [5, 7] ∧ 2 ^ 64 < addr + cnt then some .spanWrap
  else none

/-- The ring ids an instruction names (R106). -/
def namedRings : Instr → List RingId
  | .new ra _ => [ra]
  | .free ra => [ra]
  | .reset ra => [ra]
  | .queryBufsize ra => [ra]
  | .queryCapacity ra => [ra]
  | .queryFree ra => [ra]
  | .queryUsed ra => [ra]
  | .queryFull ra => [ra]
  | .queryEmpty ra => [ra]
  | .queryHead ra => [ra]
  | .queryTail ra => [ra]
  | .writeMem ra _ _ => [ra]
  | .readFd ra _ _ => [ra]
  | .readMem ra _ _ => [ra]
  | .writeFd ra _ _ => [ra]
  | .copy ra rb _ => [ra, rb]
  | .find ra _ _ => [ra]
  | .fill ra _ _ => [ra]

/-- The context an add-data command adds to (R18). -/
def addsTo : Instr → Option RingId
  | .writeMem ra _ _ => some ra
  | .readFd ra _ _ => some ra
  | .fill ra _ _ => some ra
  | .copy ra _ _ => some ra
  | _ => none

/-- The context a remove-data command removes from (R18). -/
def removesFrom : Instr → Option RingId
  | .readMem ra _ _ => some ra
  | .writeFd ra _ _ => some ra
  | .copy _ rb _ => some rb
  | _ => none

/-- The context that NEW, FREE or RESET acts on. -/
def lifecycleOf : Instr → Option RingId
  | .new ra _ => some ra
  | .free ra => some ra
  | .reset ra => some ra
  | _ => none

/-- RESULT of the response that an outcome presents. -/
def resultOf : Host.Outcome State Fault Refusal → Option Int
  | .next s => s.response.map rspResult
  | _ => none

end Sys2Proof.Machine
end

