-- ==== Sys2Proof/Certificates/Slice0/Obligations.lean ====
section
/-! DEFINITION. What is claimed of the model, from the spec's numbered rules. Each docstring names the rule. -/

open Sys2Proof Sys2Proof.Machine

/-! ## Encoding -/

/-- R101, R109, R110: decoding the encoding of any instruction gives it back, with every operand at every value. -/
def Obligations.DecodeOfEncodeIsTheInstruction : Prop :=
  ∀ (rings : Nat) (i : Instr), decode rings (encode i) = .ok i ∧ decodeTableWord 128 (encode i).toNat = some i

/-- R108, R109, R110: a word decodes to an instruction exactly where its used bits are those of the instruction's encoding;
every other bit is ignored, and the encoder writes 0 in it. -/
def Obligations.DecodeReadsExactlyTheUsedBits : Prop :=
  (∀ (rings : Nat) (w : CmdWord) (i : Instr), decode rings w = .ok i ↔ w &&& usedBits i = encode i) ∧
  (∀ i : Instr, encode i &&& ~~~ usedBits i = 0#128)

/-- R112: every command word is either legal, and is then a word of one instruction, or is reserved as R111 says. -/
def Obligations.EveryWordIsLegalOrReserved : Prop :=
  ∀ (rings : Nat) (w : CmdWord),
    (∃ i, decode rings w = .ok i) ↔
      ¬ ((w.extractLsb' 0 4).toNat ∈ [0x0, 0xC, 0xD, 0xE, 0xF] ∨ w.extractLsb' 4 4 ≠ 0#4 ∨
         ((w.extractLsb' 0 4).toNat = 4 ∧ 8 ≤ (w.extractLsb' 16 8).toNat))

/-- R119 (with R117, R118): each line of assembly of the spec's encoding examples assembles to the word beside it, and the
decoder reads that word as the instruction the line names. -/
def Obligations.EncodingExamplesAssembleAndDecode : Prop :=
  let row := fun (line : String) (w : CmdWord) (i : Instr) =>
    Assembler.assemble line = some w ∧ decodeTableWord 128 w.toNat = some i ∧ encode i = w
  row "NEW r0, 4" 0x00000000000000000000000400000001 (.new 0 4) ∧
  row "NEW r1, 4" 0x00000000000000000000000400000101 (.new 1 4) ∧
  row "FREE r1" 0x00000000000000000000000000000102 (.free 1) ∧
  row "RESET r0" 0x00000000000000000000000000000003 (.reset 0) ∧
  row "QUERY.FULL r1" 0x00000000000000000000000000040104 (.queryFull 1) ∧
  row "WRITE_MEM r0, [0x100], 3" 0x00000000000001000000000300000005 (.writeMem 0 0x100 3) ∧
  row "READ_FD r0, fd7, 4" 0x00000000000000000000000407000006 (.readFd 0 7 4) ∧
  row "READ_MEM r0, [0x200], 3" 0x00000000000002000000000300000007 (.readMem 0 0x200 3) ∧
  row "WRITE_FD r0, fd8, 4" 0x00000000000000000000000408000008 (.writeFd 0 8 4) ∧
  row "COPY r1, r0, 4" 0x00000000000000000000000400000109 (.copy 1 0 4) ∧
  row "FIND r1, 0x04, 0" 0x0000000000000000000000000004010A (.find 1 0x04 0) ∧
  row "FILL r0, 0xAA, 2" 0x00000000000000000000000200AA000B (.fill 0 0xAA 2)

/-- R85: a command word that a byte bus carries, byte `k` its bits `[8k+7:8k]`, is the word it was; and so the decoder
reads the same from the bytes. -/
def Obligations.CommandBytesAreLittleEndian : Prop :=
  ∀ w : CmdWord, (∀ k, k < 16 → (cmdBytes w)[k]? = some (w.extractLsb' (8 * k) 8)) ∧ cmdOfBytes (cmdBytes w) = some w ∧
    ∀ rings, decodeBytes rings (cmdBytes w) = some (decode rings w)

/-- R113, R114, R115: what each field of a response word holds, and the STATUS value of each status. -/
def Obligations.ResponseFieldsHoldStatusFlagsAndResult : Prop :=
  ((statusCode .ok).toNat = 0 ∧ (statusCode .underflow).toNat = 1 ∧ (statusCode .allocFail).toNat = 2 ∧
    (statusCode .descErr).toNat = 3 ∧ (statusCode .illegal).toNat = 4) ∧
  ∀ (st : Status) (v : Int) (ovf : Bool), -2 ^ 63 ≤ v → v < 2 ^ 63 →
    rspStatus (packResponse st v ovf) = statusCode st ∧ rspOvf (packResponse st v ovf) = ovf ∧
    (rspUnf (packResponse st v ovf) = true ↔ st = .underflow) ∧ rspZero (packResponse st v ovf) = 0#3 ∧
    rspResult (packResponse st v ovf) = v

/-! ## The step, the phases and reset -/

/-- R50, R52, R116: in phase IDLE with `rst` 0, a presented word that decodes is accepted and its instruction executed. -/
def Obligations.StepRunsTheDecodedInstruction : Prop :=
  ∀ (s : State) (w : CmdWord) (rest : List HostInput) (i : Instr),
    s.rst = false → s.phase = .idle → s.inputs = .command w :: rest → decode s.rings.length w = .ok i →
    step s = exec i { s with inputs := rest, index := s.index + 1 }

/-- R111: a reserved encoding is accepted, and answered with ILLEGAL without any other effect. -/
def Obligations.ReservedEncodingsAreIllegal : Prop :=
  ∀ (s : State) (w : CmdWord) (rest : List HostInput),
    s.rst = false → s.phase = .idle → s.inputs = .command w :: rest →
    ((w.extractLsb' 0 4).toNat ∈ [0x0, 0xC, 0xD, 0xE, 0xF] ∨ w.extractLsb' 4 4 ≠ 0#4 ∨
      ((w.extractLsb' 0 4).toNat = 4 ∧ 8 ≤ (w.extractLsb' 16 8).toNat)) →
    step s = .next { s with inputs := rest, index := s.index + 1, phase := .resp (packResponse .illegal 0 false) }

/-- R116: on every command word and in every state, the machine makes the checks of R116 as they are written there, on
the raw word. Where one fails the response is ILLEGAL and nothing else changes; where all pass, the instruction whose
encoding the word's used bits are is executed, and nothing but NEW of capacity 0 (R141) is answered with ILLEGAL. -/
def Obligations.DecodeAndAdmissionFollowTheListedChecks : Prop :=
  ∀ (s : State) (w : CmdWord) (rest : List HostInput),
    s.rst = false → s.phase = .idle → s.inputs = .command w :: rest →
    (∀ r, firstFailedCheck s w = some r →
      step s = .next { s with inputs := rest, index := s.index + 1, phase := .resp (packResponse .illegal 0 false) }) ∧
    (firstFailedCheck s w = none →
      ∃ i, w &&& usedBits i = encode i ∧ step s = exec i { s with inputs := rest, index := s.index + 1 } ∧
        ∀ t q, step s = .next t → t.response = some q → rspStatus q = statusCode .illegal → ∃ ra, i = .new ra 0)

/-- R50, R289, R302, R306: without a command phase IDLE stays; a response is taken before the next command is accepted,
and the phase is then IDLE. That the host takes it in the very next step, unless it drives `rst` or stores first, is the
model's choice (log 6): R306 only puts it before the next command. -/
def Obligations.IdleWaitsAndResponsesAreTakenFirst : Prop :=
  (∀ s : State, s.rst = false → s.phase = .idle → s.inputs = [] → step s = .next s) ∧
  (∀ (s : State) (q : RspWord), s.rst = false → s.phase = .resp q →
    (s.inputs = [] ∨ ∃ w rest, s.inputs = .command w :: rest ∨ (∃ stores, s.inputs = .raced w stores :: rest) ∨
      s.inputs = .cut w :: rest) →
    step s = .next { s with phase := .idle, taken := s.taken ++ [q] })

/-- R77, R291: from phase BUSY nothing but `rst` at 1 leads on: no command is accepted, and a host store changes host
memory alone, with its place in the host's actions. That the step of a waiting command is the fault `stuck` is the model's
choice (log 7). -/
def Obligations.BusyIsLeftOnlyByReset : Prop :=
  ∀ (s : State) (b : Busy), s.rst = false → s.phase = .busy b →
    ((s.inputs = [] ∨ ∃ w rest, s.inputs = .command w :: rest ∨ (∃ stores, s.inputs = .raced w stores :: rest) ∨
      s.inputs = .cut w :: rest) → step s = .fault .stuck) ∧
    (∀ a v rest, s.inputs = .store a v :: rest →
      step s = .next { s with inputs := rest, hostMem := s.hostMem.write a.toNat v }) ∧
    (∀ rest, s.inputs = .rst false :: rest → step s = .next { s with inputs := rest }) ∧
    (∀ rest, s.inputs = .rst true :: rest → ∃ t, step s = .next t ∧ t.phase = .idle) ∧
    (∀ t, step s = .next t → (t.phase = .busy b ∧ t.rings = s.rings) ∨ ∃ rest, s.inputs = .rst true :: rest)

/-- R300: while `rst` is 1 every piece of the controller's state is at its reset value, in whatever state it was, and no
command is accepted; when `rst` is 0 again the controller is in phase IDLE. -/
def Obligations.HardwareResetSetsEveryResetValue : Prop :=
  (∀ (s : State) (rest : List HostInput), s.inputs = .rst true :: rest →
    step s = .next { s with
      inputs := rest, rst := true, phase := .idle
      rings := s.rings.map (fun c =>
        { maxCap := c.maxCap, live := false, cap := 0#32, head := 0#32, tail := 0#32, sto := [] }) }) ∧
  (∀ s : State, s.rst = true → s.cmdReady = false ∧ s.rspValid = false ∧
    (∀ w rest, s.inputs = .command w :: rest → step s = .next s)) ∧
  (∀ (s : State) (rest : List HostInput), s.inputs = .rst true :: .rst false :: rest →
    ∃ t u, step s = .next t ∧ step t = .next u ∧ u.rst = false ∧ u.phase = .idle ∧ u.inputs = rest ∧
      u.rings = s.rings.map (fun c => Ring.afterReset c.maxCap) ∧ u.hostMem = s.hostMem)

/-- R45, R56: the state right after reset satisfies the invariant (its R and MAXCAP are the model's choice, log 1). -/
def Obligations.ResetStateSatisfiesTheInvariant : Prop := State.reset.Inv

/-- R45: every step keeps the invariant, from every state that has it. -/
def Obligations.EveryStepKeepsTheInvariant : Prop :=
  ∀ s t : State, s.Inv → step s = .next t → t.Inv

/-- R301, log 8: hardware reset during a command leaves every context at its reset values, presents no response, and of
the command's other effects a part has happened: each host byte is as before the command or as the command leaves it; and
either the device's result came before, and the device is as the command leaves it, or none came, the result is still to
come, and the request was not received, or was, a write request perhaps with fewer bytes than its length. -/
def Obligations.ResetDuringACommandAbandonsIt : Prop :=
  ∀ (s t : State) (w : CmdWord) (rest : List HostInput), s.Inv → s.rst = false → s.phase = .idle →
    s.inputs = .cut w :: rest → step s = .next t →
    t.phase = .idle ∧ t.rst = true ∧ t.taken = s.taken ∧ t.inputs = rest ∧ t.holes = s.holes ∧
    t.rings = s.rings.map (fun c => Ring.afterReset c.maxCap) ∧
    ∃ u : State,
      ((issue w (s.accept rest) = .next u ∧ t.requests = u.requests ∧
          t.readAnswers = u.readAnswers ∧ t.writeAnswers = u.writeAnswers) ∨
        (issue w { s.accept rest with readAnswers := [], writeAnswers := [] } = .next u ∧
          t.readAnswers = s.readAnswers ∧ t.writeAnswers = s.writeAnswers ∧
          (t.requests = s.requests ∨ t.requests = u.requests ∨
            ∃ dh bytes j, u.requests = s.requests ++ [DevRequest.write dh bytes] ∧ j < bytes.length ∧
              t.requests = s.requests ++ [DevRequest.writePart dh bytes.length (bytes.take j)]))) ∧
      ∀ a, t.memRead a = s.memRead a ∨ t.memRead a = u.memRead a

/-- R90, log 9: a WRITE_MEM that host stores race reads of each byte its old value or one that the host stores there, and
all the stores are in host memory afterwards. -/
def Obligations.RacedWriteMemReadsOldOrNewBytes : Prop :=
  ∀ (s t : State) (w : CmdWord) (rest : List HostInput) (stores : List (HostAddr × Byte)) (ra : RingId)
    (addr : HostAddr) (cnt : Count),
    s.rst = false → s.phase = .idle → s.inputs = .raced w stores :: rest →
    decode s.rings.length w = .ok (.writeMem ra addr cnt) → step s = .next t →
    (∀ a, t.memRead a = (s.hostStores stores).memRead a) ∧
    ∃ (m : Memory) (u : State),
      (∀ a, m.hostByte a = s.memRead a ∨ ∃ p ∈ stores, p.1.toNat = a ∧ m.hostByte a = p.2) ∧
      exec (.writeMem ra addr cnt) { s.accept rest with hostMem := m } = .next u ∧
      t.rings = u.rings ∧ t.phase = u.phase

/-! ## Construction, reset, destruction and queries -/

/-- R141: NEW of a live context, of capacity 0, of more than MAXCAP, and otherwise. -/
def Obligations.NewConstructsAnEmptyContext : Prop :=
  ∀ (s : State) (ra : RingId) (cnt : Count) (c : Ring), s.rings[ra.toNat]? = some c →
    (c.live = true → exec (.new ra cnt) s = .next { s with phase := .resp (packResponse .illegal 0 false) }) ∧
    (c.live = false → cnt.toNat = 0 →
      exec (.new ra cnt) s = .next { s with phase := .resp (packResponse .illegal 0 false) }) ∧
    (c.live = false → 1 ≤ cnt.toNat → c.maxCap < cnt.toNat →
      exec (.new ra cnt) s = .next { s with phase := .resp (packResponse .allocFail 0 false) }) ∧
    (c.live = false → 1 ≤ cnt.toNat → cnt.toNat ≤ c.maxCap →
      exec (.new ra cnt) s = .next { s with
        rings := s.rings.set ra.toNat { c with live := true, cap := cnt, head := 0#32, tail := 0#32 }
        phase := .resp (packResponse .ok 0 false) })

/-- R142: FREE of a live context, and that every command but NEW that names the context afterwards is ILLEGAL. -/
def Obligations.FreeDestroysTheContext : Prop :=
  ∀ (s : State) (ra : RingId) (c : Ring), s.rings[ra.toNat]? = some c → c.live = true →
    let t : State := { s with
      rings := s.rings.set ra.toNat { c with live := false, cap := 0#32, head := 0#32, tail := 0#32 }
      phase := .resp (packResponse .ok 0 false) }
    exec (.free ra) s = .next t ∧
    ∀ i : Instr, ra ∈ namedRings i → (∀ cnt, i ≠ .new ra cnt) →
      exec i { t with phase := .idle } = .next { t with phase := .resp (packResponse .illegal 0 false) }

/-- R38, R142: a command other than NEW that names a context that is not live is answered with ILLEGAL and changes nothing
else; so a second FREE is. -/
def Obligations.ADeadContextRefusesAllButNew : Prop :=
  ∀ (s : State) (i : Instr) (ra : RingId) (c : Ring), ra ∈ namedRings i → (∀ cnt, i ≠ .new ra cnt) →
    s.rings[ra.toNat]? = some c → c.live = false →
    exec i s = .next { s with phase := .resp (packResponse .illegal 0 false) }

/-- R143: RESET of a live context moves both cursors to 0 and leaves CAP, `live` and storage. -/
def Obligations.ResetEmptiesTheContext : Prop :=
  ∀ (s : State) (ra : RingId) (c : Ring), s.rings[ra.toNat]? = some c →
    (c.live = true → exec (.reset ra) s = .next { s with
      rings := s.rings.set ra.toNat { c with head := 0#32, tail := 0#32 }
      phase := .resp (packResponse .ok 0 false) }) ∧
    (c.live = false → exec (.reset ra) s = .next { s with phase := .resp (packResponse .illegal 0 false) })

/-- R144-R152: each query of a live context answers its value, and nothing but the response changes. -/
def Obligations.QueriesAnswerTheirValue : Prop :=
  ∀ (s : State) (ra : RingId) (c : Ring), s.rings[ra.toNat]? = some c → c.live = true →
    c.head.toNat ≤ c.cap.toNat → c.tail.toNat ≤ c.cap.toNat →
    let S := c.cap.toNat + 1
    let h := c.head.toNat
    let t := c.tail.toNat
    let answer := fun (v : Nat) =>
      (Host.Outcome.next { s with phase := .resp (packResponse .ok v false) } : Host.Outcome State Fault Refusal)
    exec (.queryBufsize ra) s = answer S ∧
    exec (.queryCapacity ra) s = answer c.cap.toNat ∧
    exec (.queryFree ra) s = answer (if t ≤ h then c.cap.toNat - (h - t) else t - h - 1) ∧
    exec (.queryUsed ra) s = answer ((h + S - t) % S) ∧
    exec (.queryFull ra) s = answer (if t = (h + 1) % S then 1 else 0) ∧
    exec (.queryEmpty ra) s = answer (if h = t then 1 else 0) ∧
    exec (.queryHead ra) s = answer h ∧
    exec (.queryTail ra) s = answer t

/-- R153: the laws of the queries on a live context, in terms of the results that the responses carry. -/
def Obligations.QueryResultsObeyTheirLaws : Prop :=
  ∀ (s : State) (ra : RingId) (c : Ring), s.rings[ra.toNat]? = some c → c.live = true → c.Inv →
    ∃ size cap free used full empty head tail : Int,
      resultOf (exec (.queryBufsize ra) s) = some size ∧ resultOf (exec (.queryCapacity ra) s) = some cap ∧
      resultOf (exec (.queryFree ra) s) = some free ∧ resultOf (exec (.queryUsed ra) s) = some used ∧
      resultOf (exec (.queryFull ra) s) = some full ∧ resultOf (exec (.queryEmpty ra) s) = some empty ∧
      resultOf (exec (.queryHead ra) s) = some head ∧ resultOf (exec (.queryTail ra) s) = some tail ∧
      used + free = cap ∧ (empty = 1 ↔ head = tail) ∧ (full = 1 ↔ free = 0) ∧ size = cap + 1 ∧
      ¬ (full = 1 ∧ empty = 1)

/-- R46: a live context is empty exactly where HEAD is TAIL, and full exactly where TAIL is one past HEAD. -/
def Obligations.EmptyAndFullByTheCursors : Prop :=
  ∀ c : Ring, c.live = true → c.Inv →
    (c.isEmpty = true ↔ c.head = c.tail) ∧ (c.isFull = true ↔ c.tail.toNat = c.nextp c.head.toNat)

/-- R47: at most `S - 1` bytes are used, and the byte at HEAD is never one of them: when the context is full, that is the
sentinel slot. -/
def Obligations.TheByteAtHeadIsNeverUsed : Prop :=
  ∀ c : Ring, c.live = true → c.Inv →
    c.used ≤ c.size - 1 ∧ ∀ i, i < c.used → (c.tail.toNat + i) % c.size ≠ c.head.toNat

/-- R55: the status outputs of every context, and that they keep the values from before a command that is BUSY. -/
def Obligations.StatusOutputsShowEmptyAndFull : Prop :=
  (∀ (s : State) (r : Nat) (c : Ring), s.rings[r]? = some c → c.Inv →
    s.liveO[r]? = some c.live ∧ s.emptyO[r]? = some (c.live && decide (c.head = c.tail)) ∧
    s.fullO[r]? = some (c.live && decide (c.tail.toNat = c.nextp c.head.toNat))) ∧
  (∀ (i : Instr) (s t : State) (b : Busy), exec i s = .next t → t.phase = .busy b →
    t.liveO = s.liveO ∧ t.emptyO = s.emptyO ∧ t.fullO = s.fullO)

/-! ## Adding data -/

/-- R180: the overflow fixup writes TAIL alone, to one past HEAD, and leaves the context full. -/
def Obligations.FixupLeavesTheContextFull : Prop :=
  ∀ c : Ring, c.head.toNat < c.size →
    c.advanceTailPast = { c with tail := c.advanceTailPast.tail } ∧
    c.advanceTailPast.tail.toNat = c.nextp c.head.toNat ∧ c.advanceTailPast.isFull = true

/-- R183: the closed form of WRITE_MEM, and that nothing but the context and the response changes. -/
def Obligations.WriteMemHasItsClosedForm : Prop :=
  ∀ (s : State) (ra : RingId) (addr : HostAddr) (cnt : Count) (c : Ring),
    s.rings[ra.toNat]? = some c → c.live = true → c.head.toNat < c.size → c.tail.toNat < c.size →
    addr.toNat + cnt.toNat ≤ 2 ^ 64 → (∀ j, j < cnt.toNat → s.hostAdmits (addr.toNat + j) .read = true) →
    ∃ c' : Ring,
      exec (.writeMem ra addr cnt) s = .next { s with
        rings := s.rings.set ra.toNat c'
        phase := .resp (packResponse .ok ((c.head.toNat + cnt.toNat) % c.size : Nat) (decide (c.free < cnt.toNat))) } ∧
      c'.maxCap = c.maxCap ∧ c'.live = true ∧ c'.cap = c.cap ∧
      c'.head.toNat = (c.head.toNat + cnt.toNat) % c.size ∧
      c'.tail.toNat = (if c.free < cnt.toNat then (c'.head.toNat + 1) % c.size else c.tail.toNat) ∧
      (∀ p, (∀ i, i < cnt.toNat → (c.head.toNat + i) % c.size ≠ p) → c'.sto.read? p = c.sto.read? p) ∧
      (∀ p i, i < cnt.toNat → (c.head.toNat + i) % c.size = p →
        (∀ j, i < j → j < cnt.toNat → (c.head.toNat + j) % c.size ≠ p) →
        c'.sto.read? p = some (s.memRead (addr.toNat + i)))

/-- R187: overflow determinism. -/
def Obligations.OverflowKeepsTheLastCapacityBytes : Prop :=
  ∀ (s : State) (ra : RingId) (addr : HostAddr) (cnt : Count) (c : Ring) (j : Nat),
    s.rings[ra.toNat]? = some c → c.live = true → c.Inv → 1 ≤ j → j ≤ c.cap.toNat → cnt.toNat = c.cap.toNat + j →
    addr.toNat + cnt.toNat ≤ 2 ^ 64 → (∀ k, k < cnt.toNat → s.hostAdmits (addr.toNat + k) .read = true) →
    ∃ (t : State) (c' : Ring) (q : RspWord),
      exec (.writeMem ra addr cnt) s = .next t ∧ t.rings[ra.toNat]? = some c' ∧ t.response = some q ∧
      c'.head.toNat = (c.head.toNat + j - 1) % c.size ∧ c'.tail.toNat = c'.nextp c'.head.toNat ∧ c'.isFull = true ∧
      rspStatus q = statusCode .ok ∧ rspOvf q = true ∧ rspResult q = c'.head.toNat ∧
      ∀ i, i < c.cap.toNat → c'.logicalByte i = some (s.memRead (addr.toNat + (cnt.toNat - c.cap.toNat + i)))

/-- R186: the closed form of FILL, and that nothing but the context and the response changes. -/
def Obligations.FillHasItsClosedForm : Prop :=
  ∀ (s : State) (ra : RingId) (b8 : Byte) (cnt : Count) (c : Ring),
    s.rings[ra.toNat]? = some c → c.live = true → c.head.toNat < c.size → c.tail.toNat < c.size →
    ∃ c' : Ring,
      exec (.fill ra b8 cnt) s = .next { s with
        rings := s.rings.set ra.toNat c'
        phase := .resp (packResponse .ok (min cnt.toNat c.size : Nat) (decide (c.free < min cnt.toNat c.size))) } ∧
      c'.maxCap = c.maxCap ∧ c'.live = true ∧ c'.cap = c.cap ∧
      c'.head.toNat = (c.head.toNat + min cnt.toNat c.size) % c.size ∧
      c'.tail.toNat = (if c.free < min cnt.toNat c.size then (c'.head.toNat + 1) % c.size else c.tail.toNat) ∧
      (∀ i, i < min cnt.toNat c.size → c'.sto.read? ((c.head.toNat + i) % c.size) = some b8) ∧
      (∀ p, (∀ i, i < min cnt.toNat c.size → (c.head.toNat + i) % c.size ≠ p) → c'.sto.read? p = c.sto.read? p)

/-- R184: READ_FD of no byte makes no request and answers 0; a request the device answers within its contract ends in
DESC_ERR, in 0 bytes or in `n` bytes at HEAD; one it never answers leaves the command BUSY (R81). -/
def Obligations.ReadFdMakesOneClampedRequest : Prop :=
  ∀ (s : State) (ra : RingId) (dh : Handle) (cnt : Count) (c : Ring),
    s.rings[ra.toNat]? = some c → c.live = true → c.head.toNat < c.size → c.tail.toNat < c.size →
    (cnt.toNat = 0 → exec (.readFd ra dh cnt) s = .next { s with phase := .resp (packResponse .ok 0 false) }) ∧
    (1 ≤ cnt.toNat →
      let len := min cnt.toNat (c.size - c.head.toNat)
      let asked := s.requests ++ [DevRequest.read dh len]
      (s.readAnswers = [] → ∃ b, b.wait = .device (.read dh len) ∧
        exec (.readFd ra dh cnt) s = .next { s with requests := asked, phase := .busy b }) ∧
      (∀ rest, s.readAnswers = none :: rest → ∃ b, b.wait = .device (.read dh len) ∧
        exec (.readFd ra dh cnt) s = .next { s with requests := asked, readAnswers := rest, phase := .busy b }) ∧
      (∀ a rest, s.readAnswers = some a :: rest → a.n.toInt ≤ len → a.bytes.length = a.n.toInt.toNat →
        (a.n.toInt < 0 → exec (.readFd ra dh cnt) s = .next { s with
          requests := asked, readAnswers := rest, phase := .resp (packResponse .descErr a.n.toInt false) }) ∧
        (a.n.toInt = 0 → exec (.readFd ra dh cnt) s = .next { s with
          requests := asked, readAnswers := rest, phase := .resp (packResponse .ok 0 false) }) ∧
        (0 < a.n.toInt → ∃ c' : Ring,
          exec (.readFd ra dh cnt) s = .next { s with
            requests := asked, readAnswers := rest, rings := s.rings.set ra.toNat c'
            phase := .resp (packResponse .ok a.n.toInt (decide (c.free < a.bytes.length))) } ∧
          c'.maxCap = c.maxCap ∧ c'.live = true ∧ c'.cap = c.cap ∧
          c'.head.toNat = (c.head.toNat + a.bytes.length) % c.size ∧
          c'.tail.toNat = (if c.free < a.bytes.length then (c'.head.toNat + 1) % c.size else c.tail.toNat) ∧
          ∀ p, c'.sto.read? p =
            if c.head.toNat ≤ p ∧ p < c.head.toNat + a.bytes.length then a.bytes[p - c.head.toNat]? else c.sto.read? p)))

/-- R188: retention. Each add-data command that adds the bytes `A` to a context whose content was `U` leaves the last
`min(|U| + |A|, CAP)` bytes of `U ++ A`, and OVF is 1 exactly where `|U| + |A| > CAP`. -/
def Obligations.AddDataRetainsTheLatestBytes : Prop :=
  ∀ (s : State) (ra : RingId) (c : Ring),
    s.rings[ra.toNat]? = some c → c.live = true → c.head.toNat < c.size → c.tail.toNat < c.size →
    let adds := fun (i : Instr) (A : List (Option Byte)) =>
      ∃ (t : State) (c' : Ring) (q : RspWord), exec i s = .next t ∧ t.rings[ra.toNat]? = some c' ∧
        t.response = some q ∧ rspStatus q = statusCode .ok ∧ c'.content = lastOf c.cap.toNat (c.content ++ A) ∧
        (rspOvf q = true ↔ c.cap.toNat < c.content.length + A.length)
    (∀ (addr : HostAddr) (cnt : Count), addr.toNat + cnt.toNat ≤ 2 ^ 64 →
      (∀ j, j < cnt.toNat → s.hostAdmits (addr.toNat + j) .read = true) →
      adds (.writeMem ra addr cnt) ((List.range cnt.toNat).map (fun j => some (s.memRead (addr.toNat + j))))) ∧
    (∀ (b8 : Byte) (cnt : Count), adds (.fill ra b8 cnt) (List.replicate (min cnt.toNat c.size) (some b8))) ∧
    (∀ (dh : Handle) (cnt : Count) (a : ReadAnswer) (rest : List (Option ReadAnswer)),
      s.readAnswers = some a :: rest → 0 < a.n.toInt → a.n.toInt ≤ (min cnt.toNat (c.size - c.head.toNat) : Nat) →
      a.bytes.length = a.n.toInt.toNat → adds (.readFd ra dh cnt) (a.bytes.map some)) ∧
    (∀ (rb : RingId) (cnt : Count) (src : Ring), s.rings[rb.toNat]? = some src → rb ≠ ra → src.live = true → src.Inv →
      cnt.toNat ≤ src.used → adds (.copy ra rb cnt) (src.content.take cnt.toNat))

/-! ## Removing data -/

/-- R212: the closed form of READ_MEM: an underflow changes nothing; otherwise the first `cnt` bytes of the used region
are in host memory in order, every other host byte is as before, TAIL has moved on, and nothing else changes. -/
def Obligations.ReadMemHasItsClosedForm : Prop :=
  ∀ (s : State) (ra : RingId) (addr : HostAddr) (cnt : Count) (c : Ring),
    s.rings[ra.toNat]? = some c → c.live = true → c.Inv → addr.toNat + cnt.toNat ≤ 2 ^ 64 →
    (c.used < cnt.toNat →
      exec (.readMem ra addr cnt) s = .next { s with phase := .resp (packResponse .underflow 0 false) }) ∧
    (cnt.toNat ≤ c.used → (∀ j, j < cnt.toNat → s.hostAdmits (addr.toNat + j) .write = true) →
      ∃ (m : Memory) (c' : Ring),
        exec (.readMem ra addr cnt) s = .next { s with
          hostMem := m
          rings := s.rings.set ra.toNat c'
          phase := .resp (packResponse .ok ((c.tail.toNat + cnt.toNat) % c.size : Nat) false) } ∧
        c' = { c with tail := c'.tail } ∧ c'.tail.toNat = (c.tail.toNat + cnt.toNat) % c.size ∧
        (∀ i, i < cnt.toNat → c.logicalByte i = some (m.hostByte (addr.toNat + i))) ∧
        (∀ a, (a < addr.toNat ∨ addr.toNat + cnt.toNat ≤ a) → m.hostByte a = s.memRead a))

/-- R213: WRITE_FD sends the first `len` bytes of the used region in at most one request and moves TAIL on by what the
device takes; storage and HEAD stay. -/
def Obligations.WriteFdMakesOneClampedRequest : Prop :=
  ∀ (s : State) (ra : RingId) (dh : Handle) (cnt : Count) (c : Ring),
    s.rings[ra.toNat]? = some c → c.live = true → c.Inv →
    (c.used < cnt.toNat →
      exec (.writeFd ra dh cnt) s = .next { s with phase := .resp (packResponse .underflow 0 false) }) ∧
    (cnt.toNat = 0 → exec (.writeFd ra dh cnt) s = .next { s with phase := .resp (packResponse .ok 0 false) }) ∧
    (1 ≤ cnt.toNat → cnt.toNat ≤ c.used →
      ∃ bytes : List Byte, bytes.length = min cnt.toNat (c.size - c.tail.toNat) ∧
        (∀ j, j < bytes.length → c.logicalByte j = bytes[j]?) ∧
        (s.writeAnswers = [] → ∃ b, b.wait = .device (.write dh bytes) ∧
          exec (.writeFd ra dh cnt) s = .next { s with
            requests := s.requests ++ [DevRequest.write dh bytes], phase := .busy b }) ∧
        (∀ rest, s.writeAnswers = none :: rest → ∃ b, b.wait = .device (.write dh bytes) ∧
          exec (.writeFd ra dh cnt) s = .next { s with
            requests := s.requests ++ [DevRequest.write dh bytes], writeAnswers := rest, phase := .busy b }) ∧
        (∀ n rest, s.writeAnswers = some n :: rest → n.toInt ≤ bytes.length →
          (n.toInt < 0 → exec (.writeFd ra dh cnt) s = .next { s with
            requests := s.requests ++ [DevRequest.write dh bytes], writeAnswers := rest
            phase := .resp (packResponse .descErr n.toInt false) }) ∧
          (n.toInt = 0 → exec (.writeFd ra dh cnt) s = .next { s with
            requests := s.requests ++ [DevRequest.write dh bytes], writeAnswers := rest
            phase := .resp (packResponse .ok 0 false) }) ∧
          (0 < n.toInt → ∃ c' : Ring,
            exec (.writeFd ra dh cnt) s = .next { s with
              requests := s.requests ++ [DevRequest.write dh bytes], writeAnswers := rest
              rings := s.rings.set ra.toNat c'
              phase := .resp (packResponse .ok n.toInt false) } ∧
            c' = { c with tail := c'.tail } ∧ c'.tail.toNat = (c.tail.toNat + n.toInt.toNat) % c.size)))

/-- R214: a remove-data command that asks for more than is used is refused whole: nothing but the response changes. -/
def Obligations.UnderflowChangesNothing : Prop :=
  ∀ (s : State) (r : RingId) (cnt : Count) (c : Ring), s.rings[r.toNat]? = some c → c.live = true →
    c.used < cnt.toNat →
    (∀ addr : HostAddr, addr.toNat + cnt.toNat ≤ 2 ^ 64 →
      exec (.readMem r addr cnt) s = .next { s with phase := .resp (packResponse .underflow 0 false) }) ∧
    (∀ dh : Handle, exec (.writeFd r dh cnt) s = .next { s with phase := .resp (packResponse .underflow 0 false) }) ∧
    (∀ (ra : RingId) (d : Ring), s.rings[ra.toNat]? = some d → d.live = true → r ≠ ra →
      exec (.copy ra r cnt) s = .next { s with phase := .resp (packResponse .underflow 0 false) })

/-- R216: a remove-data command that ends with OK takes exactly the first bytes off the content of the context it removes
from, and writes neither its storage nor its HEAD. -/
def Obligations.RemovalTakesTheOldestBytes : Prop :=
  ∀ (s t : State) (i : Instr) (r : RingId) (c : Ring) (q : RspWord), s.Inv → removesFrom i = some r →
    s.rings[r.toNat]? = some c → exec i s = .next t → t.phase = .resp q → rspStatus q = statusCode .ok →
    ∃ (c' : Ring) (m : Nat), t.rings[r.toNat]? = some c' ∧
      (∀ ra addr cnt, i = .readMem ra addr cnt → m = cnt.toNat) ∧
      (∀ ra dh cnt, i = .writeFd ra dh cnt → m = (rspResult q).toNat) ∧
      (∀ ra rb cnt, i = .copy ra rb cnt → m = cnt.toNat) ∧
      c'.content = c.content.drop m ∧ c'.sto = c.sto ∧ c'.head = c.head

/-- R215: what WRITE_MEM puts into an empty context, READ_MEM of as many bytes gives back, and the context is empty again. -/
def Obligations.WriteThenReadRoundTrip : Prop :=
  ∀ (s : State) (ra : RingId) (a b : HostAddr) (k : Count) (c : Ring),
    s.rings[ra.toNat]? = some c → c.live = true → c.Inv → c.head = c.tail → k.toNat ≤ c.cap.toNat →
    a.toNat + k.toNat ≤ 2 ^ 64 → b.toNat + k.toNat ≤ 2 ^ 64 →
    (∀ j, j < k.toNat → s.hostAdmits (a.toNat + j) .read = true) →
    (∀ j, j < k.toNat → s.hostAdmits (b.toNat + j) .write = true) →
    ∃ (t u : State) (c' : Ring) (q q' : RspWord),
      exec (.writeMem ra a k) s = .next t ∧ t.response = some q ∧
      exec (.readMem ra b k) { t with phase := .idle } = .next u ∧ u.response = some q' ∧
      rspStatus q = statusCode .ok ∧ rspOvf q = false ∧ rspStatus q' = statusCode .ok ∧ rspUnf q' = false ∧
      u.rings[ra.toNat]? = some c' ∧
      c'.head.toNat = (c.tail.toNat + k.toNat) % c.size ∧ c'.tail.toNat = (c.tail.toNat + k.toNat) % c.size ∧
      ∀ i, i < k.toNat → u.memRead (b.toNat + i) = s.memRead (a.toNat + i)

/-! ## Copy and search -/

/-- R231: the closed form of COPY, and that nothing but the two contexts and the response changes. -/
def Obligations.CopyHasItsClosedForm : Prop :=
  ∀ (s : State) (ra rb : RingId) (cnt : Count) (d c : Ring),
    s.rings[ra.toNat]? = some d → s.rings[rb.toNat]? = some c → rb ≠ ra → d.live = true → c.live = true →
    d.Inv → c.Inv → cnt.toNat ≤ c.used →
    ∃ d' c' : Ring,
      exec (.copy ra rb cnt) s = .next { s with
        rings := (s.rings.set rb.toNat c').set ra.toNat d'
        phase := .resp (packResponse .ok ((d.head.toNat + cnt.toNat) % d.size : Nat) (decide (d.free < cnt.toNat))) } ∧
      c' = { c with tail := c'.tail } ∧ c'.tail.toNat = (c.tail.toNat + cnt.toNat) % c.size ∧
      d'.maxCap = d.maxCap ∧ d'.live = true ∧ d'.cap = d.cap ∧
      d'.head.toNat = (d.head.toNat + cnt.toNat) % d.size ∧
      d'.tail.toNat = (if d.free < cnt.toNat then (d'.head.toNat + 1) % d.size else d.tail.toNat) ∧
      (∀ p, (∀ i, i < cnt.toNat → (d.head.toNat + i) % d.size ≠ p) → d'.sto.read? p = d.sto.read? p) ∧
      (∀ p i, i < cnt.toNat → (d.head.toNat + i) % d.size = p →
        (∀ j, i < j → j < cnt.toNat → (d.head.toNat + j) % d.size ≠ p) →
        d'.sto.read? p = c.logicalByte i)

/-- R233: order preservation. After a COPY that ends with OK the destination's content is its old content followed by the
first `cnt` bytes of the source's, or where that overflows the last CAP bytes of it; the source's content has lost them. -/
def Obligations.CopyPreservesTheOrderOfBytes : Prop :=
  ∀ (s t : State) (ra rb : RingId) (cnt : Count) (d c : Ring) (q : RspWord),
    s.rings[ra.toNat]? = some d → s.rings[rb.toNat]? = some c → d.Inv → c.Inv →
    exec (.copy ra rb cnt) s = .next t → t.phase = .resp q → rspStatus q = statusCode .ok →
    ∃ d' c' : Ring, t.rings[ra.toNat]? = some d' ∧ t.rings[rb.toNat]? = some c' ∧
      (rspOvf q = false → d'.content = d.content ++ c.content.take cnt.toNat) ∧
      (rspOvf q = true → d'.content = lastOf d.cap.toNat (d.content ++ c.content.take cnt.toNat)) ∧
      c'.content = c.content.drop cnt.toNat

/-- R251: FIND answers the least logical offset at or after `cnt` at which the byte stands, or `bytes_used`; nothing but
the response changes. -/
def Obligations.FindAnswersTheFirstOccurrence : Prop :=
  ∀ (s : State) (ra : RingId) (b8 : Byte) (cnt : Count) (c : Ring),
    s.rings[ra.toNat]? = some c → c.live = true → c.Inv →
    ∃ v : Nat, exec (.find ra b8 cnt) s = .next { s with phase := .resp (packResponse .ok v false) } ∧
      (v = c.used ∨ (cnt.toNat ≤ v ∧ v < c.used ∧ c.logicalByte v = some b8)) ∧
      ∀ i, cnt.toNat ≤ i → i < c.used → c.logicalByte i = some b8 → v ≤ i

/-- R182, R211, R232, R250, C4: the span loops make no more passes than the spec derives. A loop cut after that many
passes comes to the same: two for WRITE_MEM and FILL of at most `2S - HEAD` bytes, two for READ_MEM and FIND, three for
COPY of at most `S(dst)` bytes. -/
def Obligations.SpanLoopsKeepTheirPassBounds : Prop :=
  (∀ (src : Nat → Byte) (cnt : Nat) (c : Ring), c.head.toNat < c.size → cnt ≤ 2 * c.size - c.head.toNat →
    Ring.addSpans src cnt 2 0 c = Ring.addSpans src cnt cnt 0 c) ∧
  (∀ (addr cnt : Nat) (c : Ring) (m : Memory), c.tail.toNat < c.size → cnt ≤ c.used →
    Ring.takeSpans addr cnt 2 0 c m = Ring.takeSpans addr cnt cnt 0 c m) ∧
  (∀ (b : Byte) (off : Nat) (c : Ring), c.tail.toNat < c.size → c.findFrom b 2 off = c.findFrom b c.used off) ∧
  (∀ (cnt : Nat) (d c : Ring), d.head.toNat < d.size → c.tail.toNat < c.size → cnt ≤ c.used → cnt ≤ d.size →
    Ring.copySpans cnt 3 0 d c = Ring.copySpans cnt cnt 0 d c)

/-! ## Rules of the whole machine -/

/-- R276: a response with a status other than OK leaves contexts and host memory as they were, and the device too, except
that a DESC_ERR follows one request the device received. -/
def Obligations.ErrorResponsesChangeNothing : Prop :=
  ∀ (i : Instr) (s t : State) (q : RspWord), exec i s = .next t → t.phase = .resp q →
    rspStatus q ≠ statusCode .ok →
    t.rings = s.rings ∧ t.hostMem = s.hostMem ∧
    (rspStatus q ≠ statusCode .descErr →
      t.requests = s.requests ∧ t.readAnswers = s.readAnswers ∧ t.writeAnswers = s.writeAnswers) ∧
    (rspStatus q = statusCode .descErr → ∃ r, t.requests = s.requests ++ [r])

/-- R277: STATUS 5-7 are never produced, OVF comes only with OK and UNF exactly with UNDERFLOW. -/
def Obligations.ResponsesAreLegal : Prop :=
  ∀ (i : Instr) (s t : State) (q : RspWord), exec i s = .next t → t.phase = .resp q →
    LegalResponse q ∧ ¬ (rspOvf q = true ∧ rspUnf q = true)

/-- R36, R37: HEAD is written only by NEW, FREE, RESET and the add-data commands, of the context they name or add to;
TAIL only by NEW, FREE, RESET, the remove-data commands, and an add-data command that reports OVF. -/
def Obligations.CursorsAreWrittenOnlyByTheirCommands : Prop :=
  ∀ (i : Instr) (s t : State) (r : RingId) (c c' : Ring), exec i s = .next t →
    s.rings[r.toNat]? = some c → t.rings[r.toNat]? = some c' →
    (c'.head ≠ c.head → lifecycleOf i = some r ∨ addsTo i = some r) ∧
    (c'.tail ≠ c.tail → lifecycleOf i = some r ∨ removesFrom i = some r ∨
      (addsTo i = some r ∧ ∃ q, t.phase = .resp q ∧ rspOvf q = true))

/-- R32, R38: CAP and `live` are written only by NEW and FREE. -/
def Obligations.CapacityIsWrittenOnlyByNewAndFree : Prop :=
  ∀ (i : Instr) (s t : State) (r : RingId) (c c' : Ring), exec i s = .next t →
    s.rings[r.toNat]? = some c → t.rings[r.toNat]? = some c' → (c'.cap ≠ c.cap ∨ c'.live ≠ c.live) →
    (∃ cnt, i = .new r cnt) ∨ i = .free r

/-- R31, R72: a command changes no context it does not name, no parameter, and nothing of the host but its memory. -/
def Obligations.CommandsTouchOnlyTheContextsTheyName : Prop :=
  ∀ (i : Instr) (s t : State), exec i s = .next t →
    (∀ r : Nat, (∀ ra ∈ namedRings i, ra.toNat ≠ r) → t.rings[r]? = s.rings[r]?) ∧
    t.rings.map Ring.maxCap = s.rings.map Ring.maxCap ∧
    t.rst = s.rst ∧ t.holes = s.holes ∧ t.inputs = s.inputs ∧ t.index = s.index ∧ t.taken = s.taken ∧ t.draws = s.draws

/-- R33, R73, R140, R216: storage is written only by the add-data commands, in the context they add to, and there only at
offsets below the buffer size. -/
def Obligations.StorageIsWrittenOnlyByAddData : Prop :=
  ∀ (i : Instr) (s t : State) (r : RingId) (c c' : Ring), c.Inv → exec i s = .next t →
    s.rings[r.toNat]? = some c → t.rings[r.toNat]? = some c' →
    (addsTo i ≠ some r → c'.sto = c.sto) ∧ (∀ p, c.size ≤ p → c'.sto.read? p = c.sto.read? p)

/-- R70, R75: host memory is written only by READ_MEM, and only inside its span, whatever the command comes to. -/
def Obligations.HostMemoryIsWrittenOnlyInTheReadMemSpan : Prop :=
  ∀ (i : Instr) (s t : State), s.Inv → exec i s = .next t →
    ((∀ ra addr cnt, i ≠ .readMem ra addr cnt) → t.hostMem = s.hostMem) ∧
    (∀ ra addr cnt, i = .readMem ra addr cnt →
      ∀ a, (a < addr.toNat ∨ addr.toNat + cnt.toNat ≤ a) → t.memRead a = s.memRead a)

/-- R82: at most one descriptor request per command, by READ_FD and WRITE_FD alone, and none for a count of 0. -/
def Obligations.AtMostOneDeviceRequest : Prop :=
  ∀ (i : Instr) (s t : State), exec i s = .next t →
    t.requests = s.requests ∨
    (∃ ra dh cnt len, i = .readFd ra dh cnt ∧ 1 ≤ cnt.toNat ∧ len ≤ cnt.toNat ∧
      t.requests = s.requests ++ [DevRequest.read dh len]) ∨
    (∃ ra dh cnt bytes, i = .writeFd ra dh cnt ∧ 1 ≤ cnt.toNat ∧ bytes.length ≤ cnt.toNat ∧
      t.requests = s.requests ++ [DevRequest.write dh bytes])

/-- R77: a WRITE_MEM or READ_MEM with an access that host memory does not admit stays in phase BUSY at the first such
access, and the bytes a READ_MEM wrote before it are in host memory. That every context is as before in phase BUSY, and that `done`
counts the accesses before it, is the model's choice (log 7). -/
def Obligations.AnUnadmittedAccessLeavesTheCommandBusy : Prop :=
  ∀ (s : State) (ra : RingId) (addr : HostAddr) (cnt : Count) (c : Ring) (n : Nat),
    s.rings[ra.toNat]? = some c → c.live = true → c.Inv → addr.toNat + cnt.toNat ≤ 2 ^ 64 → n < cnt.toNat →
    ((∀ j, j < n → s.hostAdmits (addr.toNat + j) .read = true) → s.hostAdmits (addr.toNat + n) .read = false →
      ∃ b, b.wait = .hostRead (addr.toNat + n) ∧ b.done = n ∧
        exec (.writeMem ra addr cnt) s = .next { s with phase := .busy b }) ∧
    (cnt.toNat ≤ c.used → (∀ j, j < n → s.hostAdmits (addr.toNat + j) .write = true) →
      s.hostAdmits (addr.toNat + n) .write = false →
      ∃ (b : Busy) (m : Memory), b.wait = .hostWrite (addr.toNat + n) ∧ b.done = n ∧
        exec (.readMem ra addr cnt) s = .next { s with hostMem := m, phase := .busy b } ∧
        (∀ i, i < n → c.logicalByte i = some (m.hostByte (addr.toNat + i))) ∧
        (∀ a, (a < addr.toNat ∨ addr.toNat + n ≤ a) → m.hostByte a = s.memRead a))

/-- R275, R116: an instruction whose own fields fail a check is answered with ILLEGAL, and nothing else changes. -/
def Obligations.IllFormedInstructionsAreIllegal : Prop :=
  ∀ (i : Instr) (s : State), i.wellFormed s.rings.length = false →
    exec i s = .next { s with phase := .resp (packResponse .illegal 0 false) }

/-- R270, R290, R291: from every state with the invariant, a command whose device keeps its contract ends in a response,
or waits in phase BUSY for an access that is not admitted or an answer that never comes; no storage cell without a value
is read, and nothing else stops it. -/
def Obligations.EveryCommandIsAnsweredOrWaits : Prop :=
  ∀ (i : Instr) (s : State), s.Inv → deviceKeeps i s →
    ∃ t, exec i s = .next t ∧
      ((∃ q, t.phase = .resp q) ∨
       (∃ b, t.phase = .busy b ∧ b.instr = i ∧
        ((∃ a, b.wait = .hostRead a ∧ s.hostAdmits a .read = false) ∨
         (∃ a, b.wait = .hostWrite a ∧ s.hostAdmits a .write = false) ∨
         (∃ dh len, b.wait = .device (.read dh len) ∧ s.readAnswers.head?.join = none) ∨
         (∃ dh bytes, b.wait = .device (.write dh bytes) ∧ s.writeAnswers.head?.join = none))))

/-- R81: a device that breaks its contract has no step (log 5): the fault `deviceContract`. -/
def Obligations.ADeviceThatBreaksItsContractStops : Prop :=
  ∀ (s : State) (ra : RingId) (dh : Handle) (cnt : Count) (c : Ring),
    s.rings[ra.toNat]? = some c → c.live = true → c.Inv → 1 ≤ cnt.toNat →
    (∀ a rest, s.readAnswers = some a :: rest → (min cnt.toNat (c.size - c.head.toNat) : Nat) < a.n.toInt →
      exec (.readFd ra dh cnt) s = .fault .deviceContract) ∧
    (∀ n rest, s.writeAnswers = some n :: rest → cnt.toNat ≤ c.used →
      (min cnt.toNat (c.size - c.tail.toNat) : Nat) < n.toInt →
      exec (.writeFd ra dh cnt) s = .fault .deviceContract)

/-- R74: a byte the host stores, in whatever phase, is what a read of it returns, and no other byte changes, nor anything
else but the host's remaining actions. -/
def Obligations.HostMemoryReturnsTheLastByteStored : Prop :=
  ∀ (s : State) (a : HostAddr) (v : Byte) (rest : List HostInput), s.inputs = .store a v :: rest →
    ∃ m : Memory, step s = .next { s with inputs := rest, hostMem := m } ∧
      ∀ b, m.hostByte b = if b = a.toNat then v else s.memRead b

/-- R90, log 9: host stores while a command other than WRITE_MEM is BUSY, a READ_MEM of the bytes they go to among them,
change nothing of it: contexts, response or wait, and the device are as without them. Each host byte is as the command
leaves it or one that the host stores there, and outside the span of a READ_MEM it is what the stores leave. -/
def Obligations.RacingStoresTouchHostMemoryAlone : Prop :=
  ∀ (s t : State) (w : CmdWord) (rest : List HostInput) (stores : List (HostAddr × Byte)) (i : Instr),
    s.Inv → s.rst = false → s.phase = .idle → s.inputs = .raced w stores :: rest →
    decode s.rings.length w = .ok i → (∀ ra addr cnt, i ≠ .writeMem ra addr cnt) → step s = .next t →
    ∃ u, exec i (s.accept rest) = .next u ∧ t.rings = u.rings ∧ t.phase = u.phase ∧ t.requests = u.requests ∧
      t.readAnswers = u.readAnswers ∧ t.writeAnswers = u.writeAnswers ∧
      (∀ a, t.memRead a = u.memRead a ∨ ∃ p ∈ stores, p.1.toNat = a ∧ t.memRead a = p.2) ∧
      ∀ a, (∀ ra addr cnt, i = .readMem ra addr cnt → a < addr.toNat ∨ addr.toNat + cnt.toNat ≤ a) →
        t.memRead a = (s.hostStores stores).memRead a

/-- R85: byte `k` of a response word that a byte bus carries is its bits `[8k+7:8k]`, and the bytes give the word back. -/
def Obligations.ResponseBytesAreLittleEndian : Prop :=
  ∀ q : RspWord, (rspBytes q).length = 9 ∧ (∀ k, k < 9 → (rspBytes q)[k]? = some (q.extractLsb' (8 * k) 8)) ∧
    BitVec.ofNat 72 (bytesToNat (rspBytes q)) = q

/-- R301, R81: hardware reset abandons a command from every state with the invariant, whatever results the device has to
come. Only where the device returned its result before the cut (log 8), and that breaks its contract, there is no step, as
there is none of the command without the cut (the model's fault `deviceContract`, log 5). -/
def Obligations.ACutCommandStopsOnlyOnAReturnedResult : Prop :=
  ∀ (s : State) (w : CmdWord) (rest : List HostInput), s.Inv → s.rst = false → s.phase = .idle →
    s.inputs = .cut w :: rest →
    (∃ t, step s = .next t ∧ t.phase = .idle ∧ t.rst = true) ∨
    (Config.cutAnswered s.draws = true ∧ step s = .fault .deviceContract ∧
      issue w (s.accept rest) = .fault .deviceContract)
end

