-- ==== Sys2Proof/Laws/Memory.lean ====
section
/-! SUPPORT. Reading after writing, and the canonical form of memories. -/

namespace Sys2Proof.Machine.Memory

/-- One write, read anywhere. -/
theorem read?_write (m : Memory) (a : Nat) (v : Byte) (b : Nat) :
    (m.write a v).read? b = if b = a then some v else m.read? b := by
  induction m with
  | nil => simp [Memory.write, Memory.read?]
  | cons p m ih =>
    obtain ⟨k, w⟩ := p
    unfold Memory.write
    split
    · simp only [Memory.read?]
    · split
      · subst_vars
        simp only [Memory.read?]
        split <;> rfl
      · rename_i hk hne
        simp only [Memory.read?, ih]
        by_cases hbk : b = k
        · have : b ≠ a := by omega
          simp [hbk, show k ≠ a by omega]
        · simp [hbk]

@[simp] theorem read?_write_same (m : Memory) (a : Nat) (v : Byte) : (m.write a v).read? a = some v := by
  simp [read?_write]

theorem read?_write_other (m : Memory) {a b : Nat} (v : Byte) (h : b ≠ a) : (m.write a v).read? b = m.read? b := by
  simp [read?_write, h]

/-- A span of writes, read anywhere. -/
theorem read?_writeSpan (m : Memory) (a : Nat) (bs : List Byte) (b : Nat) :
    (m.writeSpan a bs).read? b = if a ≤ b ∧ b < a + bs.length then bs[b - a]? else m.read? b := by
  induction bs generalizing m a with
  | nil => simp [Memory.writeSpan, show ¬ (a ≤ b ∧ b < a) by omega]
  | cons v bs ih =>
    simp only [Memory.writeSpan, ih, read?_write, List.length_cons]
    by_cases h1 : b = a
    · subst h1; simp
    · by_cases h2 : a + 1 ≤ b ∧ b < a + 1 + bs.length
      · rw [if_pos h2, if_pos (by omega), show b - a = (b - (a + 1)) + 1 by omega, List.getElem?_cons_succ]
      · rw [if_neg h2, if_neg h1, if_neg (by omega)]

theorem writeSpan_append (m : Memory) (a : Nat) (bs cs : List Byte) :
    m.writeSpan a (bs ++ cs) = (m.writeSpan a bs).writeSpan (a + bs.length) cs := by
  induction bs generalizing m a with
  | nil => rfl
  | cons b bs ih => simp [Memory.writeSpan, ih, Nat.add_assoc, Nat.add_comm 1]

/-- The addresses a write leaves listed. -/
theorem mem_write {m : Memory} {a : Nat} {v : Byte} {p : Host.Cell} (h : p ∈ m.write a v) : p = (a, v) ∨ p ∈ m := by
  induction m with
  | nil => simp [Memory.write] at h; exact .inl h
  | cons q m ih =>
    obtain ⟨k, w⟩ := q
    unfold Memory.write at h
    split at h
    · simpa using h
    · split at h
      · rcases List.mem_cons.1 h with h | h
        · exact .inl h
        · exact .inr (List.mem_cons_of_mem _ h)
      · rcases List.mem_cons.1 h with h | h
        · exact .inr (by simp [h])
        · rcases ih h with h | h
          · exact .inl h
          · exact .inr (List.mem_cons_of_mem _ h)

/-- A write keeps the canonical form. -/
theorem write_wf {m : Memory} (a : Nat) (v : Byte) (h : m.wf) : (m.write a v).wf := by
  induction m with
  | nil => simp [Memory.write, Memory.wf]
  | cons p m ih =>
    obtain ⟨k, w⟩ := p
    have hm := List.pairwise_cons.1 h
    unfold Memory.write
    split
    · rename_i hlt
      refine List.pairwise_cons.2 ⟨?_, h⟩
      intro q hq
      rcases List.mem_cons.1 hq with rfl | hq
      · exact hlt
      · exact Nat.lt_trans hlt (hm.1 q hq)
    · split
      · rename_i _ heq
        subst heq
        exact List.pairwise_cons.2 ⟨fun q hq => hm.1 q hq, hm.2⟩
      · refine List.pairwise_cons.2 ⟨?_, ih hm.2⟩
        intro q hq
        rcases mem_write hq with rfl | hq
        · show k < a; omega
        · exact hm.1 q hq

theorem writeSpan_wf {m : Memory} (a : Nat) (bs : List Byte) (h : m.wf) : (m.writeSpan a bs).wf := by
  induction bs generalizing m a with
  | nil => exact h
  | cons b bs ih => exact ih (a + 1) (write_wf a b h)

/-- Every address that a span of writes leaves listed was listed before or lies in the span. -/
theorem mem_writeSpan {m : Memory} {a : Nat} {bs : List Byte} {p : Host.Cell} (h : p ∈ m.writeSpan a bs) :
    p ∈ m ∨ (a ≤ p.1 ∧ p.1 < a + bs.length) := by
  induction bs generalizing m a with
  | nil => exact .inl h
  | cons b bs ih =>
    rcases ih h with h | h
    · rcases mem_write h with rfl | h
      · right; simp
      · exact .inl h
    · right; simp only [List.length_cons]; omega

/-- A span that is read has a byte at every place, and these are the bytes of the result. -/
theorem readSpan_eq_some {m : Memory} {a n : Nat} {bs : List Byte} :
    m.readSpan a n = some bs ↔ bs.length = n ∧ ∀ j, j < n → m.read? (a + j) = bs[j]? := by
  induction n generalizing a bs with
  | zero =>
    constructor
    · intro h; simp [Memory.readSpan] at h; subst h; simp
    · rintro ⟨h, -⟩; simp [Memory.readSpan, List.length_eq_zero_iff.1 h]
  | succ n ih =>
    simp only [Memory.readSpan]
    cases hr : m.read? a with
    | none =>
      simp only [reduceCtorEq, false_iff, not_and, not_forall]
      intro hl
      exact ⟨0, by omega, by simp [hr, List.getElem?_eq_getElem (show 0 < bs.length by omega)]⟩
    | some b =>
      cases bs with
      | nil => simp
      | cons c bs =>
        simp only [Option.map_eq_some_iff, List.cons.injEq, List.length_cons, Nat.add_right_cancel_iff]
        constructor
        · rintro ⟨cs, hcs, rfl, rfl⟩
          obtain ⟨hl, hj⟩ := ih.1 hcs
          refine ⟨hl, ?_⟩
          intro j hj'
          cases j with
          | zero => simpa using hr
          | succ j => simpa [Nat.add_assoc, Nat.add_comm 1] using hj j (by omega)
        · rintro ⟨hl, hj⟩
          refine ⟨bs, ih.2 ⟨hl, ?_⟩, ?_, rfl⟩
          · intro j hj'
            simpa [Nat.add_assoc, Nat.add_comm 1] using hj (j + 1) (by omega)
          · have := hj 0 (by omega)
            simp [hr] at this
            exact this

/-- A span can be read exactly where every cell of it holds a value. -/
theorem readSpan_isSome {m : Memory} {a n : Nat} :
    (m.readSpan a n).isSome = true ↔ ∀ j, j < n → m.read? (a + j) ≠ none := by
  induction n generalizing a with
  | zero => simp [Memory.readSpan]
  | succ n ih =>
    simp only [Memory.readSpan]
    cases hr : m.read? a with
    | none =>
      simp only [Option.isSome_none, Bool.false_eq_true, false_iff, not_forall]
      exact ⟨0, by omega, by simpa using hr⟩
    | some b =>
      simp only [Option.isSome_map, ih]
      constructor
      · intro h j hj
        cases j with
        | zero => simp [hr]
        | succ j => simpa [Nat.add_assoc, Nat.add_comm 1] using h j (by omega)
      · intro h j hj
        simpa [Nat.add_assoc, Nat.add_comm 1] using h (j + 1) (by omega)

/-- Host memory read after one write (R74). -/
theorem hostByte_write (m : Memory) (a : Nat) (v : Byte) (b : Nat) :
    (m.write a v).hostByte b = if b = a then v else m.hostByte b := by
  simp only [Memory.hostByte, read?_write]
  split <;> rfl

/-- Host memory right after reset, and the storage of a context right after reset, are in canonical form. -/
theorem reset_wf : State.reset.hostMem.wf ∧ ∀ n, (Ring.afterReset n).sto.wf :=
  ⟨List.Pairwise.nil, fun _ => List.Pairwise.nil⟩

end Sys2Proof.Machine.Memory
end

