-- ==== Sys2Proof/Laws/State.lean ====
section
/-! SUPPORT. What each update of State and of a context leaves in each field. -/

namespace Sys2Proof.Machine

namespace State

variable (s : State)

@[simp] theorem setRing_rings (ra : RingId) (c : Ring) : (s.setRing ra c).rings = s.rings.set ra.toNat c := rfl
@[simp] theorem setRing_phase (ra : RingId) (c : Ring) : (s.setRing ra c).phase = s.phase := rfl
@[simp] theorem setRing_rst (ra : RingId) (c : Ring) : (s.setRing ra c).rst = s.rst := rfl
@[simp] theorem setRing_hostMem (ra : RingId) (c : Ring) : (s.setRing ra c).hostMem = s.hostMem := rfl
@[simp] theorem setRing_holes (ra : RingId) (c : Ring) : (s.setRing ra c).holes = s.holes := rfl
@[simp] theorem setRing_readAnswers (ra : RingId) (c : Ring) : (s.setRing ra c).readAnswers = s.readAnswers := rfl
@[simp] theorem setRing_writeAnswers (ra : RingId) (c : Ring) : (s.setRing ra c).writeAnswers = s.writeAnswers := rfl
@[simp] theorem setRing_requests (ra : RingId) (c : Ring) : (s.setRing ra c).requests = s.requests := rfl
@[simp] theorem setRing_inputs (ra : RingId) (c : Ring) : (s.setRing ra c).inputs = s.inputs := rfl
@[simp] theorem setRing_index (ra : RingId) (c : Ring) : (s.setRing ra c).index = s.index := rfl
@[simp] theorem setRing_taken (ra : RingId) (c : Ring) : (s.setRing ra c).taken = s.taken := rfl
@[simp] theorem setRing_draws (ra : RingId) (c : Ring) : (s.setRing ra c).draws = s.draws := rfl

variable (st : Status) (v : Int) (ovf : Bool)

@[simp] theorem respond_rings : (s.respond st v ovf).rings = s.rings := rfl
@[simp] theorem respond_phase : (s.respond st v ovf).phase = .resp (packResponse st v ovf) := rfl
@[simp] theorem respond_rst : (s.respond st v ovf).rst = s.rst := rfl
@[simp] theorem respond_hostMem : (s.respond st v ovf).hostMem = s.hostMem := rfl
@[simp] theorem respond_holes : (s.respond st v ovf).holes = s.holes := rfl
@[simp] theorem respond_readAnswers : (s.respond st v ovf).readAnswers = s.readAnswers := rfl
@[simp] theorem respond_writeAnswers : (s.respond st v ovf).writeAnswers = s.writeAnswers := rfl
@[simp] theorem respond_requests : (s.respond st v ovf).requests = s.requests := rfl
@[simp] theorem respond_inputs : (s.respond st v ovf).inputs = s.inputs := rfl
@[simp] theorem respond_index : (s.respond st v ovf).index = s.index := rfl
@[simp] theorem respond_taken : (s.respond st v ovf).taken = s.taken := rfl
@[simp] theorem respond_draws : (s.respond st v ovf).draws = s.draws := rfl
@[simp] theorem respond_response : (s.respond st v ovf).response = some (packResponse st v ovf) := rfl

theorem raiseIllegal_eq (r : IllegalReason) : s.raiseIllegal r = s.respond .illegal 0 false := rfl
theorem raiseUnderflow_eq : s.raiseUnderflow = s.respond .underflow 0 false := rfl
theorem raiseAllocFail_eq : s.raiseAllocFail = s.respond .allocFail 0 false := rfl

variable (b : Busy)

@[simp] theorem stall_rings : (s.stall b).rings = s.rings := rfl
@[simp] theorem stall_phase : (s.stall b).phase = .busy b := rfl
@[simp] theorem stall_rst : (s.stall b).rst = s.rst := rfl
@[simp] theorem stall_hostMem : (s.stall b).hostMem = s.hostMem := rfl
@[simp] theorem stall_holes : (s.stall b).holes = s.holes := rfl
@[simp] theorem stall_readAnswers : (s.stall b).readAnswers = s.readAnswers := rfl
@[simp] theorem stall_writeAnswers : (s.stall b).writeAnswers = s.writeAnswers := rfl
@[simp] theorem stall_requests : (s.stall b).requests = s.requests := rfl
@[simp] theorem stall_inputs : (s.stall b).inputs = s.inputs := rfl
@[simp] theorem stall_index : (s.stall b).index = s.index := rfl
@[simp] theorem stall_taken : (s.stall b).taken = s.taken := rfl
@[simp] theorem stall_draws : (s.stall b).draws = s.draws := rfl
@[simp] theorem stall_response : (s.stall b).response = none := rfl

@[simp] theorem hardwareReset_rings :
    s.hardwareReset.rings = s.rings.map (fun c => Ring.afterReset c.maxCap) := rfl
@[simp] theorem hardwareReset_phase : s.hardwareReset.phase = .idle := rfl
@[simp] theorem hardwareReset_rst : s.hardwareReset.rst = true := rfl
@[simp] theorem hardwareReset_hostMem : s.hardwareReset.hostMem = s.hostMem := rfl
@[simp] theorem hardwareReset_holes : s.hardwareReset.holes = s.holes := rfl
@[simp] theorem hardwareReset_requests : s.hardwareReset.requests = s.requests := rfl
@[simp] theorem hardwareReset_inputs : s.hardwareReset.inputs = s.inputs := rfl
@[simp] theorem hardwareReset_index : s.hardwareReset.index = s.index := rfl
@[simp] theorem hardwareReset_taken : s.hardwareReset.taken = s.taken := rfl
@[simp] theorem hardwareReset_response : s.hardwareReset.response = none := rfl

@[simp] theorem silenced_rings : s.silenced.rings = s.rings := rfl
@[simp] theorem silenced_phase : s.silenced.phase = s.phase := rfl
@[simp] theorem silenced_rst : s.silenced.rst = s.rst := rfl
@[simp] theorem silenced_hostMem : s.silenced.hostMem = s.hostMem := rfl
@[simp] theorem silenced_holes : s.silenced.holes = s.holes := rfl
@[simp] theorem silenced_readAnswers : s.silenced.readAnswers = [] := rfl
@[simp] theorem silenced_writeAnswers : s.silenced.writeAnswers = [] := rfl
@[simp] theorem silenced_requests : s.silenced.requests = s.requests := rfl
@[simp] theorem silenced_inputs : s.silenced.inputs = s.inputs := rfl
@[simp] theorem silenced_index : s.silenced.index = s.index := rfl
@[simp] theorem silenced_taken : s.silenced.taken = s.taken := rfl
@[simp] theorem silenced_draws : s.silenced.draws = s.draws := rfl

@[simp] theorem hostStore_rings (a : HostAddr) (v : Byte) : (s.hostStore a v).rings = s.rings := rfl
@[simp] theorem hostStore_phase (a : HostAddr) (v : Byte) : (s.hostStore a v).phase = s.phase := rfl
@[simp] theorem hostStore_rst (a : HostAddr) (v : Byte) : (s.hostStore a v).rst = s.rst := rfl
@[simp] theorem hostStore_hostMem (a : HostAddr) (v : Byte) :
    (s.hostStore a v).hostMem = s.hostMem.write a.toNat v := rfl
@[simp] theorem hostStore_holes (a : HostAddr) (v : Byte) : (s.hostStore a v).holes = s.holes := rfl
@[simp] theorem hostStore_taken (a : HostAddr) (v : Byte) : (s.hostStore a v).taken = s.taken := rfl
@[simp] theorem hostStore_inputs (a : HostAddr) (v : Byte) : (s.hostStore a v).inputs = s.inputs := rfl
@[simp] theorem hostStore_index (a : HostAddr) (v : Byte) : (s.hostStore a v).index = s.index := rfl
@[simp] theorem hostStore_requests (a : HostAddr) (v : Byte) : (s.hostStore a v).requests = s.requests := rfl
@[simp] theorem hostStore_draws (a : HostAddr) (v : Byte) : (s.hostStore a v).draws = s.draws := rfl

/-- A run of host stores changes host memory alone. -/
theorem hostStores_only_hostMem (stores : List (HostAddr × Byte)) :
    s.hostStores stores = { s with hostMem := (s.hostStores stores).hostMem } := by
  induction stores generalizing s with
  | nil => rfl
  | cons p rest ih =>
    obtain ⟨a, v⟩ := p
    have h := ih (s.hostStore a v)
    simp only [hostStores]
    rw [h]
    rfl

@[simp] theorem take_rings (q : RspWord) : (s.take q).rings = s.rings := rfl
@[simp] theorem take_phase (q : RspWord) : (s.take q).phase = .idle := rfl
@[simp] theorem take_rst (q : RspWord) : (s.take q).rst = s.rst := rfl
@[simp] theorem take_hostMem (q : RspWord) : (s.take q).hostMem = s.hostMem := rfl
@[simp] theorem take_inputs (q : RspWord) : (s.take q).inputs = s.inputs := rfl
@[simp] theorem take_taken (q : RspWord) : (s.take q).taken = s.taken ++ [q] := rfl
@[simp] theorem take_response (q : RspWord) : (s.take q).response = none := rfl

@[simp] theorem accept_rings (rest : List HostInput) : (s.accept rest).rings = s.rings := rfl
@[simp] theorem accept_phase (rest : List HostInput) : (s.accept rest).phase = s.phase := rfl
@[simp] theorem accept_rst (rest : List HostInput) : (s.accept rest).rst = s.rst := rfl
@[simp] theorem accept_hostMem (rest : List HostInput) : (s.accept rest).hostMem = s.hostMem := rfl
@[simp] theorem accept_holes (rest : List HostInput) : (s.accept rest).holes = s.holes := rfl
@[simp] theorem accept_readAnswers (rest : List HostInput) : (s.accept rest).readAnswers = s.readAnswers := rfl
@[simp] theorem accept_writeAnswers (rest : List HostInput) : (s.accept rest).writeAnswers = s.writeAnswers := rfl
@[simp] theorem accept_requests (rest : List HostInput) : (s.accept rest).requests = s.requests := rfl
@[simp] theorem accept_inputs (rest : List HostInput) : (s.accept rest).inputs = rest := rfl
@[simp] theorem accept_index (rest : List HostInput) : (s.accept rest).index = s.index + 1 := rfl
@[simp] theorem accept_taken (rest : List HostInput) : (s.accept rest).taken = s.taken := rfl
@[simp] theorem accept_draws (rest : List HostInput) : (s.accept rest).draws = s.draws := rfl

/-- `hostAdmits` and the counts of admitted accesses depend on the holes alone. -/
theorem admitted_congr {s t : State} (h : s.holes = t.holes) (dir : Dir) (a n : Nat) :
    s.admitted dir a n = t.admitted dir a n := by simp only [State.admitted, h]

end State

namespace Ring

variable (c : Ring) (k : Nat)

@[simp] theorem advanceHead_maxCap : (c.advanceHead k).maxCap = c.maxCap := rfl
@[simp] theorem advanceHead_live : (c.advanceHead k).live = c.live := rfl
@[simp] theorem advanceHead_cap : (c.advanceHead k).cap = c.cap := rfl
@[simp] theorem advanceHead_tail : (c.advanceHead k).tail = c.tail := rfl
@[simp] theorem advanceHead_sto : (c.advanceHead k).sto = c.sto := rfl
@[simp] theorem advanceTail_maxCap : (c.advanceTail k).maxCap = c.maxCap := rfl
@[simp] theorem advanceTail_live : (c.advanceTail k).live = c.live := rfl
@[simp] theorem advanceTail_cap : (c.advanceTail k).cap = c.cap := rfl
@[simp] theorem advanceTail_head : (c.advanceTail k).head = c.head := rfl
@[simp] theorem advanceTail_sto : (c.advanceTail k).sto = c.sto := rfl
@[simp] theorem advanceTail_size : (c.advanceTail k).size = c.size := rfl
@[simp] theorem advanceTailPast_maxCap : c.advanceTailPast.maxCap = c.maxCap := rfl
@[simp] theorem advanceTailPast_live : c.advanceTailPast.live = c.live := rfl
@[simp] theorem advanceTailPast_cap : c.advanceTailPast.cap = c.cap := rfl
@[simp] theorem advanceTailPast_head : c.advanceTailPast.head = c.head := rfl
@[simp] theorem advanceTailPast_sto : c.advanceTailPast.sto = c.sto := rfl
@[simp] theorem putSpan_maxCap (bs : List Byte) : (c.putSpan bs).maxCap = c.maxCap := rfl
@[simp] theorem putSpan_live (bs : List Byte) : (c.putSpan bs).live = c.live := rfl
@[simp] theorem putSpan_cap (bs : List Byte) : (c.putSpan bs).cap = c.cap := rfl
@[simp] theorem putSpan_tail (bs : List Byte) : (c.putSpan bs).tail = c.tail := rfl
@[simp] theorem putSpan_sto (bs : List Byte) : (c.putSpan bs).sto = c.sto.writeSpan c.head.toNat bs := rfl
@[simp] theorem putSpan_size (bs : List Byte) : (c.putSpan bs).size = c.size := rfl
@[simp] theorem fixup_true : c.fixup true = c.advanceTailPast := rfl
@[simp] theorem fixup_false : c.fixup false = c := rfl
@[simp] theorem fixup_maxCap (b : Bool) : (c.fixup b).maxCap = c.maxCap := by cases b <;> rfl
@[simp] theorem fixup_live (b : Bool) : (c.fixup b).live = c.live := by cases b <;> rfl
@[simp] theorem fixup_cap (b : Bool) : (c.fixup b).cap = c.cap := by cases b <;> rfl
@[simp] theorem fixup_head (b : Bool) : (c.fixup b).head = c.head := by cases b <;> rfl
@[simp] theorem fixup_sto (b : Bool) : (c.fixup b).sto = c.sto := by cases b <;> rfl
@[simp] theorem fixup_size (b : Bool) : (c.fixup b).size = c.size := by cases b <;> rfl

end Ring

end Sys2Proof.Machine
end

