-- ==== Sys2Proof/Laws/Ring.lean ====
section
/-! SUPPORT. The arithmetic of one context: occupancy, cursors and their moves (10_state.md R33-R46). -/

namespace Sys2Proof.Machine.Ring

variable (c : Ring)

theorem size_def : c.size = c.cap.toNat + 1 := rfl

theorem size_pos : 0 < c.size := by simp [size_def]

theorem size_le : c.size ≤ 2 ^ 32 := by
  have := c.cap.isLt
  simp only [size_def]
  omega

/-- Remainder of a sum below twice the modulus. -/
theorem mod_of_lt_two_mul {a S : Nat} (h : a < 2 * S) : a % S = if a < S then a else a - S := by
  split
  · exact Nat.mod_eq_of_lt ‹_›
  · rw [Nat.mod_eq_sub_mod (by omega), Nat.mod_eq_of_lt (by omega)]

variable {c}

/-- R41: the used bytes are the distance from TAIL to HEAD, circularly. -/
theorem used_eq_mod (hh : c.head.toNat < c.size) (ht : c.tail.toNat < c.size) :
    c.used = (c.head.toNat + c.size - c.tail.toNat) % c.size := by
  have hs := c.size_def
  rw [mod_of_lt_two_mul (by omega)]
  unfold used free
  split <;> split <;> omega

theorem used_add_free (hh : c.head.toNat < c.size) (ht : c.tail.toNat < c.size) : c.used + c.free = c.cap.toNat := by
  have hs := c.size_def
  unfold used free
  split <;> omega

theorem used_le_cap : c.used ≤ c.cap.toNat := Nat.sub_le ..

theorem used_lt_size : c.used < c.size := Nat.lt_succ_of_le used_le_cap

/-- R46, first half. -/
theorem isEmpty_iff (hh : c.head.toNat < c.size) (ht : c.tail.toNat < c.size) :
    c.isEmpty = true ↔ c.head = c.tail := by
  have hs := c.size_def
  rw [BitVec.toNat_eq, isEmpty, decide_eq_true_eq]
  unfold free
  split <;> omega

theorem nextp_eq_mod {p : Nat} (h : p < c.size) : c.nextp p = (p + 1) % c.size := by
  unfold nextp
  split
  · rename_i h1; rw [h1, Nat.mod_self]
  · rw [Nat.mod_eq_of_lt (by omega)]

theorem nextp_lt {p : Nat} (h : p < c.size) : c.nextp p < c.size := by
  rw [nextp_eq_mod h]; exact Nat.mod_lt _ c.size_pos

/-- R46, second half. -/
theorem isFull_iff (hh : c.head.toNat < c.size) (ht : c.tail.toNat < c.size) :
    c.isFull = true ↔ c.tail.toNat = c.nextp c.head.toNat := by
  have hs := c.size_def
  rw [isFull, decide_eq_true_eq]
  unfold free nextp
  split <;> split <;> omega

/-- A cursor below the storage end fits its register. -/
theorem toNat_cursor {p : Nat} (h : p < c.size) : (BitVec.ofNat 32 p).toNat = p := by
  have := c.size_le
  simp only [BitVec.toNat_ofNat]
  exact Nat.mod_eq_of_lt (by omega)

/-- A span that stays inside the storage moves a cursor on modulo the buffer size. -/
theorem wrapAt_eq_mod {p : Nat} (hp : p ≤ c.size) : wrapAt c.size p = p % c.size := by
  unfold wrapAt
  split
  · rename_i h; rw [h, Nat.mod_self]
  · rw [Nat.mod_eq_of_lt (by omega)]

theorem advanceHead_toNat {k : Nat} (hk : c.head.toNat + k ≤ c.size) :
    (c.advanceHead k).head.toNat = (c.head.toNat + k) % c.size := by
  have h := Nat.mod_lt (c.head.toNat + k) c.size_pos
  simp only [advanceHead, wrapAt_eq_mod hk]
  exact toNat_cursor h

theorem advanceTail_toNat {k : Nat} (hk : c.tail.toNat + k ≤ c.size) :
    (c.advanceTail k).tail.toNat = (c.tail.toNat + k) % c.size := by
  have h := Nat.mod_lt (c.tail.toNat + k) c.size_pos
  simp only [advanceTail, wrapAt_eq_mod hk]
  exact toNat_cursor h

theorem putSpan_head_toNat {bs : List Byte} (hk : c.head.toNat + bs.length ≤ c.size) :
    (c.putSpan bs).head.toNat = (c.head.toNat + bs.length) % c.size :=
  advanceHead_toNat (c := { c with sto := c.sto.writeSpan c.head.toNat bs }) hk

theorem advanceTailPast_tail_toNat (hh : c.head.toNat < c.size) :
    c.advanceTailPast.tail.toNat = (c.head.toNat + 1) % c.size := by
  simp only [advanceTailPast, nextp_eq_mod hh]
  exact toNat_cursor (Nat.mod_lt _ c.size_pos)

/-- The fixup leaves the context full (R180). -/
theorem advanceTailPast_isFull (hh : c.head.toNat < c.size) : c.advanceTailPast.isFull = true := by
  have ht : c.advanceTailPast.tail.toNat < c.size := by
    rw [advanceTailPast_tail_toNat hh]; exact Nat.mod_lt _ c.size_pos
  rw [isFull_iff (c := c.advanceTailPast) hh ht, advanceTailPast_tail_toNat hh]
  exact (nextp_eq_mod (c := c.advanceTailPast) hh).symm

theorem length_sourceSpan (src : Nat → Byte) (start n : Nat) : (sourceSpan src start n).length = n := by
  induction n generalizing start with
  | zero => rfl
  | succ n ih => simp [sourceSpan, ih]

theorem getElem?_sourceSpan (src : Nat → Byte) (start n i : Nat) :
    (sourceSpan src start n)[i]? = if i < n then some (src (start + i)) else none := by
  induction n generalizing start i with
  | zero => simp [sourceSpan]
  | succ n ih =>
    cases i with
    | zero => simp [sourceSpan]
    | succ i => simp [sourceSpan, ih, Nat.add_assoc, Nat.add_comm 1]

theorem sourceSpan_append (src : Nat → Byte) (start n k : Nat) :
    sourceSpan src start n ++ sourceSpan src (start + n) k = sourceSpan src start (n + k) := by
  induction n generalizing start with
  | zero => simp [sourceSpan]
  | succ n ih =>
    rw [show n + 1 + k = (n + k) + 1 by omega]
    simp [sourceSpan, ← ih, Nat.add_assoc, Nat.add_comm 1]

end Sys2Proof.Machine.Ring
end

