-- ==== Sys2Proof/Laws/Spans.lean ====
section
/-! SUPPORT. What the span loops come to: each is the same as moving one byte after another, and so has the closed form
that 41_add_data.md R183, 42_remove_data.md R212, 43_copy.md R231 and 44_find.md R251 derive. -/

namespace Sys2Proof.Machine.Ring

/-! ## Adding bytes -/

/-- Bytes added at HEAD one at a time. -/
def pushAll (c : Ring) (bs : List Byte) : Ring := bs.foldl (fun c b => c.putSpan [b]) c

@[simp] theorem pushAll_nil (c : Ring) : c.pushAll [] = c := rfl

theorem pushAll_cons (c : Ring) (b : Byte) (bs : List Byte) : c.pushAll (b :: bs) = (c.putSpan [b]).pushAll bs := rfl

theorem pushAll_append (c : Ring) (bs cs : List Byte) : c.pushAll (bs ++ cs) = (c.pushAll bs).pushAll cs := by
  simp [pushAll, List.foldl_append]

theorem pushAll_keeps (c : Ring) (bs : List Byte) :
    (c.pushAll bs).maxCap = c.maxCap ∧ (c.pushAll bs).live = c.live ∧ (c.pushAll bs).cap = c.cap ∧
    (c.pushAll bs).tail = c.tail := by
  induction bs generalizing c with
  | nil => simp
  | cons b bs ih => simpa [pushAll_cons] using ih (c.putSpan [b])

@[simp] theorem pushAll_maxCap (c : Ring) (bs : List Byte) : (c.pushAll bs).maxCap = c.maxCap := (pushAll_keeps c bs).1
@[simp] theorem pushAll_live (c : Ring) (bs : List Byte) : (c.pushAll bs).live = c.live := (pushAll_keeps c bs).2.1
@[simp] theorem pushAll_cap (c : Ring) (bs : List Byte) : (c.pushAll bs).cap = c.cap := (pushAll_keeps c bs).2.2.1
@[simp] theorem pushAll_tail (c : Ring) (bs : List Byte) : (c.pushAll bs).tail = c.tail := (pushAll_keeps c bs).2.2.2
@[simp] theorem pushAll_size (c : Ring) (bs : List Byte) : (c.pushAll bs).size = c.size := by simp [size_def]

theorem pushAll_head_toNat (c : Ring) (bs : List Byte) (hh : c.head.toNat < c.size) :
    (c.pushAll bs).head.toNat = (c.head.toNat + bs.length) % c.size := by
  induction bs generalizing c with
  | nil => simpa using (Nat.mod_eq_of_lt hh).symm
  | cons b bs ih =>
    have h1 : (c.putSpan [b]).head.toNat = (c.head.toNat + 1) % c.size := by
      simpa using putSpan_head_toNat (c := c) (bs := [b]) (by simpa using hh)
    rw [pushAll_cons, ih _ (by rw [h1, putSpan_size]; exact Nat.mod_lt _ c.size_pos), h1, putSpan_size,
      Nat.mod_add_mod, List.length_cons]
    congr 1
    omega

theorem pushAll_head_lt (c : Ring) (bs : List Byte) (hh : c.head.toNat < c.size) :
    (c.pushAll bs).head.toNat < c.size := by
  rw [pushAll_head_toNat c bs hh]; exact Nat.mod_lt _ c.size_pos

/-- A cell that no byte lands in is as before. -/
theorem pushAll_read?_other (c : Ring) (bs : List Byte) (hh : c.head.toNat < c.size) (p : Nat)
    (hp : ∀ i, i < bs.length → (c.head.toNat + i) % c.size ≠ p) : (c.pushAll bs).sto.read? p = c.sto.read? p := by
  induction bs using List.reverseRecOn with
  | nil => rfl
  | append_singleton bs b ih =>
    rw [pushAll_append, pushAll_cons, pushAll_nil, putSpan_sto, Memory.writeSpan, Memory.writeSpan,
      Memory.read?_write_other]
    · exact ih fun i hi => hp i (by simp; omega)
    · rw [pushAll_head_toNat c bs hh]
      exact fun h => hp bs.length (by simp) h.symm

/-- A cell holds the last byte that lands in it. -/
theorem pushAll_read?_last (c : Ring) (bs : List Byte) (hh : c.head.toNat < c.size) {i : Nat} (hi : i < bs.length)
    (hlast : ∀ j, i < j → j < bs.length → (c.head.toNat + j) % c.size ≠ (c.head.toNat + i) % c.size) :
    (c.pushAll bs).sto.read? ((c.head.toNat + i) % c.size) = bs[i]? := by
  induction bs using List.reverseRecOn with
  | nil => simp at hi
  | append_singleton bs b ih =>
    rw [pushAll_append, pushAll_cons, pushAll_nil, putSpan_sto, Memory.writeSpan, Memory.writeSpan,
      Memory.read?_write, pushAll_head_toNat c bs hh]
    rcases Nat.lt_or_ge i bs.length with h | h
    · rw [if_neg (fun e => hlast bs.length h (by simp) e.symm), ih h, List.getElem?_append_left h]
      intro j hj hj'
      exact hlast j hj (by simp; omega)
    · have : i = bs.length := by simp at hi; omega
      subst this
      simp

/-- Two offsets that a storage round apart or less never share a cell. -/
theorem mod_ne_of_lt {S x y : Nat} (h1 : x < y) (h2 : y < x + S) : y % S ≠ x % S := by
  intro h
  have h3 : S ∣ y - x := (Nat.modEq_iff_dvd' (Nat.le_of_lt h1)).1 h.symm
  exact absurd (Nat.le_of_dvd (by omega) h3) (by omega)

/-- The last `S` bytes added are all there. -/
theorem pushAll_read?_recent (c : Ring) (bs : List Byte) (hh : c.head.toNat < c.size) {i : Nat} (hi : i < bs.length)
    (hr : bs.length ≤ i + c.size) : (c.pushAll bs).sto.read? ((c.head.toNat + i) % c.size) = bs[i]? :=
  pushAll_read?_last c bs hh hi fun j hj hj' => mod_ne_of_lt (by omega) (by omega)

theorem pushAll_sto_wf (c : Ring) (bs : List Byte) (h : c.sto.wf) : (c.pushAll bs).sto.wf := by
  induction bs generalizing c with
  | nil => exact h
  | cons b bs ih => exact ih _ (Memory.writeSpan_wf _ _ h)

theorem mem_pushAll_sto (c : Ring) (bs : List Byte) (hh : c.head.toNat < c.size) {p : Host.Cell}
    (h : p ∈ (c.pushAll bs).sto) : p ∈ c.sto ∨ p.1 < c.size := by
  induction bs using List.reverseRecOn with
  | nil => exact .inl h
  | append_singleton bs b ih =>
    rw [pushAll_append, pushAll_cons, pushAll_nil, putSpan_sto] at h
    rcases Memory.mem_writeSpan h with h | h
    · exact ih h
    · have := pushAll_head_lt c bs hh
      simp only [List.length_singleton] at h
      right; omega

/-- A span that fits before the storage end is its bytes one at a time. -/
theorem putSpan_eq_pushAll (c : Ring) (bs : List Byte) (hne : bs ≠ []) (hk : c.head.toNat + bs.length ≤ c.size) :
    c.putSpan bs = c.pushAll bs := by
  induction bs generalizing c with
  | nil => exact absurd rfl hne
  | cons b bs ih =>
    simp only [List.length_cons] at hk
    cases bs with
    | nil => rfl
    | cons b' bs =>
      have hlt : c.head.toNat + 1 < c.size := by simp only [List.length_cons] at hk; omega
      have h1 : (BitVec.ofNat 32 (c.head.toNat + 1)).toNat = c.head.toNat + 1 := toNat_cursor hlt
      have e : c.putSpan [b] =
          { c with sto := c.sto.write c.head.toNat b, head := BitVec.ofNat 32 (c.head.toNat + 1) } := by
        have hw : wrapAt c.size (c.head.toNat + 1) = c.head.toNat + 1 := if_neg (by omega)
        simp only [size] at hw
        simp only [putSpan, advanceHead, Memory.writeSpan, List.length_singleton, size, hw]
      rw [pushAll_cons, ← ih (c.putSpan [b]) (by simp) (by rw [putSpan_size, e, h1]; omega), e]
      simp only [putSpan, advanceHead, List.length_cons, Memory.writeSpan, h1, size,
        show c.head.toNat + (bs.length + 1 + 1) = c.head.toNat + 1 + (bs.length + 1) by omega]

/-- The span loop of WRITE_MEM and FILL adds the bytes one at a time. -/
theorem addSpans_eq_pushAll (src : Nat → Byte) (cnt : Nat) (fuel done : Nat) (c : Ring)
    (hh : c.head.toNat < c.size) (hd : done ≤ cnt) (hf : cnt ≤ done + fuel) :
    addSpans src cnt fuel done c = c.pushAll (sourceSpan src done (cnt - done)) := by
  induction fuel generalizing done c with
  | zero => simp [addSpans, show cnt - done = 0 by omega, sourceSpan]
  | succ fuel ih =>
    unfold addSpans
    split
    · rename_i h; simp [h, sourceSpan]
    · rename_i h
      dsimp only
      generalize hk : min (c.size - c.head.toNat) (cnt - done) = k
      have hk1 : 0 < k := by omega
      have hlen := length_sourceSpan src done k
      have hfit : c.head.toNat + (sourceSpan src done k).length ≤ c.size := by rw [hlen]; omega
      have hne : sourceSpan src done k ≠ [] := by
        intro h0; rw [h0] at hlen; simp at hlen; omega
      rw [ih (done + k) (c.putSpan (sourceSpan src done k))
          (by rw [putSpan_head_toNat hfit, putSpan_size]; exact Nat.mod_lt _ c.size_pos) (by omega) (by omega),
        putSpan_eq_pushAll c _ hne hfit, ← pushAll_append, sourceSpan_append]
      congr 2
      omega

/-! ## Reading the used region -/

/-- `n` bytes of the context from a logical offset on; none where a cell holds no value. -/
def logicalFrom (c : Ring) (i : Nat) : Nat → Option (List Byte)
  | 0 => some []
  | n + 1 =>
    match c.logicalByte i with
    | none => none
    | some b => (logicalFrom c (i + 1) n).map (b :: ·)

theorem logicalFrom_eq_some {c : Ring} {i n : Nat} {bs : List Byte} :
    c.logicalFrom i n = some bs ↔ bs.length = n ∧ ∀ j, j < n → c.logicalByte (i + j) = bs[j]? := by
  induction n generalizing i bs with
  | zero =>
    constructor
    · intro h; simp [logicalFrom] at h; subst h; simp
    · rintro ⟨h, -⟩; simp [logicalFrom, List.length_eq_zero_iff.1 h]
  | succ n ih =>
    simp only [logicalFrom]
    cases hr : c.logicalByte i with
    | none =>
      simp only [reduceCtorEq, false_iff, not_and, not_forall]
      intro hl
      exact ⟨0, by omega, by simp [hr, List.getElem?_eq_getElem (show 0 < bs.length by omega)]⟩
    | some b =>
      cases bs with
      | nil => simp
      | cons d bs =>
        simp only [Option.map_eq_some_iff, List.cons.injEq, List.length_cons, Nat.add_right_cancel_iff]
        constructor
        · rintro ⟨cs, hcs, rfl, rfl⟩
          obtain ⟨hl, hj⟩ := ih.1 hcs
          refine ⟨hl, ?_⟩
          intro j hj'
          cases j with
          | zero => simpa using hr
          | succ j => simpa [Nat.add_assoc, Nat.add_comm 1] using hj j (by omega)
        · rintro ⟨hl, hj⟩
          refine ⟨bs, ih.2 ⟨hl, ?_⟩, ?_, rfl⟩
          · intro j hj'
            simpa [Nat.add_assoc, Nat.add_comm 1] using hj (j + 1) (by omega)
          · have := hj 0 (by omega)
            simp [hr] at this
            exact this

theorem logicalFrom_isSome {c : Ring} {i n : Nat} (h : ∀ j, j < n → c.logicalByte (i + j) ≠ none) :
    ∃ bs, c.logicalFrom i n = some bs := by
  induction n generalizing i with
  | zero => exact ⟨[], rfl⟩
  | succ n ih =>
    obtain ⟨bs, hbs⟩ := ih (i := i + 1) fun j hj => by
      have := h (j + 1) (by omega)
      rwa [Nat.add_assoc, Nat.add_comm 1 j]
    have h0 := h 0 (by omega)
    obtain ⟨b, hb⟩ := Option.ne_none_iff_exists'.1 h0
    exact ⟨b :: bs, by rw [Nat.add_zero] at hb; simp [logicalFrom, hb, hbs]⟩

theorem logicalFrom_add (c : Ring) (i n k : Nat) :
    c.logicalFrom i (n + k) =
      (c.logicalFrom i n).bind fun bs => (c.logicalFrom (i + n) k).map (bs ++ ·) := by
  induction n generalizing i with
  | zero => simp [logicalFrom]
  | succ n ih =>
    rw [show n + 1 + k = (n + k) + 1 by omega]
    simp only [logicalFrom]
    cases c.logicalByte i with
    | none => rfl
    | some b =>
      simp only [ih, Nat.add_assoc, Nat.add_comm 1]
      cases c.logicalFrom (i + 1) n with
      | none => rfl
      | some bs =>
        simp only [Option.bind_some, Option.map_some]
        cases c.logicalFrom (i + (n + 1)) k <;> rfl

/-- A span from TAIL on inside the storage is a piece of the used region. -/
theorem getSpan_eq_logicalFrom (c : Ring) (k : Nat) (hk : c.tail.toNat + k ≤ c.size) :
    c.getSpan k = c.logicalFrom 0 k := by
  have key : ∀ n i, i + n = k → c.sto.readSpan (c.tail.toNat + i) n = c.logicalFrom i n := by
    intro n
    induction n with
    | zero => intro i _; rfl
    | succ n ih =>
      intro i hi
      simp only [Memory.readSpan, logicalFrom, logicalByte, Nat.mod_eq_of_lt (show c.tail.toNat + i < c.size by omega),
        Nat.add_assoc, ih (i + 1) (by omega)]
      all_goals cases c.sto.read? (c.tail.toNat + i) <;> rfl
  simpa [getSpan] using key k 0 (by omega)

/-- After TAIL has moved on, the bytes that were at a logical offset are nearer by as much. -/
theorem logicalByte_advanceTail (c : Ring) (k i : Nat) (hk : c.tail.toNat + k ≤ c.size) :
    (c.advanceTail k).logicalByte i = c.logicalByte (k + i) := by
  simp only [logicalByte, advanceTail_sto, advanceTail_size, advanceTail_toNat hk, Nat.mod_add_mod, Nat.add_assoc]

theorem logicalFrom_advanceTail (c : Ring) (k i n : Nat) (hk : c.tail.toNat + k ≤ c.size) :
    (c.advanceTail k).logicalFrom i n = c.logicalFrom (k + i) n := by
  induction n generalizing i with
  | zero => rfl
  | succ n ih => simp only [logicalFrom, logicalByte_advanceTail c k i hk, ih (i + 1), Nat.add_assoc]

/-- TAIL moved on modulo the buffer size by any number of bytes. -/
def dropBytes (c : Ring) (n : Nat) : Ring := { c with tail := BitVec.ofNat 32 ((c.tail.toNat + n) % c.size) }

@[simp] theorem dropBytes_maxCap (c : Ring) (n : Nat) : (c.dropBytes n).maxCap = c.maxCap := rfl
@[simp] theorem dropBytes_live (c : Ring) (n : Nat) : (c.dropBytes n).live = c.live := rfl
@[simp] theorem dropBytes_cap (c : Ring) (n : Nat) : (c.dropBytes n).cap = c.cap := rfl
@[simp] theorem dropBytes_head (c : Ring) (n : Nat) : (c.dropBytes n).head = c.head := rfl
@[simp] theorem dropBytes_sto (c : Ring) (n : Nat) : (c.dropBytes n).sto = c.sto := rfl
@[simp] theorem dropBytes_size (c : Ring) (n : Nat) : (c.dropBytes n).size = c.size := rfl

@[simp] theorem dropBytes_tail_toNat (c : Ring) (n : Nat) :
    (c.dropBytes n).tail.toNat = (c.tail.toNat + n) % c.size := toNat_cursor (Nat.mod_lt _ c.size_pos)

theorem dropBytes_zero (c : Ring) (ht : c.tail.toNat < c.size) : c.dropBytes 0 = c := by
  simp [dropBytes, Nat.mod_eq_of_lt ht]

theorem advanceTail_eq_dropBytes (c : Ring) (k : Nat) (hk : c.tail.toNat + k ≤ c.size) :
    c.advanceTail k = c.dropBytes k := by simp only [advanceTail, dropBytes, wrapAt_eq_mod hk]

theorem dropBytes_dropBytes (c : Ring) (k n : Nat) : (c.dropBytes k).dropBytes n = c.dropBytes (k + n) := by
  have h := dropBytes_tail_toNat c k
  simp only [dropBytes] at h ⊢
  simp only [size] at h ⊢
  rw [h, Nat.mod_add_mod, Nat.add_assoc]

theorem logicalByte_dropBytes (c : Ring) (k i : Nat) : (c.dropBytes k).logicalByte i = c.logicalByte (k + i) := by
  simp only [logicalByte, dropBytes_sto, dropBytes_size, dropBytes_tail_toNat, Nat.mod_add_mod, Nat.add_assoc]

/-! ## Removing, copying, searching -/

/-- The span loop of READ_MEM moves the first bytes of the used region to consecutive host addresses. -/
theorem takeSpans_eq (addr cnt : Nat) (fuel done : Nat) (c : Ring) (m : Memory)
    (ht : c.tail.toNat < c.size) (hd : done ≤ cnt) (hf : cnt ≤ done + fuel) :
    takeSpans addr cnt fuel done c m =
      (c.logicalFrom 0 (cnt - done)).map fun bs => (c.dropBytes (cnt - done), m.writeSpan (addr + done) bs) := by
  induction fuel generalizing done c m with
  | zero => simp [takeSpans, show cnt - done = 0 by omega, logicalFrom, Memory.writeSpan, dropBytes_zero c ht]
  | succ fuel ih =>
    unfold takeSpans
    split
    · rename_i h; simp [h, logicalFrom, Memory.writeSpan, dropBytes_zero c ht]
    · rename_i h
      dsimp only
      generalize hk : min (c.size - c.tail.toNat) (cnt - done) = k
      have hfit : c.tail.toNat + k ≤ c.size := by omega
      rw [getSpan_eq_logicalFrom c k hfit, show cnt - done = k + (cnt - (done + k)) by omega, logicalFrom_add]
      cases hbs : c.logicalFrom 0 k with
      | none => rfl
      | some bs =>
        dsimp only
        have hlen := (logicalFrom_eq_some.1 hbs).1
        rw [ih (done + k) (c.advanceTail k) (m.writeSpan (addr + done) bs)
            (by rw [advanceTail_toNat hfit, advanceTail_size]; exact Nat.mod_lt _ c.size_pos) (by omega) (by omega),
          logicalFrom_advanceTail c k 0 _ hfit, Nat.add_zero, Nat.zero_add, advanceTail_eq_dropBytes c k hfit,
          dropBytes_dropBytes, Option.bind_some]
        cases c.logicalFrom k (cnt - (done + k)) with
        | none => rfl
        | some cs => simp [Memory.writeSpan_append, hlen, Nat.add_assoc]

/-- The span loop of COPY adds the first bytes of the source's used region to the destination one at a time. -/
theorem copySpans_eq (cnt : Nat) (fuel done : Nat) (d c : Ring) (hh : d.head.toNat < d.size)
    (ht : c.tail.toNat < c.size) (hd : done ≤ cnt) (hf : cnt ≤ done + fuel) :
    copySpans cnt fuel done d c =
      (c.logicalFrom 0 (cnt - done)).map fun bs => (d.pushAll bs, c.dropBytes (cnt - done)) := by
  induction fuel generalizing done d c with
  | zero => simp [copySpans, show cnt - done = 0 by omega, logicalFrom, dropBytes_zero c ht]
  | succ fuel ih =>
    unfold copySpans
    split
    · rename_i h; simp [h, logicalFrom, dropBytes_zero c ht]
    · rename_i h
      dsimp only
      generalize hk : min (d.size - d.head.toNat) (min (c.size - c.tail.toNat) (cnt - done)) = k
      have hk1 : 0 < k := by omega
      have hfit : c.tail.toNat + k ≤ c.size := by omega
      rw [getSpan_eq_logicalFrom c k hfit, show cnt - done = k + (cnt - (done + k)) by omega, logicalFrom_add]
      cases hbs : c.logicalFrom 0 k with
      | none => rfl
      | some bs =>
        dsimp only
        have hlen := (logicalFrom_eq_some.1 hbs).1
        have hfit' : d.head.toNat + bs.length ≤ d.size := by omega
        have hne : bs ≠ [] := by intro h0; rw [h0] at hlen; simp at hlen; omega
        rw [ih (done + k) (d.putSpan bs) (c.advanceTail k)
            (by rw [putSpan_head_toNat hfit', putSpan_size]; exact Nat.mod_lt _ d.size_pos)
            (by rw [advanceTail_toNat hfit, advanceTail_size]; exact Nat.mod_lt _ c.size_pos) (by omega) (by omega),
          logicalFrom_advanceTail c k 0 _ hfit, Nat.add_zero, Nat.zero_add, advanceTail_eq_dropBytes c k hfit,
          dropBytes_dropBytes, Option.bind_some, putSpan_eq_pushAll d bs hne hfit']
        cases c.logicalFrom k (cnt - (done + k)) with
        | none => rfl
        | some cs => simp [pushAll_append]

/-- FIND's scan of cells that all hold a value: the first match at or after `off`, or no match. -/
theorem scan_spec (m : Memory) (b : Byte) (a off n : Nat) (hv : ∀ j, j < n → m.read? (a + j) ≠ none) :
    (m.scan b a off n = some none ∧ ∀ j, j < n → m.read? (a + j) ≠ some b) ∨
    ∃ j, j < n ∧ m.scan b a off n = some (some (off + j)) ∧ m.read? (a + j) = some b ∧
      ∀ i, i < j → m.read? (a + i) ≠ some b := by
  induction n generalizing a off with
  | zero => exact .inl ⟨rfl, by omega⟩
  | succ n ih =>
    obtain ⟨v, hv0⟩ := Option.ne_none_iff_exists'.1 (hv 0 (by omega))
    rw [Nat.add_zero] at hv0
    by_cases hvb : v = b
    · exact .inr ⟨0, by omega, by simp [Memory.scan, hv0, hvb], by simp [hv0, hvb], by omega⟩
    · have step : m.scan b a off (n + 1) = m.scan b (a + 1) (off + 1) n := by simp [Memory.scan, hv0, hvb]
      have hv' : ∀ j, j < n → m.read? (a + 1 + j) ≠ none := fun j hj => by
        have := hv (j + 1) (by omega); rwa [Nat.add_assoc, Nat.add_comm 1 j]
      rcases ih (a + 1) (off + 1) hv' with ⟨h1, h2⟩ | ⟨j, hj, h1, h2, h3⟩
      · refine .inl ⟨step.trans h1, ?_⟩
        intro j hj
        cases j with
        | zero => simp [hv0, hvb]
        | succ j => have := h2 j (by omega); rwa [Nat.add_assoc, Nat.add_comm 1 j] at this
      · refine .inr ⟨j + 1, by omega, ?_, ?_, ?_⟩
        · rw [step, h1, Nat.add_assoc, Nat.add_comm 1 j]
        · rwa [Nat.add_assoc, Nat.add_comm 1 j] at h2
        · intro i hi
          cases i with
          | zero => simp [hv0, hvb]
          | succ i => have := h3 i (by omega); rwa [Nat.add_assoc, Nat.add_comm 1 i] at this

/-- FIND's loop on a used region that all holds a value (R251). -/
theorem findFrom_spec (c : Ring) (b : Byte) (fuel off : Nat) (hf : c.used ≤ off + fuel)
    (hv : ∀ i, i < c.used → c.logicalByte i ≠ none) :
    ∃ v, c.findFrom b fuel off = some v ∧ v ≤ c.used ∧
      (v < c.used → off ≤ v ∧ c.logicalByte v = some b) ∧ ∀ i, off ≤ i → i < v → c.logicalByte i ≠ some b := by
  induction fuel generalizing off with
  | zero => exact ⟨c.used, rfl, Nat.le_refl _, by omega, by omega⟩
  | succ fuel ih =>
    unfold findFrom
    split
    · exact ⟨c.used, rfl, Nat.le_refl _, by omega, by omega⟩
    · rename_i h
      dsimp only
      have hs := Nat.mod_lt (c.tail.toNat + off) c.size_pos
      generalize hn : min (c.size - (c.tail.toNat + off) % c.size) (c.used - off) = n
      have cell : ∀ j, j < n → c.sto.read? ((c.tail.toNat + off) % c.size + j) = c.logicalByte (off + j) := by
        intro j hj
        have h2 := Nat.mod_add_mod (c.tail.toNat + off) c.size j
        rw [Nat.mod_eq_of_lt (by omega)] at h2
        rw [logicalByte, h2, Nat.add_assoc]
      rcases scan_spec c.sto b ((c.tail.toNat + off) % c.size) off n
          (fun j hj => by rw [cell j hj]; exact hv _ (by omega)) with ⟨h1, h2⟩ | ⟨j, hj, h1, h2, h3⟩
      · rw [h1]
        obtain ⟨v, hv1, hv2, hv3, hv4⟩ := ih (off + n) (by omega)
        refine ⟨v, hv1, hv2, fun hlt => ⟨by have := hv3 hlt; omega, (hv3 hlt).2⟩, ?_⟩
        intro i hi hi'
        rcases Nat.lt_or_ge i (off + n) with hlt | hge
        · have := h2 (i - off) (by omega)
          rw [cell (i - off) (by omega)] at this
          rwa [show off + (i - off) = i by omega] at this
        · exact hv4 i hge hi'
      · rw [h1]
        refine ⟨off + j, rfl, by omega, fun _ => ⟨by omega, by rw [← cell j hj]; exact h2⟩, ?_⟩
        intro i hi hi'
        have := h3 (i - off) (by omega)
        rw [cell (i - off) (by omega)] at this
        rwa [show off + (i - off) = i by omega] at this

/-! ## What the loops never touch, in any state -/

/-- The span loop of WRITE_MEM and FILL writes storage and HEAD alone. -/
theorem addSpans_keeps (src : Nat → Byte) (cnt fuel done : Nat) (c : Ring) :
    (addSpans src cnt fuel done c).maxCap = c.maxCap ∧ (addSpans src cnt fuel done c).live = c.live ∧
    (addSpans src cnt fuel done c).cap = c.cap ∧ (addSpans src cnt fuel done c).tail = c.tail := by
  induction fuel generalizing done c with
  | zero => exact ⟨rfl, rfl, rfl, rfl⟩
  | succ fuel ih =>
    unfold addSpans
    split
    · exact ⟨rfl, rfl, rfl, rfl⟩
    · simpa using ih _ (c.putSpan _)

/-- The span loop of READ_MEM writes TAIL alone. -/
theorem takeSpans_keeps {addr cnt fuel done : Nat} {c c' : Ring} {m m' : Memory}
    (h : takeSpans addr cnt fuel done c m = some (c', m')) : c' = { c with tail := c'.tail } := by
  induction fuel generalizing done c m with
  | zero =>
    simp only [takeSpans, Option.some.injEq, Prod.mk.injEq] at h
    rw [← h.1]
  | succ fuel ih =>
    unfold takeSpans at h
    split at h
    · simp only [Option.some.injEq, Prod.mk.injEq] at h
      rw [← h.1]
    · dsimp only at h
      split at h
      · cases h
      · rw [ih h]; rfl

/-- The span loop of COPY writes the destination's storage and HEAD, and the source's TAIL. -/
theorem copySpans_keeps {cnt fuel done : Nat} {d c d' c' : Ring} (h : copySpans cnt fuel done d c = some (d', c')) :
    d' = { d with head := d'.head, sto := d'.sto } ∧ c' = { c with tail := c'.tail } := by
  induction fuel generalizing done d c with
  | zero =>
    simp only [copySpans, Option.some.injEq, Prod.mk.injEq] at h
    rw [← h.1, ← h.2]; exact ⟨rfl, rfl⟩
  | succ fuel ih =>
    unfold copySpans at h
    split at h
    · simp only [Option.some.injEq, Prod.mk.injEq] at h
      rw [← h.1, ← h.2]; exact ⟨rfl, rfl⟩
    · dsimp only at h
      split at h
      · cases h
      · obtain ⟨h1, h2⟩ := ih h
        rw [h1, h2]; exact ⟨rfl, rfl⟩

end Sys2Proof.Machine.Ring
end

