-- ==== Sys2Proof/Laws/Content.lean ====
section
/-! SUPPORT. What the shared operations do to the content of a context (R44, R188, R216). -/

namespace Sys2Proof.Machine.Ring

variable {c : Ring}

@[simp] theorem length_content : c.content.length = c.used := by simp [content]

theorem getElem?_content {i : Nat} (hi : i < c.used) : c.content[i]? = some (c.logicalByte i) := by
  simp [content, hi]

/-- HEAD is `used` bytes past TAIL, circularly. -/
theorem tail_add_used_mod (hh : c.head.toNat < c.size) (ht : c.tail.toNat < c.size) :
    (c.tail.toNat + c.used) % c.size = c.head.toNat := by
  rw [used_eq_mod hh ht, Nat.add_mod_mod, show c.tail.toNat + (c.head.toNat + c.size - c.tail.toNat)
    = c.head.toNat + c.size by omega, Nat.add_mod_right, Nat.mod_eq_of_lt hh]

/-- A HEAD that stands `u < S` bytes past TAIL gives `u` used bytes. -/
theorem used_of_mod {u : Nat} (ht : c.tail.toNat < c.size) (hu : u < c.size)
    (h : c.head.toNat = (c.tail.toNat + u) % c.size) : c.used = u := by
  have hh : c.head.toNat < c.size := by rw [h]; exact Nat.mod_lt _ c.size_pos
  have h2 := tail_add_used_mod hh ht
  have h3 : (c.tail.toNat + c.used) % c.size = (c.tail.toNat + u) % c.size := by rw [h2, h]
  have h4 := c.used_lt_size
  rcases Nat.lt_trichotomy c.used u with hlt | heq | hgt
  · exact absurd h3.symm (mod_ne_of_lt (by omega) (by omega))
  · exact heq
  · exact absurd h3 (mod_ne_of_lt (by omega) (by omega))

/-- Removing the first `n` bytes (R216). -/
theorem used_dropBytes {n : Nat} (hh : c.head.toNat < c.size) (ht : c.tail.toNat < c.size) (hn : n ≤ c.used) :
    (c.dropBytes n).used = c.used - n := by
  have hlt := c.used_lt_size
  apply used_of_mod
  · rw [dropBytes_tail_toNat, dropBytes_size]; exact Nat.mod_lt _ c.size_pos
  · rw [dropBytes_size]; omega
  · rw [dropBytes_tail_toNat, dropBytes_size, dropBytes_head, Nat.mod_add_mod, Nat.add_assoc,
      show n + (c.used - n) = c.used by omega, tail_add_used_mod hh ht]

theorem content_dropBytes {n : Nat} (hh : c.head.toNat < c.size) (ht : c.tail.toNat < c.size) (hn : n ≤ c.used) :
    (c.dropBytes n).content = c.content.drop n := by
  apply List.ext_getElem?
  intro i
  rw [List.getElem?_drop]
  by_cases hi : i < c.used - n
  · rw [getElem?_content (by rw [used_dropBytes hh ht hn]; exact hi), getElem?_content (by omega), logicalByte_dropBytes]
  · rw [List.getElem?_eq_none (by rw [length_content, used_dropBytes hh ht hn]; omega),
      List.getElem?_eq_none (by rw [length_content]; omega)]

/-- The bytes pushed stand at HEAD and after it, circularly; the old content stays where it was as long as it fits. -/
theorem pushAll_logicalByte_new (bs : List Byte) (hh : c.head.toNat < c.size) {j : Nat} (hj : j < bs.length)
    (hr : bs.length ≤ j + c.size) {p : Nat} (hp : p = (c.head.toNat + j) % c.size) :
    (c.pushAll bs).sto.read? p = some (bs[j]'hj) := by
  rw [hp, pushAll_read?_recent c bs hh hj hr, List.getElem?_eq_getElem hj]

theorem pushAll_logicalByte_old (bs : List Byte) (hh : c.head.toNat < c.size) (ht : c.tail.toNat < c.size) {i : Nat}
    (hi : i < c.used) (hfit : c.used + bs.length < i + c.size + 1) :
    (c.pushAll bs).sto.read? ((c.tail.toNat + i) % c.size) = c.logicalByte i := by
  rw [pushAll_read?_other c bs hh]
  · rfl
  · intro j hj
    rw [← tail_add_used_mod hh ht, Nat.mod_add_mod]
    exact mod_ne_of_lt (by omega) (by omega)

/-- Bytes that fit into the free space are appended to the content. -/
theorem used_pushAll (bs : List Byte) (hh : c.head.toNat < c.size) (ht : c.tail.toNat < c.size)
    (hf : c.used + bs.length < c.size) : (c.pushAll bs).used = c.used + bs.length := by
  apply used_of_mod
  · simpa using ht
  · simpa using hf
  · rw [pushAll_head_toNat c bs hh, pushAll_tail, pushAll_size, ← tail_add_used_mod hh ht, Nat.mod_add_mod,
      Nat.add_assoc]

theorem content_pushAll (bs : List Byte) (hh : c.head.toNat < c.size) (ht : c.tail.toNat < c.size)
    (hf : c.used + bs.length < c.size) : (c.pushAll bs).content = c.content ++ bs.map some := by
  apply List.ext_getElem?
  intro i
  have hu := used_pushAll bs hh ht hf
  by_cases hi : i < c.used
  · rw [getElem?_content (by omega), List.getElem?_append_left (by simpa using hi), getElem?_content hi]
    simp only [logicalByte, pushAll_tail, pushAll_size]
    rw [pushAll_logicalByte_old bs hh ht hi (by omega)]
    rfl
  · rw [List.getElem?_append_right (by simpa using hi), length_content]
    by_cases hi2 : i < c.used + bs.length
    · rw [getElem?_content (by omega)]
      simp only [logicalByte, pushAll_tail, pushAll_size, List.getElem?_map]
      rw [pushAll_logicalByte_new bs hh (j := i - c.used) (by omega) (by omega)
        (by rw [← tail_add_used_mod hh ht, Nat.mod_add_mod]; congr 1; omega),
        List.getElem?_eq_getElem (show i - c.used < bs.length by omega)]
      rfl
    · rw [List.getElem?_eq_none (by rw [length_content, hu]; omega), List.getElem?_eq_none (by simp; omega)]

theorem used_advanceTailPast (hh : c.head.toNat < c.size) : c.advanceTailPast.used = c.cap.toNat := by
  have h := advanceTailPast_isFull hh
  rw [isFull, decide_eq_true_eq] at h
  rw [used, h]; rfl

/-- Bytes that do not fit, and the fixup: the last CAP bytes of old content and new bytes stay (R188). -/
theorem content_pushAll_fixup (bs : List Byte) (hh : c.head.toNat < c.size) (ht : c.tail.toNat < c.size)
    (hf : c.size ≤ c.used + bs.length) :
    (c.pushAll bs).advanceTailPast.content = lastOf c.cap.toNat (c.content ++ bs.map some) := by
  have hh' := pushAll_head_lt c bs hh
  have hu : (c.pushAll bs).advanceTailPast.used = c.cap.toNat := by
    rw [used_advanceTailPast (by simpa using hh'), pushAll_cap]
  have hsz := c.size_def
  have hul := c.used_lt_size
  have hlen : (c.content ++ bs.map some).length = c.used + bs.length := by simp
  apply List.ext_getElem?
  intro i
  rw [lastOf, List.getElem?_drop, hlen]
  by_cases hi : i < c.cap.toNat
  · rw [getElem?_content (by omega)]
    have hcell : (c.pushAll bs).advanceTailPast.logicalByte i =
        (c.pushAll bs).sto.read? ((c.tail.toNat + (c.used + bs.length - c.cap.toNat + i)) % c.size) := by
      have e : (c.tail.toNat + (c.used + bs.length - c.cap.toNat + i) + c.size) =
        c.tail.toNat + c.used + (bs.length + 1 + i) := by omega
      rw [← Nat.add_mod_right, e]
      simp only [logicalByte, advanceTailPast_sto]
      rw [show (c.pushAll bs).advanceTailPast.size = c.size from pushAll_size c bs,
        advanceTailPast_tail_toNat (by simpa using hh'), pushAll_size, pushAll_head_toNat c bs hh,
        Nat.mod_add_mod, ← Nat.mod_add_mod (c.tail.toNat + c.used), tail_add_used_mod hh ht, Nat.add_assoc _ 1,
        Nat.mod_add_mod]
      congr 2
      omega
    rw [hcell]
    by_cases hold : c.used + bs.length - c.cap.toNat + i < c.used
    · rw [pushAll_logicalByte_old bs hh ht hold (by omega), List.getElem?_append_left (by simpa using hold),
        getElem?_content hold]
    · rw [List.getElem?_append_right (by simpa using hold), length_content]
      rw [pushAll_logicalByte_new bs hh (j := c.used + bs.length - c.cap.toNat + i - c.used) (by omega) (by omega)
        (by rw [← tail_add_used_mod hh ht, Nat.mod_add_mod]; congr 1; omega), List.getElem?_map,
        List.getElem?_eq_getElem (show c.used + bs.length - c.cap.toNat + i - c.used < bs.length by omega)]
      rfl
  · rw [List.getElem?_eq_none (by rw [length_content]; omega), List.getElem?_eq_none (by omega)]

/-- Adding bytes with the overflow predicted and the fixup run: retention (R188), and when OVF is 1. -/
theorem content_add (bs : List Byte) (hh : c.head.toNat < c.size) (ht : c.tail.toNat < c.size) :
    ((c.pushAll bs).fixup (c.predictOvf bs.length)).content = lastOf c.cap.toNat (c.content ++ bs.map some) ∧
    (c.predictOvf bs.length = true ↔ c.cap.toNat < c.used + bs.length) := by
  have h1 := used_add_free hh ht
  have hsz := c.size_def
  have hp : c.predictOvf bs.length = true ↔ c.cap.toNat < c.used + bs.length := by
    rw [predictOvf, decide_eq_true_eq]; omega
  refine ⟨?_, hp⟩
  by_cases hov : c.cap.toNat < c.used + bs.length
  · rw [hp.2 hov, fixup_true, content_pushAll_fixup bs hh ht (by omega)]
  · rw [Bool.eq_false_iff.2 (mt hp.1 hov), fixup_false, content_pushAll bs hh ht (by omega), lastOf,
      show (c.content ++ bs.map some).length - c.cap.toNat = 0 by simp; omega, List.drop_zero]

/-- `addData` is pushing its bytes and running the fixup (R182, R185). -/
theorem addData_eq (src : Nat → Byte) (cnt : Nat) (hh : c.head.toNat < c.size) :
    c.addData src cnt = (c.pushAll (sourceSpan src 0 cnt)).fixup (c.predictOvf cnt) := by
  rw [addData, addSpans_eq_pushAll src cnt cnt 0 c hh (Nat.zero_le _) (by omega), Nat.sub_zero]

end Sys2Proof.Machine.Ring
end

