-- ==== Sys2Proof/Laws/Device.lean ====
section
/-! SUPPORT. What a call of the descriptor device can come to (R79-R82), said once. -/

namespace Sys2Proof.Machine

variable {s s' : State} {dh : Handle} {len : Nat} {bytes : List Byte}

/-- DescRead that is answered: the answer kept its contract, the request is logged, the answer is used up. -/
theorem descRead_answer {a : ReadAnswer} (h : descRead s dh len = .answer a s') :
    s.readAnswers = some a :: s'.readAnswers ∧ a.n.toInt ≤ (len : Int) ∧ a.bytes.length = a.n.toInt.toNat ∧
    s' = { s with requests := s.requests ++ [.read dh len], readAnswers := s'.readAnswers } := by
  unfold descRead at h
  split at h
  · cases h
  · cases h
  · rename_i x rest hx
    split at h
    · rename_i hk
      injection h with h1 h2
      subst h1 h2
      simp only [ReadAnswer.keepsContract, Bool.and_eq_true, decide_eq_true_eq] at hk
      exact ⟨hx, hk.1, hk.2, rfl⟩
    · cases h

/-- DescRead that is never answered: the request is logged. -/
theorem descRead_silent (h : descRead s dh len = .silent s') :
    (s.readAnswers = [] ∨ s.readAnswers = none :: s'.readAnswers) ∧
    s' = { s with requests := s.requests ++ [.read dh len], readAnswers := s'.readAnswers } := by
  unfold descRead at h
  split at h
  · rename_i hx
    injection h with h
    subst h
    exact ⟨.inl hx, rfl⟩
  · rename_i rest hx
    injection h with h
    subst h
    exact ⟨.inr hx, rfl⟩
  · split at h <;> cases h

/-- DescRead that breaks the contract: the next answer says so. -/
theorem descRead_breach (h : descRead s dh len = .breach) :
    ∃ a rest, s.readAnswers = some a :: rest ∧ a.keepsContract len = false := by
  unfold descRead at h
  split at h
  · cases h
  · cases h
  · rename_i a rest hx
    split at h
    · cases h
    · rename_i hk
      exact ⟨a, rest, hx, Bool.eq_false_iff.2 hk⟩

/-- DescWrite that is answered. -/
theorem descWrite_answer {n : BitVec 64} (h : descWrite s dh bytes = .answer n s') :
    s.writeAnswers = some n :: s'.writeAnswers ∧ n.toInt ≤ (bytes.length : Int) ∧
    s' = { s with requests := s.requests ++ [.write dh bytes], writeAnswers := s'.writeAnswers } := by
  unfold descWrite at h
  split at h
  · cases h
  · cases h
  · rename_i x rest hx
    split at h
    · rename_i hk
      injection h with h1 h2
      subst h1 h2
      exact ⟨hx, hk, rfl⟩
    · cases h

/-- DescWrite that is never answered. -/
theorem descWrite_silent (h : descWrite s dh bytes = .silent s') :
    (s.writeAnswers = [] ∨ s.writeAnswers = none :: s'.writeAnswers) ∧
    s' = { s with requests := s.requests ++ [.write dh bytes], writeAnswers := s'.writeAnswers } := by
  unfold descWrite at h
  split at h
  · rename_i hx
    injection h with h
    subst h
    exact ⟨.inl hx, rfl⟩
  · rename_i rest hx
    injection h with h
    subst h
    exact ⟨.inr hx, rfl⟩
  · split at h <;> cases h

/-- DescWrite that breaks the contract. -/
theorem descWrite_breach (h : descWrite s dh bytes = .breach) :
    ∃ n rest, s.writeAnswers = some n :: rest ∧ ¬ n.toInt ≤ (bytes.length : Int) := by
  unfold descWrite at h
  split at h
  · cases h
  · cases h
  · rename_i n rest hx
    split at h
    · cases h
    · rename_i hk
      exact ⟨n, rest, hx, hk⟩

end Sys2Proof.Machine
end

