-- ==== Sys2Proof/Laws/Encoding.lean ====
section
/-! SUPPORT. The fields of packed command and response words. -/

namespace Sys2Proof

section Command

variable (opc rsv : BitVec 4) (ra rb : RingId) (b8 : Byte) (dh : Handle) (cnt : Count) (addr : HostAddr)

@[simp] theorem fieldOpc_packFields : fieldOpc (packFields opc rsv ra rb b8 dh cnt addr) = opc := by
  ext i hi
  simp only [fieldOpc, packFields, BitVec.getElem_extractLsb', BitVec.getLsbD_append]
  split_ifs <;> first | omega | simp_all

@[simp] theorem fieldRsv_packFields : fieldRsv (packFields opc rsv ra rb b8 dh cnt addr) = rsv := by
  ext i hi
  simp only [fieldRsv, packFields, BitVec.getElem_extractLsb', BitVec.getLsbD_append]
  split_ifs <;> first | omega | simp_all

@[simp] theorem fieldRa_packFields : fieldRa (packFields opc rsv ra rb b8 dh cnt addr) = ra := by
  ext i hi
  simp only [fieldRa, packFields, BitVec.getElem_extractLsb', BitVec.getLsbD_append]
  split_ifs <;> first | omega | (rw [← BitVec.getLsbD_eq_getElem]; congr 1; omega)

@[simp] theorem fieldRb_packFields : fieldRb (packFields opc rsv ra rb b8 dh cnt addr) = rb := by
  ext i hi
  simp only [fieldRb, packFields, BitVec.getElem_extractLsb', BitVec.getLsbD_append]
  split_ifs <;> first | omega | (rw [← BitVec.getLsbD_eq_getElem]; congr 1; omega)

@[simp] theorem fieldB8_packFields : fieldB8 (packFields opc rsv ra rb b8 dh cnt addr) = b8 := by
  ext i hi
  simp only [fieldB8, packFields, BitVec.getElem_extractLsb', BitVec.getLsbD_append]
  split_ifs <;> first | omega | (rw [← BitVec.getLsbD_eq_getElem]; congr 1; omega)

@[simp] theorem fieldDh_packFields : fieldDh (packFields opc rsv ra rb b8 dh cnt addr) = dh := by
  ext i hi
  simp only [fieldDh, packFields, BitVec.getElem_extractLsb', BitVec.getLsbD_append]
  split_ifs <;> first | omega | (rw [← BitVec.getLsbD_eq_getElem]; congr 1; omega)

@[simp] theorem fieldCnt_packFields : fieldCnt (packFields opc rsv ra rb b8 dh cnt addr) = cnt := by
  ext i hi
  simp only [fieldCnt, packFields, BitVec.getElem_extractLsb', BitVec.getLsbD_append]
  split_ifs <;> first | omega | (rw [← BitVec.getLsbD_eq_getElem]; congr 1; omega)

@[simp] theorem fieldAddr_packFields : fieldAddr (packFields opc rsv ra rb b8 dh cnt addr) = addr := by
  ext i hi
  simp only [fieldAddr, packFields, BitVec.getElem_extractLsb', BitVec.getLsbD_append]
  split_ifs <;> first | omega | (rw [← BitVec.getLsbD_eq_getElem]; congr 1; omega)

/-- A command word is its fields. -/
theorem packFields_fields (w : CmdWord) :
    packFields (fieldOpc w) (fieldRsv w) (fieldRa w) (fieldRb w) (fieldB8 w) (fieldDh w) (fieldCnt w) (fieldAddr w) = w := by
  ext i hi
  simp only [packFields, fieldOpc, fieldRsv, fieldRa, fieldRb, fieldB8, fieldDh, fieldCnt, fieldAddr,
    ← BitVec.getLsbD_eq_getElem, BitVec.getLsbD_append, BitVec.getLsbD_extractLsb']
  split_ifs <;> (rw [decide_eq_true (by omega), Bool.true_and]; congr 1; omega)

end Command

namespace Machine

variable (st : Status) (v : Int) (ovf : Bool)

@[simp] theorem rspStatus_packResponse : rspStatus (packResponse st v ovf) = statusCode st := by
  ext i hi
  simp only [rspStatus, packResponse, BitVec.getElem_extractLsb', BitVec.getLsbD_append]
  split_ifs <;> first | omega | simp_all

@[simp] theorem rspOvf_packResponse : rspOvf (packResponse st v ovf) = ovf := by
  simp only [rspOvf, packResponse, BitVec.getLsbD_append]
  simp

@[simp] theorem rspUnf_packResponse : rspUnf (packResponse st v ovf) = decide (st = .underflow) := by
  simp only [rspUnf, packResponse, unfFlag, BitVec.getLsbD_append]
  simp

@[simp] theorem rspZero_packResponse : rspZero (packResponse st v ovf) = 0#3 := by
  ext i hi
  simp only [rspZero, packResponse, BitVec.getElem_extractLsb', BitVec.getLsbD_append]
  split_ifs <;> first | omega | simp

theorem rspResultBits_packResponse : (packResponse st v ovf).extractLsb' 8 64 = BitVec.ofInt 64 v := by
  ext i hi
  simp only [packResponse, BitVec.getElem_extractLsb', BitVec.getLsbD_append]
  split_ifs <;> first | omega | (rw [← BitVec.getLsbD_eq_getElem]; congr 1; omega)

/-- RESULT carries every integer of its range (R114). -/
theorem rspResult_packResponse (h1 : -2 ^ 63 ≤ v) (h2 : v < 2 ^ 63) : rspResult (packResponse st v ovf) = v := by
  rw [rspResult, rspResultBits_packResponse, BitVec.toInt_ofInt_eq_self (by decide)] <;> simpa

theorem statusCode_le (st : Status) : (statusCode st).toNat ≤ 4 := by cases st <;> decide

theorem statusCode_injective {st st' : Status} (h : statusCode st = statusCode st') : st = st' := by
  cases st <;> cases st' <;> first | rfl | exact absurd h (by decide)

end Machine

end Sys2Proof
end

