-- ==== Sys2Proof/Laws/Operands.lean ====
section
/-! SUPPORT. When the checks on a command's operands pass, and how many host accesses are admitted. -/

namespace Sys2Proof.Machine.State

variable {s : State} {ra rb : RingId} {c d : Ring}

theorem ringOf_ok : s.ringOf ra = .ok c ↔ s.rings[ra.toNat]? = some c := by
  unfold ringOf
  cases s.rings[ra.toNat]? <;> simp

theorem freshRing_ok : s.freshRing ra = .ok c ↔ s.rings[ra.toNat]? = some c ∧ c.live = false := by
  unfold freshRing ringOf
  cases h : s.rings[ra.toNat]? with
  | none => simp
  | some x =>
    cases hx : x.live <;> simp [hx]
    · rintro rfl; exact hx
    · rintro rfl; exact hx

theorem liveRing_ok : s.liveRing ra = .ok c ↔ s.rings[ra.toNat]? = some c ∧ c.live = true := by
  unfold liveRing ringOf
  cases h : s.rings[ra.toNat]? with
  | none => simp
  | some x =>
    cases hx : x.live <;> simp [hx]
    · rintro rfl; exact hx
    · rintro rfl; exact hx

theorem spanFits_iff {addr : HostAddr} {cnt : Count} :
    spanFits addr cnt = true ↔ addr.toNat + cnt.toNat ≤ 2 ^ 64 := decide_eq_true_iff

theorem liveRingSpan_ok {addr : HostAddr} {cnt : Count} :
    s.liveRingSpan ra addr cnt = .ok c ↔
      s.rings[ra.toNat]? = some c ∧ c.live = true ∧ addr.toNat + cnt.toNat ≤ 2 ^ 64 := by
  unfold liveRingSpan
  cases h : s.liveRing ra with
  | error r =>
    simp only [reduceCtorEq, false_iff]
    rintro ⟨h1, h2, -⟩
    rw [liveRing_ok.2 ⟨h1, h2⟩] at h
    simp at h
  | ok x =>
    obtain ⟨h1, h2⟩ := liveRing_ok.1 h
    by_cases h3 : addr.toNat + cnt.toNat ≤ 2 ^ 64
    · rw [spanFits_iff.2 h3]
      simp only [if_true, Except.ok.injEq, h1, Option.some.injEq, h3, and_true]
      constructor
      · rintro rfl; exact ⟨rfl, h2⟩
      · exact And.left
    · simp only [mt spanFits_iff.1 h3, h3, and_false, if_false, reduceCtorEq, Bool.false_eq_true]

theorem copyRings_ok :
    s.copyRings ra rb = .ok (d, c) ↔
      s.rings[ra.toNat]? = some d ∧ s.rings[rb.toNat]? = some c ∧ rb ≠ ra ∧ d.live = true ∧ c.live = true := by
  unfold copyRings
  cases ha : s.ringOf ra with
  | error r =>
    simp only [reduceCtorEq, false_iff]
    rintro ⟨h1, -⟩
    rw [ringOf_ok.2 h1] at ha; simp at ha
  | ok x =>
    cases hb : s.ringOf rb with
    | error r =>
      simp only [reduceCtorEq, false_iff]
      rintro ⟨-, h1, -⟩
      rw [ringOf_ok.2 h1] at hb; simp at hb
    | ok y =>
      rw [ringOf_ok] at ha hb
      rw [ha, hb]
      by_cases hr : rb = ra
      · simp [hr]
      · cases hx : x.live <;> cases hy : y.live <;> simp [hr, hx, hy]
        · rintro rfl _ h; simp [h] at hx
        · rintro rfl _ h; simp [h] at hx
        · rintro _ rfl _; exact hy
        · rintro rfl rfl; exact ⟨hx, hy⟩

theorem before_le (h : Hole) (dir : Dir) (a k : Nat) : h.before dir a k ≤ k := by
  unfold Hole.before
  split <;> omega

theorem not_covers_of_lt_before {h : Hole} {dir : Dir} {a k j : Nat} (hj : j < h.before dir a k) :
    h.covers dir (a + j) = false := by
  unfold Hole.before at hj
  simp only [Hole.covers, Bool.and_eq_false_iff, decide_eq_false_iff_not]
  split at hj
  · omega
  · rename_i hc
    by_cases hd : h.dir = dir
    · simp only [hd, true_and] at hc; omega
    · exact .inl (.inl hd)

theorem covers_before {h : Hole} {dir : Dir} {a k : Nat} (hlt : h.before dir a k < k) :
    h.covers dir (a + h.before dir a k) = true := by
  unfold Hole.before at hlt ⊢
  split at hlt
  · rename_i hc
    obtain ⟨hd, hs, hl⟩ := hc
    rw [if_pos ⟨hd, hs, hl⟩, Nat.min_eq_right (by omega)]
    simp only [Hole.covers, Bool.and_eq_true, decide_eq_true_eq]
    exact ⟨⟨hd, by omega⟩, by omega⟩
  · omega

theorem admitted_le (dir : Dir) (a n : Nat) : s.admitted dir a n ≤ n := by
  unfold admitted
  induction s.holes with
  | nil => exact Nat.le_refl _
  | cons h hs ih => exact Nat.le_trans (before_le ..) ih

/-- Every access before the first that is not admitted is admitted (R77). -/
theorem hostAdmits_of_lt_admitted {dir : Dir} {a n j : Nat} (hj : j < s.admitted dir a n) :
    s.hostAdmits (a + j) dir = true := by
  unfold admitted at hj
  unfold hostAdmits
  generalize s.holes = hs at hj ⊢
  induction hs with
  | nil => rfl
  | cons h hs ih =>
    rw [List.foldr_cons] at hj
    rw [List.any_cons, not_covers_of_lt_before hj, Bool.false_or]
    exact ih (Nat.lt_of_lt_of_le hj (before_le ..))

/-- The access after the admitted ones, where there is one, is not admitted (R77). -/
theorem not_hostAdmits_admitted {dir : Dir} {a n : Nat} (hn : s.admitted dir a n < n) :
    s.hostAdmits (a + s.admitted dir a n) dir = false := by
  unfold admitted at hn ⊢
  unfold hostAdmits
  generalize s.holes = hs at hn ⊢
  induction hs with
  | nil => exact absurd hn (Nat.lt_irrefl _)
  | cons h hs ih =>
    rw [List.foldr_cons] at hn ⊢
    rw [List.any_cons]
    generalize hs.foldr (fun h k => h.before dir a k) n = k at hn ih ⊢
    by_cases hlt : h.before dir a k < k
    · rw [covers_before hlt]; rfl
    · have heq : h.before dir a k = k := Nat.le_antisymm (before_le ..) (by omega)
      rw [heq] at hn ⊢
      have := ih hn
      simp only [Bool.not_eq_false'] at this
      rw [this, Bool.or_true]; rfl

/-- All `n` accesses are admitted exactly where none is stopped. -/
theorem admitted_eq_iff {dir : Dir} {a n : Nat} :
    s.admitted dir a n = n ↔ ∀ j, j < n → s.hostAdmits (a + j) dir = true := by
  constructor
  · intro h j hj
    exact hostAdmits_of_lt_admitted (n := n) (by omega)
  · intro h
    by_contra hne
    have hlt : s.admitted dir a n < n := Nat.lt_of_le_of_ne (admitted_le dir a n) hne
    have := not_hostAdmits_admitted hlt
    rw [h _ hlt] at this
    exact absurd this (by decide)

end Sys2Proof.Machine.State
end

