-- ==== Sys2Proof/Laws/Exec.lean ====
section
/-! SUPPORT. Everything that an instruction can do when it answers a next state, said once. -/

namespace Sys2Proof.Machine

/-- The next states of an instruction, each with what the instruction found in the state before. -/
inductive Effect (s : State) : Instr → State → Prop where
  /-- Refused: nothing but the response. -/
  | refused (i : Instr) (st : Status) (h1 : st ≠ .ok) (h2 : st ≠ .descErr) : Effect s i (s.respond st 0 false)
  | new (ra : RingId) (cnt : Count) (c : Ring) (hc : s.rings[ra.toNat]? = some c) (hl : c.live = false)
      (h0 : cnt ≠ 0#32) (hm : cnt.toNat ≤ c.maxCap) :
      Effect s (.new ra cnt)
        ((s.setRing ra { c with live := true, cap := cnt, head := 0, tail := 0 }).respond .ok 0 false)
  | free (ra : RingId) (c : Ring) (hc : s.rings[ra.toNat]? = some c) (hl : c.live = true) :
      Effect s (.free ra) ((s.setRing ra { c with live := false, cap := 0, head := 0, tail := 0 }).respond .ok 0 false)
  | reset (ra : RingId) (c : Ring) (hc : s.rings[ra.toNat]? = some c) (hl : c.live = true) :
      Effect s (.reset ra) ((s.setRing ra { c with head := 0, tail := 0 }).respond .ok 0 false)
  /-- A query or FIND: nothing but the response. -/
  | answered (i : Instr) (v : Int) (h1 : addsTo i = none) (h2 : removesFrom i = none) (h3 : lifecycleOf i = none) :
      Effect s i (s.respond .ok v false)
  | writeMem (ra : RingId) (addr : HostAddr) (cnt : Count) (c : Ring) (hc : s.rings[ra.toNat]? = some c)
      (hl : c.live = true) (hs : addr.toNat + cnt.toNat ≤ 2 ^ 64)
      (ha : s.admitted .read addr.toNat cnt.toNat = cnt.toNat) :
      Effect s (.writeMem ra addr cnt)
        ((s.setRing ra (c.addData (fun i => s.memRead (addr.toNat + i)) cnt.toNat)).respond .ok
          (c.addData (fun i => s.memRead (addr.toNat + i)) cnt.toNat).head.toNat (c.predictOvf cnt.toNat))
  | writeMemBusy (ra : RingId) (addr : HostAddr) (cnt : Count) (c : Ring) (b : Busy)
      (ha : s.admitted .read addr.toNat cnt.toNat < cnt.toNat) (hb : b.instr = .writeMem ra addr cnt)
      (hw : b.wait = .hostRead (addr.toNat + s.admitted .read addr.toNat cnt.toNat)) :
      Effect s (.writeMem ra addr cnt) (s.stall b)
  | fill (ra : RingId) (b8 : Byte) (cnt : Count) (c : Ring) (hc : s.rings[ra.toNat]? = some c) (hl : c.live = true) :
      Effect s (.fill ra b8 cnt)
        ((s.setRing ra (c.addData (fun _ => b8) (min cnt.toNat c.size))).respond .ok (min cnt.toNat c.size : Nat)
          (c.predictOvf (min cnt.toNat c.size)))
  /-- READ_FD or WRITE_FD of no byte. -/
  | noBytes (i : Instr) (h : (∃ ra dh cnt, i = .readFd ra dh cnt) ∨ ∃ ra dh cnt, i = .writeFd ra dh cnt) :
      Effect s i (s.respond .ok 0 false)
  | readFdBusy (ra : RingId) (dh : Handle) (cnt : Count) (b : Busy) (len : Nat) (rest : List (Option ReadAnswer))
      (h0 : 1 ≤ len) (hle : len ≤ cnt.toNat) (hr : s.readAnswers = [] ∨ s.readAnswers = none :: rest)
      (hb : b.instr = .readFd ra dh cnt) (hw : b.wait = .device (.read dh len)) :
      Effect s (.readFd ra dh cnt)
        ({ s with requests := s.requests ++ [DevRequest.read dh len], readAnswers := rest }.stall b)
  /-- The device reports an error or no byte. -/
  | readFdNone (ra : RingId) (dh : Handle) (cnt : Count) (len : Nat) (a : ReadAnswer) (rest : List (Option ReadAnswer))
      (st : Status) (h0 : 1 ≤ len) (hle : len ≤ cnt.toNat) (hr : s.readAnswers = some a :: rest)
      (hn : (st = .descErr ∧ a.n.toInt < 0) ∨ (st = .ok ∧ a.n.toInt = 0)) :
      Effect s (.readFd ra dh cnt)
        ({ s with requests := s.requests ++ [DevRequest.read dh len], readAnswers := rest }.respond st a.n.toInt false)
  | readFd (ra : RingId) (dh : Handle) (cnt : Count) (c : Ring) (len : Nat) (a : ReadAnswer)
      (rest : List (Option ReadAnswer)) (hc : s.rings[ra.toNat]? = some c) (hl : c.live = true)
      (hlen : len = min cnt.toNat (c.size - c.head.toNat)) (hr : s.readAnswers = some a :: rest)
      (hn : 0 < a.n.toInt) (hb : a.bytes.length = a.n.toInt.toNat) (hle : a.bytes.length ≤ len) :
      Effect s (.readFd ra dh cnt)
        (({ s with requests := s.requests ++ [DevRequest.read dh len], readAnswers := rest }.setRing ra
          ((c.putSpan a.bytes).fixup (c.predictOvf a.bytes.length))).respond .ok a.n.toInt
            (c.predictOvf a.bytes.length))
  | readMem (ra : RingId) (addr : HostAddr) (cnt : Count) (c c' : Ring) (m : Memory)
      (hc : s.rings[ra.toNat]? = some c) (hl : c.live = true) (hs : addr.toNat + cnt.toNat ≤ 2 ^ 64)
      (hu : cnt.toNat ≤ c.used) (ha : s.admitted .write addr.toNat cnt.toNat = cnt.toNat)
      (ht : Ring.takeSpans addr.toNat cnt.toNat cnt.toNat 0 c s.hostMem = some (c', m)) :
      Effect s (.readMem ra addr cnt)
        (({ s with hostMem := m }.setRing ra c').respond .ok c'.tail.toNat false)
  | readMemBusy (ra : RingId) (addr : HostAddr) (cnt : Count) (c c' : Ring) (m : Memory) (b : Busy)
      (hc : s.rings[ra.toNat]? = some c) (hl : c.live = true) (hs : addr.toNat + cnt.toNat ≤ 2 ^ 64)
      (hu : cnt.toNat ≤ c.used) (ha : s.admitted .write addr.toNat cnt.toNat < cnt.toNat)
      (ht : Ring.takeSpans addr.toNat (s.admitted .write addr.toNat cnt.toNat)
        (s.admitted .write addr.toNat cnt.toNat) 0 c s.hostMem = some (c', m))
      (hb : b.instr = .readMem ra addr cnt)
      (hw : b.wait = .hostWrite (addr.toNat + s.admitted .write addr.toNat cnt.toNat)) :
      Effect s (.readMem ra addr cnt) ({ s with hostMem := m }.stall b)
  | writeFdBusy (ra : RingId) (dh : Handle) (cnt : Count) (b : Busy) (bytes : List Byte)
      (rest : List (Option (BitVec 64))) (h0 : 1 ≤ bytes.length) (hle : bytes.length ≤ cnt.toNat)
      (hr : s.writeAnswers = [] ∨ s.writeAnswers = none :: rest)
      (hb : b.instr = .writeFd ra dh cnt) (hw : b.wait = .device (.write dh bytes)) :
      Effect s (.writeFd ra dh cnt)
        ({ s with requests := s.requests ++ [DevRequest.write dh bytes], writeAnswers := rest }.stall b)
  | writeFdNone (ra : RingId) (dh : Handle) (cnt : Count) (bytes : List Byte) (n : BitVec 64)
      (rest : List (Option (BitVec 64))) (st : Status) (h0 : 1 ≤ bytes.length) (hle : bytes.length ≤ cnt.toNat)
      (hr : s.writeAnswers = some n :: rest)
      (hn : (st = .descErr ∧ n.toInt < 0) ∨ (st = .ok ∧ n.toInt = 0)) :
      Effect s (.writeFd ra dh cnt)
        ({ s with requests := s.requests ++ [DevRequest.write dh bytes], writeAnswers := rest }.respond st n.toInt false)
  | writeFd (ra : RingId) (dh : Handle) (cnt : Count) (c : Ring) (bytes : List Byte) (n : BitVec 64)
      (rest : List (Option (BitVec 64))) (hc : s.rings[ra.toNat]? = some c) (hl : c.live = true)
      (hu : cnt.toNat ≤ c.used) (hlen : bytes.length = min cnt.toNat (c.size - c.tail.toNat))
      (hr : s.writeAnswers = some n :: rest) (hn : 0 < n.toInt) (hle : n.toInt ≤ (bytes.length : Int)) :
      Effect s (.writeFd ra dh cnt)
        (({ s with requests := s.requests ++ [DevRequest.write dh bytes], writeAnswers := rest }.setRing ra
          (c.advanceTail n.toInt.toNat)).respond .ok n.toInt false)
  | copy (ra rb : RingId) (cnt : Count) (d c d' c' : Ring) (hd : s.rings[ra.toNat]? = some d)
      (hc : s.rings[rb.toNat]? = some c) (hne : rb ≠ ra) (hdl : d.live = true) (hcl : c.live = true)
      (hu : cnt.toNat ≤ c.used) (ht : Ring.copySpans cnt.toNat cnt.toNat 0 d c = some (d', c')) :
      Effect s (.copy ra rb cnt)
        (((s.setRing rb c').setRing ra (d'.fixup (d.predictOvf cnt.toNat))).respond .ok d'.head.toNat
          (d.predictOvf cnt.toNat))

section

variable {s t : State} {ra rb : RingId} {addr : HostAddr} {dh : Handle} {b8 : Byte} {cnt : Count}

theorem execNew_effect (h : execNew ra cnt s = .next t) : Effect s (.new ra cnt) t := by
  unfold execNew at h
  split at h
  · cases h; exact .refused _ .illegal (by decide) (by decide)
  · rename_i c hc
    obtain ⟨hc, hl⟩ := State.freshRing_ok.1 hc
    split at h
    · cases h; exact .refused _ .illegal (by decide) (by decide)
    · split at h
      · cases h; exact .refused _ .allocFail (by decide) (by decide)
      · rename_i h0 hm
        cases h; exact .new ra cnt c hc hl h0 (by omega)

theorem execFree_effect (h : execFree ra s = .next t) : Effect s (.free ra) t := by
  unfold execFree at h
  split at h
  · cases h; exact .refused _ .illegal (by decide) (by decide)
  · rename_i c hc
    obtain ⟨hc, hl⟩ := State.liveRing_ok.1 hc
    cases h; exact .free ra c hc hl

theorem execReset_effect (h : execReset ra s = .next t) : Effect s (.reset ra) t := by
  unfold execReset at h
  split at h
  · cases h; exact .refused _ .illegal (by decide) (by decide)
  · rename_i c hc
    obtain ⟨hc, hl⟩ := State.liveRing_ok.1 hc
    cases h; exact .reset ra c hc hl

theorem query_effect {value : Ring → Nat} {i : Instr} (h1 : addsTo i = none) (h2 : removesFrom i = none)
    (h3 : lifecycleOf i = none) (h : query ra value s = .next t) : Effect s i t := by
  unfold query at h
  split at h
  · cases h; exact .refused _ .illegal (by decide) (by decide)
  · cases h; exact .answered i _ h1 h2 h3

theorem execWriteMem_effect (h : execWriteMem ra addr cnt s = .next t) : Effect s (.writeMem ra addr cnt) t := by
  unfold execWriteMem at h
  split at h
  · cases h; exact .refused _ .illegal (by decide) (by decide)
  · rename_i c hc
    obtain ⟨hc, hl, hs⟩ := State.liveRingSpan_ok.1 hc
    dsimp only at h
    split at h
    · rename_i ha
      cases h; exact .writeMemBusy ra addr cnt c _ ha rfl rfl
    · rename_i ha
      cases h
      exact .writeMem ra addr cnt c hc hl hs (Nat.le_antisymm (State.admitted_le ..) (by omega))

theorem execFill_effect (h : execFill ra b8 cnt s = .next t) : Effect s (.fill ra b8 cnt) t := by
  unfold execFill at h
  split at h
  · cases h; exact .refused _ .illegal (by decide) (by decide)
  · rename_i c hc
    obtain ⟨hc, hl⟩ := State.liveRing_ok.1 hc
    cases h; exact .fill ra b8 cnt c hc hl

theorem execReadFd_effect (h : execReadFd ra dh cnt s = .next t) : Effect s (.readFd ra dh cnt) t := by
  unfold execReadFd at h
  split at h
  · cases h; exact .refused _ .illegal (by decide) (by decide)
  · rename_i c hc
    obtain ⟨hc, hl⟩ := State.liveRing_ok.1 hc
    dsimp only at h
    split at h
    · cases h; exact .noBytes _ (.inl ⟨ra, dh, cnt, rfl⟩)
    · rename_i hlen
      generalize hL : min cnt.toNat (c.size - c.head.toNat) = len at h hlen
      have hle : len ≤ cnt.toNat := by omega
      split at h
      · cases h
      · rename_i s' hd
        obtain ⟨hr, hs'⟩ := descRead_silent hd
        cases h
        rw [hs']
        exact .readFdBusy ra dh cnt _ len _ (by omega) hle hr rfl rfl
      · rename_i a s' hd
        obtain ⟨hr, hn, hb, hs'⟩ := descRead_answer hd
        split at h
        · rename_i hneg
          cases h; rw [hs']
          exact .readFdNone ra dh cnt len a _ .descErr (by omega) hle hr (.inl ⟨rfl, hneg⟩)
        · split at h
          · rename_i hz
            cases h; rw [hs']
            have e := Effect.readFdNone (s := s) ra dh cnt len a s'.readAnswers .ok (by omega) hle hr (.inr ⟨rfl, hz⟩)
            rwa [hz] at e
          · rename_i h1 h2
            cases h; rw [hs', ← hb]
            exact .readFd ra dh cnt c len a _ hc hl hL.symm hr (by omega) hb (by omega)

theorem execReadMem_effect (h : execReadMem ra addr cnt s = .next t) : Effect s (.readMem ra addr cnt) t := by
  unfold execReadMem at h
  split at h
  · cases h; exact .refused _ .illegal (by decide) (by decide)
  · rename_i c hc
    obtain ⟨hc, hl, hs⟩ := State.liveRingSpan_ok.1 hc
    split at h
    · cases h; exact .refused _ .underflow (by decide) (by decide)
    · rename_i hu
      dsimp only at h
      split at h
      · cases h
      · rename_i c' m ht
        split at h
        · rename_i ha
          cases h
          exact .readMemBusy ra addr cnt c c' m _ hc hl hs (by omega) ha ht rfl rfl
        · rename_i ha
          have heq := Nat.le_antisymm (State.admitted_le (s := s) .write addr.toNat cnt.toNat) (by omega)
          rw [heq] at ht
          cases h
          exact .readMem ra addr cnt c c' m hc hl hs (by omega) heq ht

theorem execWriteFd_effect (h : execWriteFd ra dh cnt s = .next t) : Effect s (.writeFd ra dh cnt) t := by
  unfold execWriteFd at h
  split at h
  · cases h; exact .refused _ .illegal (by decide) (by decide)
  · rename_i c hc
    obtain ⟨hc, hl⟩ := State.liveRing_ok.1 hc
    split at h
    · cases h; exact .refused _ .underflow (by decide) (by decide)
    · rename_i hu
      dsimp only at h
      split at h
      · cases h; exact .noBytes _ (.inr ⟨ra, dh, cnt, rfl⟩)
      · rename_i hlen
        generalize hL : min cnt.toNat (c.size - c.tail.toNat) = len at h hlen
        split at h
        · cases h
        · rename_i bytes hbs
          have hlb := (Memory.readSpan_eq_some.1 hbs).1
          split at h
          · cases h
          · rename_i s' hd
            obtain ⟨hr, hs'⟩ := descWrite_silent hd
            cases h; rw [hs']
            exact .writeFdBusy ra dh cnt _ bytes _ (by omega) (by omega) hr rfl rfl
          · rename_i n s' hd
            obtain ⟨hr, hn, hs'⟩ := descWrite_answer hd
            split at h
            · rename_i hneg
              cases h; rw [hs']
              exact .writeFdNone ra dh cnt bytes n _ .descErr (by omega) (by omega) hr (.inl ⟨rfl, hneg⟩)
            · split at h
              · rename_i hz
                cases h; rw [hs']
                have e := Effect.writeFdNone (s := s) ra dh cnt bytes n s'.writeAnswers .ok (by omega) (by omega) hr
                  (.inr ⟨rfl, hz⟩)
                rwa [hz] at e
              · rename_i h1 h2
                cases h; rw [hs']
                exact .writeFd ra dh cnt c bytes n _ hc hl (by omega) (by omega) hr (by omega) hn

theorem execCopy_effect (h : execCopy ra rb cnt s = .next t) : Effect s (.copy ra rb cnt) t := by
  unfold execCopy at h
  split at h
  · cases h; exact .refused _ .illegal (by decide) (by decide)
  · rename_i d c hdc
    obtain ⟨hd, hc, hne, hdl, hcl⟩ := State.copyRings_ok.1 hdc
    split at h
    · cases h; exact .refused _ .underflow (by decide) (by decide)
    · rename_i hu
      split at h
      · cases h
      · rename_i d' c' ht
        cases h
        exact .copy ra rb cnt d c d' c' hd hc hne hdl hcl (by omega) ht

theorem execFind_effect (h : execFind ra b8 cnt s = .next t) : Effect s (.find ra b8 cnt) t := by
  unfold execFind at h
  split at h
  · cases h; exact .refused _ .illegal (by decide) (by decide)
  · split at h
    · cases h
    · cases h; exact .answered _ _ rfl rfl rfl

end

/-- Whatever next state an instruction answers is one of its effects. -/
theorem exec_effect {i : Instr} {s t : State} (h : exec i s = .next t) : Effect s i t := by
  cases i with
  | new ra cnt => exact execNew_effect h
  | free ra => exact execFree_effect h
  | reset ra => exact execReset_effect h
  | queryBufsize ra => exact query_effect rfl rfl rfl h
  | queryCapacity ra => exact query_effect rfl rfl rfl h
  | queryFree ra => exact query_effect rfl rfl rfl h
  | queryUsed ra => exact query_effect rfl rfl rfl h
  | queryFull ra => exact query_effect rfl rfl rfl h
  | queryEmpty ra => exact query_effect rfl rfl rfl h
  | queryHead ra => exact query_effect rfl rfl rfl h
  | queryTail ra => exact query_effect rfl rfl rfl h
  | writeMem ra addr cnt => exact execWriteMem_effect h
  | readFd ra dh cnt => exact execReadFd_effect h
  | readMem ra addr cnt => exact execReadMem_effect h
  | writeFd ra dh cnt => exact execWriteFd_effect h
  | copy ra rb cnt => exact execCopy_effect h
  | find ra b8 cnt => exact execFind_effect h
  | fill ra b8 cnt => exact execFill_effect h

/-- No instruction of the set is refused: each has its meaning. -/
theorem exec_not_refused (i : Instr) (s : State) (r : Refusal) : exec i s ≠ .refused r := by
  cases i <;> simp only [exec, execNew, execFree, execReset, execQueryBufsize, execQueryCapacity, execQueryFree,
    execQueryUsed, execQueryFull, execQueryEmpty, execQueryHead, execQueryTail, query, execWriteMem, execReadFd,
    execReadMem, execWriteFd, execCopy, execFind, execFill, ne_eq] <;>
    (repeat' split) <;> exact nofun

end Sys2Proof.Machine
end

