-- ==== Sys2Proof/Laws/Invariant.lean ====
section
/-! SUPPORT. What adding, removing, an instruction, the host and hardware reset keep of the invariant (10_state.md R45). -/

namespace Sys2Proof.Machine

/-- A packed response is legal where OVF comes with OK only (R113, R277). -/
theorem legalResponse_packResponse (st : Status) (v : Int) (ovf : Bool) (h : ovf = true → st = .ok) :
    LegalResponse (packResponse st v ovf) := by
  constructor
  · simp
  · simpa using statusCode_le st
  · intro h1
    simp at h1
    simp [h h1]
  · simp only [rspUnf_packResponse, decide_eq_true_eq, rspStatus_packResponse]
    exact ⟨fun h => by rw [h], statusCode_injective⟩

theorem respond_legal {s : State} {st : Status} {v : Int} {ovf : Bool} (h : ovf = true → st = .ok) :
    ∀ q, (s.respond st v ovf).response = some q → LegalResponse q := by
  rintro q hq
  cases hq
  exact legalResponse_packResponse st v ovf h

/-- Adding bytes, with the fixup where they do not fit. -/
theorem Ring.Inv.add {c : Ring} (hi : c.Inv) (hl : c.live = true) (bs : List Byte) :
    ((c.pushAll bs).fixup (c.predictOvf bs.length)).Inv := by
  obtain ⟨hh, ht⟩ := hi.cursors_legal hl
  have hca := hi.cap_legal hl
  have hsz := c.size_def
  refine ⟨by simpa using hi.maxCap_pos, by simpa using hi.maxCap_le, ?_, ?_, ?_, ?_, ?_, ?_⟩
  · simpa using Ring.pushAll_sto_wf c bs hi.sto_wf
  · intro p hp
    simp at hp ⊢
    rcases Ring.mem_pushAll_sto c bs hh hp with h | h
    · exact hi.sto_inside p h
    · omega
  · intro _; simpa using hca
  · intro _
    have h1 := Ring.pushAll_head_lt c bs hh
    refine ⟨by simpa using h1, ?_⟩
    cases c.predictOvf bs.length
    · simpa using ht
    · have := Ring.advanceTailPast_tail_toNat (c := c.pushAll bs) (by simpa using h1)
      simp only [Ring.fixup_true]
      rw [this, show (c.pushAll bs).advanceTailPast.size = (c.pushAll bs).size from rfl]
      exact Nat.mod_lt _ (Ring.size_pos _)
  · intro _ i hiu hnone
    have h1 := (Ring.content_add bs hh ht).1
    have h2 := Ring.getElem?_content hiu
    rw [hnone, h1] at h2
    have h3 : (none : Option Byte) ∈ c.content ++ bs.map some := by
      have := List.mem_of_getElem? h2
      exact List.mem_of_mem_drop this
    simp [Ring.content] at h3
    obtain ⟨j, hj, hn⟩ := h3
    exact hi.used_held hl j hj hn
  · intro h; simp [hl] at h

/-- Removing bytes that are used. -/
theorem Ring.Inv.dropBytes {c : Ring} (hi : c.Inv) (hl : c.live = true) (n : Nat) (hn : n ≤ c.used) :
    (c.dropBytes n).Inv := by
  obtain ⟨hh, ht⟩ := hi.cursors_legal hl
  refine ⟨hi.maxCap_pos, hi.maxCap_le, hi.sto_wf, hi.sto_inside, fun _ => hi.cap_legal hl, ?_, ?_, ?_⟩
  · intro _; refine ⟨hh, ?_⟩
    simpa using Nat.mod_lt _ (Ring.size_pos c)
  · intro _ i hiu
    rw [Ring.used_dropBytes hh ht hn] at hiu
    rw [Ring.logicalByte_dropBytes]
    exact hi.used_held hl _ (by omega)
  · intro h; simp [hl] at h

/-- A context after hardware reset. -/
theorem Ring.Inv.afterReset {c : Ring} (h : c.Inv) : (Ring.afterReset c.maxCap).Inv :=
  ⟨h.maxCap_pos, h.maxCap_le, List.Pairwise.nil, nofun, nofun, nofun, nofun, fun _ => ⟨rfl, rfl, rfl⟩⟩

theorem inv_set {l : List Ring} (h : ∀ c ∈ l, c.Inv) {k : Nat} {c : Ring} (hc : c.Inv) : ∀ d ∈ l.set k c, d.Inv := by
  intro d hd
  rcases List.mem_or_eq_of_mem_set hd with h1 | rfl
  · exact h _ h1
  · exact hc

/-- The invariant looks at these fields alone. -/
theorem State.Inv.congr {s t : State} (h : s.Inv) (h1 : t.rings = s.rings) (h2 : t.phase = s.phase) (h3 : t.rst = s.rst)
    (h4 : t.hostMem = s.hostMem) (h5 : t.taken = s.taken) : t.Inv := by
  have hq : t.response = s.response := by simp only [State.response, h2]
  exact ⟨by rw [h1]; exact h.rings_pos, by rw [h1]; exact h.rings_le, by rw [h1]; exact h.rings_inv,
    by rw [h4]; exact h.host_wf, by rw [h4]; exact h.host_inside, by rw [hq]; exact h.rsp_legal,
    by rw [h5]; exact h.taken_legal, by rw [h1, h2, h3]; exact h.in_reset⟩

/-- Bytes the host stores keep host memory canonical and inside its space. -/
theorem State.hostStores_wf (stores : List (HostAddr × Byte)) {s : State} (h1 : s.hostMem.wf)
    (h2 : ∀ p ∈ s.hostMem, p.1 < Config.hostSpace) :
    (s.hostStores stores).hostMem.wf ∧ ∀ p ∈ (s.hostStores stores).hostMem, p.1 < Config.hostSpace := by
  induction stores generalizing s with
  | nil => exact ⟨h1, h2⟩
  | cons x xs ih =>
    obtain ⟨a, v⟩ := x
    apply ih (Memory.write_wf _ _ h1)
    intro p hp
    rcases Memory.mem_write hp with rfl | h
    · exact a.isLt
    · exact h2 p h

/-- What an instruction keeps of the invariant, whatever next state it comes to. -/
structure Keeps (s t : State) : Prop where
  length : t.rings.length = s.rings.length
  rings_inv : ∀ c ∈ t.rings, c.Inv
  host_wf : t.hostMem.wf
  host_inside : ∀ p ∈ t.hostMem, p.1 < Config.hostSpace
  rsp_legal : ∀ q, t.response = some q → LegalResponse q
  taken : t.taken = s.taken
  rst : t.rst = s.rst

theorem Effect.keeps {i : Instr} {s t : State} (hs : s.Inv) (h : Effect s i t) : Keeps s t := by
  have hget : ∀ {k : Nat} {c : Ring}, s.rings[k]? = some c → c.Inv := fun h => hs.rings_inv _ (List.mem_of_getElem? h)
  cases h with
  | refused i st h1 h2 =>
    exact ⟨rfl, hs.rings_inv, hs.host_wf, hs.host_inside, respond_legal (by simp), rfl, rfl⟩
  | answered i v => exact ⟨rfl, hs.rings_inv, hs.host_wf, hs.host_inside, respond_legal (by simp), rfl, rfl⟩
  | noBytes i v => exact ⟨rfl, hs.rings_inv, hs.host_wf, hs.host_inside, respond_legal (by simp), rfl, rfl⟩
  | writeMemBusy => exact ⟨rfl, hs.rings_inv, hs.host_wf, hs.host_inside, by simp, rfl, rfl⟩
  | readFdBusy => exact ⟨rfl, hs.rings_inv, hs.host_wf, hs.host_inside, by simp, rfl, rfl⟩
  | writeFdBusy => exact ⟨rfl, hs.rings_inv, hs.host_wf, hs.host_inside, by simp, rfl, rfl⟩
  | readFdNone => exact ⟨rfl, hs.rings_inv, hs.host_wf, hs.host_inside, respond_legal (by simp), rfl, rfl⟩
  | writeFdNone => exact ⟨rfl, hs.rings_inv, hs.host_wf, hs.host_inside, respond_legal (by simp), rfl, rfl⟩
  | new ra cnt c hc hl h0 hm =>
    have hi := hget hc
    refine ⟨by simp, ?_, hs.host_wf, hs.host_inside, respond_legal (by simp), rfl, rfl⟩
    apply inv_set hs.rings_inv
    have hpos : cnt.toNat ≠ 0 := fun h => h0 (BitVec.eq_of_toNat_eq (by simpa using h))
    refine ⟨hi.maxCap_pos, hi.maxCap_le, hi.sto_wf, hi.sto_inside, ?_, ?_, ?_, ?_⟩
    · intro _; exact ⟨by dsimp only; omega, hm⟩
    · intro _; simp [Ring.size]
    · intro _ i hiu; simp [Ring.used, Ring.free] at hiu
    · simp
  | free ra c hc hl =>
    have hi := hget hc
    refine ⟨by simp, ?_, hs.host_wf, hs.host_inside, respond_legal (by simp), rfl, rfl⟩
    apply inv_set hs.rings_inv
    exact ⟨hi.maxCap_pos, hi.maxCap_le, hi.sto_wf, hi.sto_inside, by simp, by simp, by simp, by simp⟩
  | reset ra c hc hl =>
    have hi := hget hc
    refine ⟨by simp, ?_, hs.host_wf, hs.host_inside, respond_legal (by simp), rfl, rfl⟩
    apply inv_set hs.rings_inv
    refine ⟨hi.maxCap_pos, hi.maxCap_le, hi.sto_wf, hi.sto_inside, fun _ => hi.cap_legal hl, ?_, ?_, ?_⟩
    · intro _; simp [Ring.size]
    · intro _ i hiu; simp [Ring.used, Ring.free] at hiu
    · simp [hl]
  | writeMem ra addr cnt c hc hl hsp ha =>
    have hi := hget hc
    obtain ⟨hh, ht⟩ := hi.cursors_legal hl
    refine ⟨by simp, ?_, hs.host_wf, hs.host_inside, respond_legal (by simp), rfl, rfl⟩
    apply inv_set hs.rings_inv
    have := hi.add hl (sourceSpan (fun i => s.memRead (addr.toNat + i)) 0 cnt.toNat)
    rw [Ring.length_sourceSpan] at this
    rw [Ring.addData_eq _ _ hh]; exact this
  | fill ra b8 cnt c hc hl =>
    have hi := hget hc
    obtain ⟨hh, ht⟩ := hi.cursors_legal hl
    refine ⟨by simp, ?_, hs.host_wf, hs.host_inside, respond_legal (by simp), rfl, rfl⟩
    apply inv_set hs.rings_inv
    have := hi.add hl (sourceSpan (fun i => b8) 0 (min cnt.toNat c.size))
    rw [Ring.length_sourceSpan] at this
    rw [Ring.addData_eq _ _ hh]; exact this
  | readFd ra dh cnt c len a rest hc hl hlen hr hn hb hle =>
    have hi := hget hc
    obtain ⟨hh, ht⟩ := hi.cursors_legal hl
    refine ⟨by simp, ?_, hs.host_wf, hs.host_inside, respond_legal (by simp), rfl, rfl⟩
    apply inv_set hs.rings_inv
    rw [Ring.putSpan_eq_pushAll _ _ (by intro h; rw [h] at hb; simp at hb; omega) (by omega)]
    exact hi.add hl _
  | readMem ra addr cnt c c' m hc hl hsp hu ha ht =>
    have hi := hget hc
    obtain ⟨hh, htl⟩ := hi.cursors_legal hl
    rw [Ring.takeSpans_eq _ _ _ _ _ _ htl (by omega) (by omega)] at ht
    simp only [Option.map_eq_some_iff, Nat.sub_zero, Prod.mk.injEq] at ht
    obtain ⟨bs, hbs, rfl, rfl⟩ := ht
    have hl' := (Ring.logicalFrom_eq_some.1 hbs).1
    refine ⟨by simp, ?_, Memory.writeSpan_wf _ _ hs.host_wf, ?_, respond_legal (by simp), rfl, rfl⟩
    · apply inv_set hs.rings_inv
      exact hi.dropBytes hl _ hu
    · intro p hp
      rcases Memory.mem_writeSpan hp with h | h
      · exact hs.host_inside p h
      · simp [Config.hostSpace]; omega
  | readMemBusy ra addr cnt c c' m b hc hl hsp hu ha ht hb hw =>
    have hi := hget hc
    obtain ⟨hh, htl⟩ := hi.cursors_legal hl
    rw [Ring.takeSpans_eq _ _ _ _ _ _ htl (by omega) (by omega)] at ht
    simp only [Option.map_eq_some_iff, Nat.sub_zero, Prod.mk.injEq] at ht
    obtain ⟨bs, hbs, rfl, rfl⟩ := ht
    have hl' := (Ring.logicalFrom_eq_some.1 hbs).1
    refine ⟨by simp, hs.rings_inv, Memory.writeSpan_wf _ _ hs.host_wf, ?_, by simp, rfl, rfl⟩
    · intro p hp
      rcases Memory.mem_writeSpan hp with h | h
      · exact hs.host_inside p h
      · simp [Config.hostSpace]; omega
  | writeFd ra dh cnt c bytes n rest hc hl hu hlen hr hn hle =>
    have hi := hget hc
    obtain ⟨hh, htl⟩ := hi.cursors_legal hl
    refine ⟨by simp, ?_, hs.host_wf, hs.host_inside, respond_legal (by simp), rfl, rfl⟩
    apply inv_set hs.rings_inv
    rw [Ring.advanceTail_eq_dropBytes _ _ (by omega)]
    exact hi.dropBytes hl _ (by omega)
  | copy ra rb cnt d c d' c' hd hc hne hdl hcl hu ht =>
    have hid := hget hd
    have hic := hget hc
    obtain ⟨hh, htl⟩ := hid.cursors_legal hdl
    obtain ⟨hhc, htc⟩ := hic.cursors_legal hcl
    rw [Ring.copySpans_eq _ _ _ _ _ hh htc (by omega) (by omega)] at ht
    simp only [Option.map_eq_some_iff, Nat.sub_zero, Prod.mk.injEq] at ht
    obtain ⟨bs, hbs, rfl, rfl⟩ := ht
    have hl' := (Ring.logicalFrom_eq_some.1 hbs).1
    refine ⟨by simp, ?_, hs.host_wf, hs.host_inside, respond_legal (by simp), rfl, rfl⟩
    have h1 : ∀ x ∈ (s.setRing rb (c.dropBytes cnt.toNat)).rings, x.Inv := inv_set hs.rings_inv (hic.dropBytes hcl _ hu)
    apply inv_set h1
    rw [← hl']; exact hid.add hdl bs

end Sys2Proof.Machine
end

