-- ==== Sys2Proof/Laws/PerInstr.lean ====
section
/-! SUPPORT. A law of every instruction: its encoding matches its own row of spec/opcode_table.json, and no other row. -/

namespace Sys2Proof.Laws.TableRow

/-- The bits that a row of the table fixes: bits 7:0 (RSV is 0, so this is OPC), and for QUERY bits 23:16, the selector. -/
structure Row where
  opc : BitVec 4
  sel : Option Byte
  deriving DecidableEq, Repr

/-- The word matches the row. -/
def Row.matches (r : Row) (w : CmdWord) : Bool :=
  decide (fieldOpc w = r.opc) && decide (fieldRsv w = 0#4) &&
    match r.sel with
    | none => true
    | some b => decide (fieldB8 w = b)

/-- The rows of the table, in its order. -/
def rows : List Row :=
  [⟨1#4, none⟩, ⟨2#4, none⟩, ⟨3#4, none⟩, ⟨4#4, some 0#8⟩, ⟨4#4, some 1#8⟩, ⟨4#4, some 2#8⟩, ⟨4#4, some 3#8⟩, ⟨4#4, some 4#8⟩, ⟨4#4, some 5#8⟩] ++
  [⟨4#4, some 6#8⟩, ⟨4#4, some 7#8⟩, ⟨5#4, none⟩, ⟨6#4, none⟩, ⟨7#4, none⟩, ⟨8#4, none⟩, ⟨9#4, none⟩, ⟨10#4, none⟩, ⟨11#4, none⟩]

/-- The place of an instruction's row in the table. -/
def index : Instr → Nat
  | .new _ _ => 0
  | .free _ => 1
  | .reset _ => 2
  | .queryBufsize _ => 3
  | .queryCapacity _ => 4
  | .queryFree _ => 5
  | .queryUsed _ => 6
  | .queryFull _ => 7
  | .queryEmpty _ => 8
  | .queryHead _ => 9
  | .queryTail _ => 10
  | .writeMem _ _ _ => 11
  | .readFd _ _ _ => 12
  | .readMem _ _ _ => 13
  | .writeFd _ _ _ => 14
  | .copy _ _ _ => 15
  | .find _ _ _ => 16
  | .fill _ _ _ => 17

/-- The instruction's encoding matches its own row of the table and no other one. -/
def Statement (i : Instr) : Prop :=
  rows.map (fun r => r.matches (encode i)) = (List.range 18).map (fun k => decide (k = index i))

theorem new (ra : RingId) (cnt : Count) : Statement (.new ra cnt) := by
  simp [Statement, rows, Row.matches, encode, index, List.range_succ]

theorem free (ra : RingId) : Statement (.free ra) := by
  simp [Statement, rows, Row.matches, encode, index, List.range_succ]

theorem reset (ra : RingId) : Statement (.reset ra) := by
  simp [Statement, rows, Row.matches, encode, index, List.range_succ]

theorem queryBufsize (ra : RingId) : Statement (.queryBufsize ra) := by
  simp [Statement, rows, Row.matches, encode, index, List.range_succ]

theorem queryCapacity (ra : RingId) : Statement (.queryCapacity ra) := by
  simp [Statement, rows, Row.matches, encode, index, List.range_succ]

theorem queryFree (ra : RingId) : Statement (.queryFree ra) := by
  simp [Statement, rows, Row.matches, encode, index, List.range_succ]

theorem queryUsed (ra : RingId) : Statement (.queryUsed ra) := by
  simp [Statement, rows, Row.matches, encode, index, List.range_succ]

theorem queryFull (ra : RingId) : Statement (.queryFull ra) := by
  simp [Statement, rows, Row.matches, encode, index, List.range_succ]

theorem queryEmpty (ra : RingId) : Statement (.queryEmpty ra) := by
  simp [Statement, rows, Row.matches, encode, index, List.range_succ]

theorem queryHead (ra : RingId) : Statement (.queryHead ra) := by
  simp [Statement, rows, Row.matches, encode, index, List.range_succ]

theorem queryTail (ra : RingId) : Statement (.queryTail ra) := by
  simp [Statement, rows, Row.matches, encode, index, List.range_succ]

theorem writeMem (ra : RingId) (addr : HostAddr) (cnt : Count) : Statement (.writeMem ra addr cnt) := by
  simp [Statement, rows, Row.matches, encode, index, List.range_succ]

theorem readFd (ra : RingId) (dh : Handle) (cnt : Count) : Statement (.readFd ra dh cnt) := by
  simp [Statement, rows, Row.matches, encode, index, List.range_succ]

theorem readMem (ra : RingId) (addr : HostAddr) (cnt : Count) : Statement (.readMem ra addr cnt) := by
  simp [Statement, rows, Row.matches, encode, index, List.range_succ]

theorem writeFd (ra : RingId) (dh : Handle) (cnt : Count) : Statement (.writeFd ra dh cnt) := by
  simp [Statement, rows, Row.matches, encode, index, List.range_succ]

theorem copy (ra rb : RingId) (cnt : Count) : Statement (.copy ra rb cnt) := by
  simp [Statement, rows, Row.matches, encode, index, List.range_succ]

theorem find (ra : RingId) (b8 : Byte) (cnt : Count) : Statement (.find ra b8 cnt) := by
  simp [Statement, rows, Row.matches, encode, index, List.range_succ]

theorem fill (ra : RingId) (b8 : Byte) (cnt : Count) : Statement (.fill ra b8 cnt) := by
  simp [Statement, rows, Row.matches, encode, index, List.range_succ]

end Sys2Proof.Laws.TableRow
end

