-- ==== Sys2Proof/Laws/Step.lean ====
section
/-! SUPPORT. Everything that a step can do when it answers a next state, said once; what the host's stores, one after
another or around a raced command, leave in host memory; and what a cut command leaves at the device. -/

namespace Sys2Proof.Machine

theorem mapNext_eq_next {f : State → State} {o : Host.Outcome State Fault Refusal} {t : State} :
    mapNext f o = .next t ↔ ∃ u, o = .next u ∧ t = f u := by
  cases o <;> simp [mapNext, eq_comm]

/-- An accepted word is refused by the decoder, or its instruction is executed. -/
theorem issue_cases {w : CmdWord} {s t : State} (h : issue w s = .next t) :
    (∃ r, decode s.rings.length w = .error r ∧ t = s.respond .illegal 0 false) ∨
    ∃ i, decode s.rings.length w = .ok i ∧ exec i s = .next t := by
  unfold issue at h
  split at h
  · rename_i r hr
    cases h
    exact .inl ⟨r, hr, rfl⟩
  · rename_i i hi
    exact .inr ⟨i, hi, h⟩

/-- The next states of a step, each with what the step found in the state before. -/
inductive StepEffect (s : State) : State → Prop where
  | drive (level : Bool) (rest : List HostInput) (hin : s.inputs = .rst level :: rest) :
      StepEffect s ({ s with inputs := rest }.driveRst level)
  | store (a : HostAddr) (v : Byte) (rest : List HostInput) (hin : s.inputs = .store a v :: rest) :
      StepEffect s ({ s with inputs := rest }.hostStore a v)
  /-- `rst` is 1, or no command is presented in phase IDLE. -/
  | waits (h : s.rst = true ∨ (s.rst = false ∧ s.phase = .idle ∧ s.inputs = [])) : StepEffect s s
  | take (q : RspWord) (hr : s.rst = false) (hp : s.phase = .resp q) : StepEffect s (s.take q)
  | command (w : CmdWord) (rest : List HostInput) (t : State) (hr : s.rst = false) (hp : s.phase = .idle)
      (hin : s.inputs = .command w :: rest) (h : issue w (s.accept rest) = .next t) : StepEffect s t
  | raced (w : CmdWord) (stores : List (HostAddr × Byte)) (rest : List HostInput) (u : State) (hr : s.rst = false)
      (hp : s.phase = .idle) (hin : s.inputs = .raced w stores :: rest)
      (h : issue w { (s.accept rest).hostStores (earlyStores s.draws 0 stores) with draws := s.draws + 1 } = .next u) :
      StepEffect s (u.hostStores (lateStores s.draws 0 stores))
  | cut (w : CmdWord) (rest : List HostInput) (u : State) (hr : s.rst = false) (hp : s.phase = .idle)
      (hin : s.inputs = .cut w :: rest) (h : issue w (s.accept rest).beforeCut = .next u) :
      StepEffect s ((s.accept rest).afterCut u)

/-- The controller's own move, where the host neither drives `rst` nor stores. -/
theorem stepController_effect {s t : State} (h : stepController s = .next t)
    (h1 : ∀ level rest, s.inputs ≠ .rst level :: rest) (h2 : ∀ a v rest, s.inputs ≠ .store a v :: rest) :
    StepEffect s t := by
  unfold stepController at h
  split at h
  · rename_i hr
    cases h
    exact .waits (.inl hr)
  rename_i hr
  have hr : s.rst = false := by simpa using hr
  split at h
  · cases h
  · rename_i q hq
    cases h
    exact .take q hr hq
  · rename_i hp
    split at h
    · rename_i w rest hin
      exact .command w rest t hr hp hin h
    · rename_i w stores rest hin
      obtain ⟨u, hu, rfl⟩ := mapNext_eq_next.1 h
      exact .raced w stores rest u hr hp hin hu
    · rename_i w rest hin
      obtain ⟨u, hu, rfl⟩ := mapNext_eq_next.1 h
      exact .cut w rest u hr hp hin hu
    · rename_i hin
      exact absurd hin (h1 _ _)
    · rename_i hin
      exact absurd hin (h2 _ _ _)
    · rename_i hin
      cases h
      exact .waits (.inr ⟨hr, hp, hin⟩)

/-- Whatever next state a step answers is one of its effects. -/
theorem step_effect {s t : State} (h : step s = .next t) : StepEffect s t := by
  unfold step at h
  split at h
  · rename_i level rest hin
    cases h
    exact .drive level rest hin
  · rename_i a v rest hin
    cases h
    exact .store a v rest hin
  all_goals
    rename_i hin
    exact stepController_effect h (by simp [hin]) (by simp [hin])

/-! ## Host stores -/

/-- The last byte that a run of stores stores at an address. -/
def lastStored : List (HostAddr × Byte) → Nat → Option Byte
  | [], _ => none
  | p :: rest, a => (lastStored rest a).or (if p.1.toNat = a then some p.2 else none)

theorem memRead_hostStore (s : State) (a : HostAddr) (v : Byte) (b : Nat) :
    (s.hostStore a v).memRead b = if b = a.toNat then v else s.memRead b := Memory.hostByte_write ..

/-- What the host's stores leave at an address (R74). -/
theorem memRead_hostStores (s : State) (stores : List (HostAddr × Byte)) (a : Nat) :
    (s.hostStores stores).memRead a = (lastStored stores a).getD (s.memRead a) := by
  induction stores generalizing s with
  | nil => rfl
  | cons p rest ih =>
    rw [State.hostStores, ih, memRead_hostStore, lastStored]
    cases lastStored rest a with
    | some x => rfl
    | none =>
      rcases eq_or_ne p.1.toNat a with rfl | h
      · simp
      · simp [h, h.symm]

theorem lastStored_mem {stores : List (HostAddr × Byte)} {a : Nat} {v : Byte} (h : lastStored stores a = some v) :
    ∃ p ∈ stores, p.1.toNat = a ∧ v = p.2 := by
  induction stores with
  | nil => cases h
  | cons p rest ih =>
    rw [lastStored, Option.or_eq_some_iff] at h
    rcases h with h | ⟨-, h⟩
    · obtain ⟨q, hq, hqa, hv⟩ := ih h
      exact ⟨q, List.mem_cons_of_mem _ hq, hqa, hv⟩
    · split at h
      · rename_i hp
        exact ⟨p, List.mem_cons_self, hp, (Option.some.inj h).symm⟩
      · cases h

theorem mem_of_mem_earlyStores {draw i : Nat} {stores : List (HostAddr × Byte)} {p : HostAddr × Byte}
    (h : p ∈ earlyStores draw i stores) : p ∈ stores := by
  induction stores generalizing i with
  | nil => exact h
  | cons q rest ih =>
    unfold earlyStores at h
    split at h
    · rcases List.mem_cons.1 h with rfl | h
      · exact List.mem_cons_self
      · exact List.mem_cons_of_mem _ (ih h)
    · exact List.mem_cons_of_mem _ (ih h)

theorem mem_of_mem_lateStores {draw i : Nat} {stores : List (HostAddr × Byte)} {p : HostAddr × Byte}
    (h : p ∈ lateStores draw i stores) : p ∈ stores := by
  induction stores generalizing i with
  | nil => exact h
  | cons q rest ih =>
    unfold lateStores at h
    split at h
    · exact List.mem_cons_of_mem _ (ih h)
    · rcases List.mem_cons.1 h with rfl | h
      · exact List.mem_cons_self
      · exact List.mem_cons_of_mem _ (ih h)

/-- After the command's access of an address only late stores to it come. -/
theorem lastStored_earlyStores_of_le {draw i a : Nat} (hi : Config.raceCut draw a ≤ i)
    (stores : List (HostAddr × Byte)) : lastStored (earlyStores draw i stores) a = none := by
  induction stores generalizing i with
  | nil => rfl
  | cons p rest ih =>
    unfold earlyStores
    split
    · rename_i hlt
      rw [lastStored, ih (by omega), Option.none_or, if_neg (by rintro rfl; omega)]
    · exact ih (by omega)

/-- Early and late stores together leave at each address what the whole run leaves there. -/
theorem lastStored_late_or_early (draw i a : Nat) (stores : List (HostAddr × Byte)) :
    (lastStored (lateStores draw i stores) a).or (lastStored (earlyStores draw i stores) a) = lastStored stores a := by
  induction stores generalizing i with
  | nil => rfl
  | cons p rest ih =>
    have h := ih (i + 1)
    unfold lateStores earlyStores
    by_cases hlt : i < Config.raceCut draw p.1.toNat
    · rw [if_pos hlt, if_pos hlt, lastStored, lastStored, ← Option.or_assoc, h]
    · rw [if_neg hlt, if_neg hlt, lastStored, lastStored]
      by_cases hp : p.1.toNat = a
      · subst hp
        rw [lastStored_earlyStores_of_le (by omega), Option.or_none] at h ⊢
        rw [h]
      · rw [if_neg hp, Option.or_none, Option.or_none, h]

/-! ## A cut request (R301) -/

/-- What the device has received of a request that was cut: nothing, all of it, or a write request with a part of its
bytes. -/
theorem firstEffects_cases {dh : Handle} {bytes : List Byte} (k : Nat) :
    (DevRequest.write dh bytes).firstEffects k = none ∨
    (DevRequest.write dh bytes).firstEffects k = some (.write dh bytes) ∨
    ∃ j, j < bytes.length ∧
      (DevRequest.write dh bytes).firstEffects k = some (.writePart dh bytes.length (bytes.take j)) := by
  unfold DevRequest.firstEffects
  by_cases h0 : k = 0
  · simp [h0]
  · by_cases hk : k ≤ bytes.length
    · exact .inr (.inr ⟨k - 1, by omega, by simp [h0, hk]⟩)
    · simp [h0, hk]

theorem requestsSince_append {s s' : State} {made : List DevRequest} (h : s'.requests = s.requests ++ made) :
    s'.requestsSince s = made := by
  rw [State.requestsSince, h, List.drop_left]

/-! ## What an instruction does not read -/

/-- Only READ_MEM writes host memory (R70). -/
theorem exec_hostMem {i : Instr} {s t : State} (hi : ∀ ra addr cnt, i ≠ .readMem ra addr cnt)
    (h : exec i s = .next t) : t.hostMem = s.hostMem := by
  cases exec_effect h <;> first | rfl | exact absurd rfl (hi _ _ _)

/-- The state with another host memory, other holes and another count of free choices. -/
def State.withHost (s : State) (m : Memory) (hs : List Hole) (d : Nat) : State :=
  { s with hostMem := m, holes := hs, draws := d }

theorem descRead_withHost (s : State) (m : Memory) (hs : List Hole) (d : Nat) (dh : Handle) (len : Nat) :
    descRead (s.withHost m hs d) dh len =
      match descRead s dh len with
      | .answer a t => .answer a (t.withHost m hs d)
      | .silent t => .silent (t.withHost m hs d)
      | .breach => .breach := by
  unfold descRead
  simp only [State.withHost]
  rcases s.readAnswers with _ | ⟨_ | a, rest⟩ <;> simp
  split <;> rfl

theorem descWrite_withHost (s : State) (m : Memory) (hs : List Hole) (d : Nat) (dh : Handle) (bytes : List Byte) :
    descWrite (s.withHost m hs d) dh bytes =
      match descWrite s dh bytes with
      | .answer n t => .answer n (t.withHost m hs d)
      | .silent t => .silent (t.withHost m hs d)
      | .breach => .breach := by
  unfold descWrite
  simp only [State.withHost]
  rcases s.writeAnswers with _ | ⟨_ | n, rest⟩ <;> simp
  split <;> rfl

/-- An instruction without a span in host memory sees of the state neither that memory nor its holes, nor the count of
free choices: with others of these it does the same (R70, R77). -/
theorem exec_withHost {i : Instr} {s : State} (m : Memory) (hs : List Hole) (d : Nat)
    (hw : ∀ ra addr cnt, i ≠ .writeMem ra addr cnt) (hr : ∀ ra addr cnt, i ≠ .readMem ra addr cnt) :
    exec i (s.withHost m hs d) = mapNext (fun t => t.withHost m hs d) (exec i s) := by
  have hlive : ∀ ra, (s.withHost m hs d).liveRing ra = s.liveRing ra := fun _ => rfl
  have hfresh : ∀ ra, (s.withHost m hs d).freshRing ra = s.freshRing ra := fun _ => rfl
  have hcopy : ∀ ra rb, (s.withHost m hs d).copyRings ra rb = s.copyRings ra rb := fun _ _ => rfl
  cases i with
  | writeMem => exact absurd rfl (hw _ _ _)
  | readMem => exact absurd rfl (hr _ _ _)
  | readFd ra dh cnt =>
    simp only [exec, execReadFd, hlive, descRead_withHost]
    split; · rfl
    split; · rfl
    cases descRead s dh _ <;> simp only []
    · (repeat' split) <;> rfl
    · rfl
    · rfl
  | writeFd ra dh cnt =>
    simp only [exec, execWriteFd, hlive, descWrite_withHost]
    split; · rfl
    split; · rfl
    split; · rfl
    split; · rfl
    cases descWrite s dh _ <;> simp only []
    · (repeat' split) <;> rfl
    · rfl
    · rfl
  | _ =>
    simp only [exec, execNew, execFree, execReset, execQueryBufsize, execQueryCapacity, execQueryFree, query,
      execQueryUsed, execQueryFull, execQueryEmpty, execQueryHead, execQueryTail, execCopy, execFind, execFill, hlive,
      hfresh, hcopy]
    (repeat' split) <;> rfl

/-- A command that reset will cut meets the hole at its cut, and the device of before or one that returns no result
(R301). -/
theorem beforeCut_cases (s : State) :
    let hs : List Hole := { base := Config.cutAt s.draws, size := Config.hostSpace, dir := .write } :: s.holes
    (Config.cutAnswered s.draws = true ∧ s.beforeCut = s.withHost s.hostMem hs s.draws) ∨
    (Config.cutAnswered s.draws = false ∧ s.beforeCut = s.silenced.withHost s.hostMem hs s.draws) := by
  unfold State.beforeCut
  cases Config.cutAnswered s.draws
  · exact .inr ⟨rfl, rfl⟩
  · exact .inl ⟨rfl, rfl⟩

/-- A reset to come takes accesses away and adds none (R301). -/
theorem admitted_beforeCut_le (s : State) (a n : Nat) : s.beforeCut.admitted .write a n ≤ s.admitted .write a n := by
  rw [State.admitted, State.admitted, State.beforeCut, List.foldr_cons]
  exact State.before_le ..

/-- It leaves every read of host memory admitted that was. -/
theorem admitted_read_beforeCut (s : State) (a n : Nat) : s.beforeCut.admitted .read a n = s.admitted .read a n := by
  rw [State.admitted, State.admitted, State.beforeCut, List.foldr_cons, Hole.before, if_neg (by simp)]

end Sys2Proof.Machine
end

