-- ==== Sys2Proof/Tests/Slice0.lean ====
section
/-! SUPPORT. Tests of the model: one step each on a small state. Expected values are the spec's own (30_encoding.md R119
and 95_test_vectors.md; the vector's id stands in each comment), and witnesses for the hypotheses of the statements in
Certificates/Slice0/Obligations.lean. -/

namespace Sys2Proof.Tests

open Sys2Proof Sys2Proof.Machine

/-! ## Helpers -/

/-- A live context of MAXCAP 8. -/
def ring (cap head tail : Nat) (sto : Memory) : Ring :=
  { maxCap := 8, live := true, cap := BitVec.ofNat 32 cap, head := BitVec.ofNat 32 head, tail := BitVec.ofNat 32 tail
    sto := sto }

/-- A context that is not live. -/
def dead : Ring := Ring.afterReset 8

/-- The machine with the contexts given. -/
def st (rings : List Ring) : State := { State.reset with rings := rings }

/-- The response the outcome presents. -/
def rspOf : Host.Outcome State Fault Refusal → Option RspWord
  | .next s => s.response
  | _ => none

/-- The contexts of the next state. -/
def ringsOf : Host.Outcome State Fault Refusal → Option (List Ring)
  | .next s => some s.rings
  | _ => none

/-- Host memory of the next state. -/
def hostOf : Host.Outcome State Fault Refusal → Option Memory
  | .next s => some s.hostMem
  | _ => none

/-- The device's requests in the next state. -/
def requestsOf : Host.Outcome State Fault Refusal → Option (List DevRequest)
  | .next s => some s.requests
  | _ => none

/-- The instruction decoded, where there is one. -/
def decoded (w : CmdWord) : Option Instr := decodeTableWord 128 w.toNat

/-- Why a word is refused by the decoder of a machine of two contexts. -/
def refusedFor (w : CmdWord) : Option IllegalReason :=
  match decode 2 w with
  | .ok _ => none
  | .error r => some r

/-! ## Words of R119 -/

theorem test_decode_new : decoded 0x00000000000000000000000400000101 = some (.new 1 4) := by decide
theorem test_decode_free : decoded 0x00000000000000000000000000000102 = some (.free 1) := by decide
theorem test_decode_reset : decoded 0x00000000000000000000000000000003 = some (.reset 0) := by decide
theorem test_decode_query_full : decoded 0x00000000000000000000000000040104 = some (.queryFull 1) := by decide
theorem test_decode_write_mem : decoded 0x00000000000001000000000300000005 = some (.writeMem 0 0x100 3) := by decide
theorem test_decode_read_fd : decoded 0x00000000000000000000000407000006 = some (.readFd 0 7 4) := by decide
theorem test_decode_read_mem : decoded 0x00000000000002000000000300000007 = some (.readMem 0 0x200 3) := by decide
theorem test_decode_write_fd : decoded 0x00000000000000000000000408000008 = some (.writeFd 0 8 4) := by decide
theorem test_decode_copy : decoded 0x00000000000000000000000400000109 = some (.copy 1 0 4) := by decide
theorem test_decode_find : decoded 0x0000000000000000000000000004010A = some (.find 1 4 0) := by decide
theorem test_decode_fill : decoded 0x00000000000000000000000200AA000B = some (.fill 0 0xAA 2) := by decide

/-! ## The decode and priority vectors DC1-DC12 -/

/-- DC1, DC2, DC3, DC8. -/
theorem test_refused_by_the_decoder :
    refusedFor 0x0 = some .badOpcode ∧ refusedFor 0xC = some .badOpcode ∧ refusedFor 0xF1 = some .rsvNonzero ∧
    refusedFor 0x70014 = some .rsvNonzero := by decide

/-- DC7, and R116's order: a ring id that names no context comes before a reserved selector. -/
theorem test_refused_selector :
    refusedFor 0x80004 = some .badSelector ∧ refusedFor 0xFF0104 = some .badSelector ∧
    refusedFor 0x80204 = some .badRing := by decide

/-- DC12. -/
theorem test_unused_field_ignored : decoded 0x0000000700000002 = some (.free 0) := by decide

/-- DC4, DC5, DC6, DC9, DC10, DC11: the operand checks name the reason that R116 reaches first. -/
theorem test_operand_checks :
    (st [ring 4 2 0 [], dead]).freshRing 2 = .error .badRing ∧
    (st [ring 4 2 0 [], dead]).copyRings 0 5 = .error .badRing ∧
    (st [ring 4 2 0 [], dead]).copyRings 0 0 = .error .sameRing ∧
    (st [ring 4 2 0 [], dead]).copyRings 0 1 = .error .notLive ∧
    (st [ring 4 2 0 [], dead]).liveRingSpan 0 0xFFFFFFFFFFFFFFFF 2 = .error .spanWrap ∧
    (st [ring 4 2 0 [], dead]).liveRingSpan 1 0xFFFFFFFFFFFFFFFF 2 = .error .notLive ∧
    (st [ring 4 2 0 [], dead]).freshRing 0 = .error .live := by decide

/-! ## WellFormed refuses an ill-formed instruction, one for each check -/

theorem test_wellFormed_ring : (Instr.free 2).wellFormed 2 = false ∧ (Instr.free 1).wellFormed 2 = true := by decide
theorem test_wellFormed_capacity : (Instr.new 0 0).wellFormed 2 = false ∧ (Instr.new 0 1).wellFormed 2 = true := by decide
theorem test_wellFormed_span :
    (Instr.writeMem 0 0xFFFFFFFFFFFFFFFF 2).wellFormed 2 = false ∧
    (Instr.readMem 0 0xFFFFFFFFFFFFFFF0 17).wellFormed 2 = false ∧
    (Instr.readMem 0 0xFFFFFFFFFFFFFFF0 16).wellFormed 2 = true := by decide
theorem test_wellFormed_source : (Instr.copy 0 5 1).wellFormed 2 = false := by decide
theorem test_wellFormed_same_ring : (Instr.copy 1 1 1).wellFormed 2 = false ∧ (Instr.copy 1 0 1).wellFormed 2 = true := by
  decide

/-! ## The assembler (R117) -/

theorem test_assembler_line :
    Assembler.assemble "WRITE_FD r15, fd255, 0xffffffff ; all" = some 0x0000000000000000FFFFFFFFFF000F08 ∧
    Assembler.readLine "  ; nothing" = .empty ∧ Assembler.readLine "NEW r16, 4" = .malformed ∧
    Assembler.readLine "new r0, 4" = .malformed := by decide

/-! ## Lifecycle and queries -/

/-- LC2, LC3. -/
theorem test_new_at_maxcap :
    ringsOf (exec (.new 0 8) State.reset) = some [ring 8 0 0 [], dead] ∧
    rspOf (exec (.new 0 9) State.reset) = some 0x000000000000000002 := by decide
/-- LC4, LC5, LC6. -/
theorem test_new_refused :
    rspOf (exec (.new 0 0) State.reset) = some 0x000000000000000004 ∧
    rspOf (exec (.new 0 0xFFFFFFFF) State.reset) = some 0x000000000000000002 ∧
    rspOf (exec (.new 0 4) (st [ring 4 0 0 [], dead])) = some 0x000000000000000004 := by decide
/-- LC7, LC8. -/
theorem test_free :
    ringsOf (exec (.free 0) (st [ring 4 2 4 [(1, 9)], dead])) = some [{ dead with sto := [(1, 9)] }, dead] ∧
    rspOf (exec (.free 0) (st [dead, dead])) = some 0x000000000000000004 := by decide
/-- LC10, LC12. -/
theorem test_reset :
    ringsOf (exec (.reset 0) (st [ring 4 2 4 [(1, 9)], dead])) = some [ring 4 0 0 [(1, 9)], dead] ∧
    rspOf (exec (.reset 0) (st [dead, dead])) = some 0x000000000000000004 := by decide
/-- The rows `h = 2, t = 4` and `h = 4, t = 0` of the query table. -/
theorem test_query_size_and_capacity :
    rspOf (exec (.queryBufsize 0) (st [ring 4 2 4 []])) = some 0x500 ∧
    rspOf (exec (.queryCapacity 0) (st [ring 4 2 4 []])) = some 0x400 := by decide
theorem test_query_free_and_used :
    rspOf (exec (.queryFree 0) (st [ring 4 2 4 []])) = some 0x100 ∧
    rspOf (exec (.queryUsed 0) (st [ring 4 2 4 []])) = some 0x300 ∧
    rspOf (exec (.queryFree 0) (st [ring 4 4 0 []])) = some 0x000 := by decide
theorem test_query_full_and_empty :
    rspOf (exec (.queryFull 0) (st [ring 4 4 0 []])) = some 0x100 ∧
    rspOf (exec (.queryFull 0) (st [ring 4 2 4 []])) = some 0x000 ∧
    rspOf (exec (.queryEmpty 0) (st [ring 4 2 2 []])) = some 0x100 := by decide
theorem test_query_head_and_tail :
    rspOf (exec (.queryHead 0) (st [ring 4 2 4 []])) = some 0x200 ∧
    rspOf (exec (.queryTail 0) (st [ring 4 2 4 []])) = some 0x400 := by decide

/-! ## Data movement -/

/-- V5: three passes. -/
theorem test_write_mem_three_passes :
    ringsOf (exec (.writeMem 0 0x100 12) { st [ring 4 0 0 [], dead] with
      hostMem := (List.range 12).map (fun i => (0x100 + i, BitVec.ofNat 8 (i + 1))) })
      = some [ring 4 2 3 [(0, 11), (1, 12), (2, 8), (3, 9), (4, 10)], dead] := by decide
/-- V3: the response word of an overflow. -/
theorem test_write_mem_overflow_word :
    rspOf (exec (.writeMem 0 0x100 1) { st [ring 4 4 0 []] with hostMem := [(0x100, 5)] }) = some 0x000000000000000008 := by
  decide
/-- F1. -/
theorem test_fill_clamped :
    ringsOf (exec (.fill 0 0x39 9) (st [ring 4 0 0 []]))
      = some [ring 4 0 1 [(0, 0x39), (1, 0x39), (2, 0x39), (3, 0x39), (4, 0x39)]] ∧
    rspOf (exec (.fill 0 0x39 9) (st [ring 4 0 0 []])) = some 0x000000000000000508 := by decide
/-- F5: the fixup moves TAIL from the last cell to 0. -/
theorem test_fill_full :
    ringsOf (exec (.fill 0 7 1) (st [ring 4 3 4 [(0, 1), (1, 2), (2, 3), (4, 0)]]))
      = some [ring 4 4 0 [(0, 1), (1, 2), (2, 3), (3, 7), (4, 0)]] := by decide
/-- RF1. -/
theorem test_read_fd :
    ringsOf (exec (.readFd 0 7 10) { st [ring 4 0 0 []] with readAnswers := [some ⟨5, [1, 2, 3, 4, 5]⟩] })
      = some [ring 4 0 1 [(0, 1), (1, 2), (2, 3), (3, 4), (4, 5)]] := by decide
/-- RF4: a negative result. -/
theorem test_read_fd_error :
    rspOf (exec (.readFd 0 7 4) { st [ring 4 3 1 []] with readAnswers := [some ⟨-5, []⟩] })
      = some 0xFFFFFFFFFFFFFFFB03 := by decide
/-- M3. -/
theorem test_read_mem :
    hostOf (exec (.readMem 0 0x200 3) (st [ring 4 1 3 [(0, 0xC), (3, 0xA), (4, 0xB)]]))
      = some [(0x200, 0xA), (0x201, 0xB), (0x202, 0xC)] ∧
    ringsOf (exec (.readMem 0 0x200 3) (st [ring 4 1 3 [(0, 0xC), (3, 0xA), (4, 0xB)]]))
      = some [ring 4 1 1 [(0, 0xC), (3, 0xA), (4, 0xB)]] := by decide
/-- M2. -/
theorem test_read_mem_underflow :
    rspOf (exec (.readMem 0 0x200 4) (st [ring 4 1 3 [(0, 0xC), (3, 0xA), (4, 0xB)]])) = some 0x000000000000000011 := by
  decide
/-- W1. -/
theorem test_write_fd :
    ringsOf (exec (.writeFd 0 8 3) { st [ring 4 1 3 [(0, 0xC), (3, 0xA), (4, 0xB)]] with writeAnswers := [some 2] })
      = some [ring 4 1 0 [(0, 0xC), (3, 0xA), (4, 0xB)]] ∧
    requestsOf (exec (.writeFd 0 8 3) { st [ring 4 1 3 [(0, 0xC), (3, 0xA), (4, 0xB)]] with writeAnswers := [some 2] })
      = some [.write 8 [0xA, 0xB]] := by decide
/-- W4. -/
theorem test_write_fd_error :
    rspOf (exec (.writeFd 0 8 3) { st [ring 4 1 3 [(0, 0xC), (3, 0xA), (4, 0xB)]] with writeAnswers := [some (-9)] })
      = some 0xFFFFFFFFFFFFFFF703 := by decide
/-- K1: spans 1, 1, 1. -/
theorem test_copy :
    ringsOf (exec (.copy 1 0 3) (st [ring 4 2 4 [(0, 0x51), (1, 0x52), (4, 0x50)], ring 4 3 3 []]))
      = some [ring 4 2 2 [(0, 0x51), (1, 0x52), (4, 0x50)], ring 4 1 3 [(0, 0x52), (3, 0x50), (4, 0x51)]] := by decide
/-- K3: the destination overflows. -/
theorem test_copy_overflow :
    ringsOf (exec (.copy 1 0 4) (st [ring 4 4 0 [(0, 1), (1, 2), (2, 3), (3, 4)], ring 2 0 0 []]))
      = some [ring 4 4 4 [(0, 1), (1, 2), (2, 3), (3, 4)], ring 2 1 2 [(0, 4), (1, 2), (2, 3)]] ∧
    rspOf (exec (.copy 1 0 4) (st [ring 4 4 0 [(0, 1), (1, 2), (2, 3), (3, 4)], ring 2 0 0 []]))
      = some 0x000000000000000108 := by decide
/-- FB2, FB4: stale bytes are never matched. -/
theorem test_find :
    rspOf (exec (.find 0 0x41 1) (st [ring 4 2 4 [(0, 0x42), (1, 0x41), (2, 0x43), (3, 0x43), (4, 0x41)]])) = some 0x200 ∧
    rspOf (exec (.find 0 0x43 0) (st [ring 4 2 4 [(0, 0x42), (1, 0x41), (2, 0x43), (3, 0x43), (4, 0x41)]])) = some 0x300 := by
  decide
/-- FB6, FB7. -/
theorem test_find_none :
    rspOf (exec (.find 0 0x41 100) (st [ring 4 2 4 [(0, 0x42), (1, 0x41), (4, 0x41)]])) = some 0x300 ∧
    rspOf (exec (.find 0 0x01 0) (st [ring 4 2 2 [(0, 1), (1, 1), (2, 1)]])) = some 0 := by decide

/-! ## The step -/

/-- P4, command 4, as the first instruction after reset. -/
theorem test_first_command :
    ringsOf (step (State.reset.withFetchWord 128 0x0000000400000001)) = some [ring 4 0 0 [], dead] ∧
    rspOf (step (State.reset.withFetchWord 128 0x0000000400000001)) = some 0 := by decide

/-! ## Witnesses: states and operands that meet the hypotheses of each statement that has some -/

/-- What makes up the invariant of a context, as something that can be decided. -/
theorem inv_of_decided {c : Ring}
    (h : (1 ≤ c.maxCap ∧ c.maxCap ≤ Config.maxMaxCap ∧ c.sto.wf ∧ ∀ p ∈ c.sto, p.1 ≤ c.maxCap) ∧
      (c.live = true → 1 ≤ c.cap.toNat ∧ c.cap.toNat ≤ c.maxCap) ∧
      (c.live = true → c.head.toNat < c.size ∧ c.tail.toNat < c.size) ∧
      (c.live = true → ∀ i, i < c.used → c.logicalByte i ≠ none) ∧
      (c.live = false → c.cap = 0 ∧ c.head = 0 ∧ c.tail = 0)) : c.Inv :=
  ⟨h.1.1, h.1.2.1, h.1.2.2.1, h.1.2.2.2, h.2.1, h.2.2.1, h.2.2.2.1, h.2.2.2.2⟩

theorem stateInv_of_rings {s : State} (h : ∀ c ∈ s.rings, c.Inv) (hr : s.response = none) (ht : s.taken = [])
    (h0 : s.rst = false) (hm : s.hostMem = []) (hn : 1 ≤ s.rings.length ∧ s.rings.length ≤ 16) : s.Inv :=
  ⟨hn.1, hn.2, h, by rw [hm]; exact List.Pairwise.nil, by rw [hm]; exact nofun, by rw [hr]; exact nofun,
    by rw [ht]; exact nofun, by rw [h0]; exact nofun⟩

/-- Three bytes used, across the storage end: `A B C` of the vectors. -/
def abc : Ring := ring 4 1 3 [(0, 0xC), (3, 0xA), (4, 0xB)]
/-- Full. -/
def full : Ring := ring 4 4 0 [(0, 1), (1, 2), (2, 3), (3, 4)]
/-- Empty, cursors at the last cell. -/
def empty : Ring := ring 4 4 4 []
/-- Capacity 1, empty. -/
def tiny : Ring := ring 1 1 1 []

theorem abc_inv : abc.Inv := inv_of_decided (by decide)
theorem full_inv : full.Inv := inv_of_decided (by decide)
theorem empty_inv : empty.Inv := inv_of_decided (by decide)
theorem tiny_inv : tiny.Inv := inv_of_decided (by decide)
theorem dead_inv : dead.Inv := inv_of_decided (by decide)

/-- A source, a destination, a full context, an empty one and one that is not live. -/
def sample : State := { State.reset with rings := [abc, empty, full, tiny, dead] }

theorem sample_inv : sample.Inv :=
  stateInv_of_rings (by
    intro c hc
    simp only [sample, List.mem_cons, List.not_mem_nil, or_false] at hc
    rcases hc with rfl | rfl | rfl | rfl | rfl
    · exact abc_inv
    · exact empty_inv
    · exact full_inv
    · exact tiny_inv
    · exact dead_inv) rfl rfl rfl rfl (by decide)

/-- A command presented. -/
def presented (w : CmdWord) : State := { sample with inputs := [.command w] }


theorem witness_ResponseFieldsHoldStatusFlagsAndResult :
    (-2 ^ 63 : Int) ≤ -2 ^ 63 ∧ (-2 ^ 63 : Int) < 2 ^ 63 ∧ (-2 ^ 63 : Int) ≤ 2 ^ 63 - 1 ∧ (2 ^ 63 - 1 : Int) < 2 ^ 63 := by
  decide

theorem witness_StepRunsTheDecodedInstruction :
    (presented 0x103).rst = false ∧ (presented 0x103).phase = .idle ∧ (presented 0x103).inputs = [.command 0x103] ∧
    decode (presented 0x103).rings.length 0x103 = .ok (.reset 1) := ⟨rfl, rfl, rfl, rfl⟩

/-- A word for each disjunct: the two ends of each range of opcodes, RSV 1, selector 8. -/
theorem witness_ReservedEncodingsAreIllegal :
    (presented 0xC).rst = false ∧ (presented 0xC).phase = .idle ∧ (presented 0xC).inputs = [.command 0xC] ∧
    (((0x0 : CmdWord).extractLsb' 0 4).toNat ∈ [0x0, 0xC, 0xD, 0xE, 0xF]) ∧
    (((0xC : CmdWord).extractLsb' 0 4).toNat ∈ [0x0, 0xC, 0xD, 0xE, 0xF]) ∧
    (((0xF : CmdWord).extractLsb' 0 4).toNat ∈ [0x0, 0xC, 0xD, 0xE, 0xF]) ∧
    ((0x11 : CmdWord).extractLsb' 4 4 ≠ 0#4) ∧
    (((0x80004 : CmdWord).extractLsb' 0 4).toNat = 4 ∧ 8 ≤ ((0x80004 : CmdWord).extractLsb' 16 8).toNat) := by decide

/-- One word for each check of R116, at the edge where the check begins to fail, and words that pass all of them. -/
theorem witness_DecodeAndAdmissionFollowTheListedChecks :
    (presented 0x3).rst = false ∧ (presented 0x3).phase = .idle ∧ (presented 0x3).inputs = [.command 0x3] ∧
    firstFailedCheck sample 0xC = some .badOpcode ∧ firstFailedCheck sample 0x1C = some .badOpcode ∧
    firstFailedCheck sample 0x513 = some .rsvNonzero ∧ firstFailedCheck sample 0x503 = some .badRing ∧
    firstFailedCheck sample 0x80504 = some .badRing ∧ firstFailedCheck sample 0x5009 = some .badRing ∧
    firstFailedCheck sample 0x4409 = some .sameRing ∧ firstFailedCheck sample 0x80404 = some .badSelector ∧
    firstFailedCheck sample 0x1 = some .live ∧ firstFailedCheck sample 0x403 = some .notLive ∧
    firstFailedCheck sample 0x4009 = some .notLive ∧
    firstFailedCheck sample 0xFFFFFFFFFFFFFFFF0000000200000005 = some .spanWrap ∧
    firstFailedCheck sample 0xFFFFFFFFFFFFFFFF0000000100000005 = none ∧ firstFailedCheck sample 0x70404 = some .notLive ∧
    firstFailedCheck sample 0x70304 = none ∧ firstFailedCheck sample 0x401 = none ∧
    firstFailedCheck sample 0x0109 = none := by decide

theorem witness_IdleWaitsAndResponsesAreTakenFirst :
    (sample.rst = false ∧ sample.phase = .idle ∧ sample.inputs = []) ∧
    ((sample.respond .ok 3 false).rst = false ∧ (sample.respond .ok 3 false).phase = .resp 0x300 ∧
      (sample.respond .ok 3 false).inputs = []) ∧
    ({ presented 0x3 with phase := .resp 0x300 }.rst = false ∧
      { presented 0x3 with phase := .resp 0x300 }.phase = .resp 0x300 ∧
      ∃ w rest, { presented 0x3 with phase := .resp 0x300 }.inputs = .command w :: rest) ∧
    { sample with inputs := [.raced 0x3 []] }.inputs = [.raced 0x3 []] ∧
    { sample with inputs := [.cut 0x3] }.inputs = [.cut 0x3] :=
  ⟨⟨rfl, rfl, rfl⟩, ⟨rfl, by decide, rfl⟩, ⟨rfl, rfl, _, _, rfl⟩, rfl, rfl⟩

/-- A READ_FD that the device never answers. -/
def waiting : Busy := { instr := .readFd 0 7 2, prediction := .free0 1, done := 0, wait := .device (.read 7 2) }

/-- An input for each clause. -/
theorem witness_BusyIsLeftOnlyByReset :
    (sample.stall waiting).rst = false ∧ (sample.stall waiting).phase = .busy waiting ∧ (sample.stall waiting).inputs = [] ∧
    (∀ x : HostInput, { sample.stall waiting with inputs := [x] }.phase = .busy waiting ∧
      { sample.stall waiting with inputs := [x] }.inputs = [x]) ∧
    (∃ t, step { sample.stall waiting with inputs := [.store 0x100 7] } = .next t) ∧
    (∃ t, step { sample.stall waiting with inputs := [.rst false] } = .next t) ∧
    (∃ t, step { sample.stall waiting with inputs := [.rst true] } = .next t) :=
  ⟨rfl, rfl, rfl, fun _ => ⟨rfl, rfl⟩, ⟨_, rfl⟩, ⟨_, rfl⟩, _, rfl⟩

theorem witness_HardwareResetSetsEveryResetValue :
    ({ sample.stall waiting with inputs := [.rst true] }.inputs = [.rst true]) ∧ sample.hardwareReset.rst = true ∧
    ({ sample.hardwareReset with inputs := [.command 0x3] }.inputs = [.command 0x3]) ∧
    ({ sample.stall waiting with inputs := [.rst true, .rst false] }.inputs = [.rst true, .rst false]) := ⟨rfl, rfl, rfl, rfl⟩

theorem sample_inputs_inv (l : List HostInput) : { sample with inputs := l }.Inv := sample_inv.congr rfl rfl rfl rfl rfl

/-- FILL of three bytes into the context that holds three, an overflow. -/
theorem witness_EveryStepKeepsTheInvariant :
    (presented 0x0000000300AA000B).Inv ∧ ∃ t, step (presented 0x0000000300AA000B) = .next t := ⟨sample_inputs_inv _, _, rfl⟩

/-- A word whose command runs on the sample is cut there, and reset follows; the sample's device returns no result. -/
theorem sample_cut (w : CmdWord)
    (h : ∃ t, issue w ({ sample with index := 1 }.withHost []
      [{ base := Config.cutAt 0, size := Config.hostSpace, dir := .write }] 0) = .next t) :
    { sample with inputs := [.cut w] }.Inv ∧ ∃ t, step { sample with inputs := [.cut w] } = .next t := by
  obtain ⟨t, ht⟩ := h
  refine ⟨sample_inputs_inv _, _, mapNext_eq_next.2 ⟨t, ?_, rfl⟩⟩
  rcases beforeCut_cases { sample with index := 1 } with ⟨-, hc⟩ | ⟨-, hc⟩ <;> exact hc ▸ ht

/-- A FILL, a READ_FD without an answer, and a WRITE_FD that sends two bytes. -/
theorem witness_ResetDuringACommandAbandonsIt :
    sample.rst = false ∧ sample.phase = .idle ∧
    ({ sample with inputs := [.cut 0x0000000300AA000B] }.Inv ∧
      ∃ t, step { sample with inputs := [.cut 0x0000000300AA000B] } = .next t) ∧
    ({ sample with inputs := [.cut 0x0000000207000006] }.Inv ∧
      ∃ t, step { sample with inputs := [.cut 0x0000000207000006] } = .next t) ∧
    ({ sample with inputs := [.cut 0x0000000308000008] }.Inv ∧
      ∃ t, step { sample with inputs := [.cut 0x0000000308000008] } = .next t) :=
  ⟨rfl, rfl, sample_cut _ ⟨_, rfl⟩, sample_cut _ ⟨_, rfl⟩, sample_cut _ ⟨_, rfl⟩⟩

/-- A READ_FD of two bytes, cut, on a device whose next result is three bytes long: without the cut it has no step. -/
theorem witness_ACutCommandStopsOnlyOnAReturnedResult :
    let s : State := { sample with
      inputs := [.cut 0x0000000207000006], readAnswers := [some { n := 3#64, bytes := [1, 2, 3] }] }
    s.Inv ∧ s.rst = false ∧ s.phase = .idle ∧ s.inputs = [.cut 0x0000000207000006] ∧
    issue 0x0000000207000006 (s.accept []) = .fault .deviceContract :=
  ⟨sample_inv.congr rfl rfl rfl rfl rfl, rfl, rfl, rfl, rfl⟩

theorem witness_RacedWriteMemReadsOldOrNewBytes :
    sample.rst = false ∧ sample.phase = .idle ∧
    decode sample.rings.length 0x00000000000001000000000100000005 = .ok (.writeMem 0 0x100 1) ∧
    ∃ t, step { sample with inputs := [.raced 0x00000000000001000000000100000005 [(0x100, 7)]] } = .next t := by
  refine ⟨rfl, rfl, by decide, ?_⟩
  change ∃ t, issueRaced _ _ _ = .next t
  rw [issueRaced, State.hostStores_only_hostMem]
  exact ⟨_, rfl⟩

/-- A clause each: live; not live with capacity 0, MAXCAP + 1, 1 and MAXCAP. -/
theorem witness_NewConstructsAnEmptyContext :
    (sample.rings[(0 : RingId).toNat]? = some abc ∧ abc.live = true) ∧
    (sample.rings[(4 : RingId).toNat]? = some dead ∧ dead.live = false) ∧ (0 : Count).toNat = 0 ∧
    (1 ≤ (9 : Count).toNat ∧ dead.maxCap < (9 : Count).toNat) ∧ (1 ≤ (1 : Count).toNat ∧ (1 : Count).toNat ≤ dead.maxCap) ∧
    (1 ≤ (8 : Count).toNat ∧ (8 : Count).toNat ≤ dead.maxCap) := by decide

theorem witness_FreeDestroysTheContext :
    sample.rings[(0 : RingId).toNat]? = some abc ∧ abc.live = true ∧ (0 : RingId) ∈ namedRings (.copy 1 0 2) ∧
    (∀ cnt, Instr.copy 1 0 2 ≠ .new 0 cnt) := ⟨by decide, rfl, by decide, nofun⟩

theorem witness_ADeadContextRefusesAllButNew :
    (4 : RingId) ∈ namedRings (.free 4) ∧ (∀ cnt, Instr.free 4 ≠ .new 4 cnt) ∧
    (4 : RingId) ∈ namedRings (.copy 0 4 1) ∧ (∀ cnt, Instr.copy 0 4 1 ≠ .new 4 cnt) ∧
    sample.rings[(4 : RingId).toNat]? = some dead ∧ dead.live = false :=
  ⟨by decide, nofun, by decide, nofun, by decide, rfl⟩

theorem witness_ResetEmptiesTheContext :
    (sample.rings[(2 : RingId).toNat]? = some full ∧ full.live = true) ∧
    (sample.rings[(4 : RingId).toNat]? = some dead ∧ dead.live = false) := by decide

/-- Cursors at 0 and at CAP, in both orders. -/
theorem witness_QueriesAnswerTheirValue :
    (sample.rings[(2 : RingId).toNat]? = some full ∧ full.live = true ∧ full.head.toNat ≤ full.cap.toNat ∧
      full.tail.toNat ≤ full.cap.toNat ∧ full.head.toNat = full.cap.toNat ∧ full.tail.toNat = 0) ∧
    (sample.rings[(1 : RingId).toNat]? = some empty ∧ empty.live = true ∧ empty.head.toNat ≤ empty.cap.toNat ∧
      empty.tail.toNat ≤ empty.cap.toNat ∧ empty.tail.toNat = empty.cap.toNat) ∧
    (abc.head.toNat < abc.tail.toNat ∧ abc.tail.toNat ≤ abc.cap.toNat) := by decide

theorem witness_QueryResultsObeyTheirLaws :
    sample.rings[(0 : RingId).toNat]? = some abc ∧ abc.live = true ∧ abc.Inv := ⟨by decide, rfl, abc_inv⟩

theorem witness_EmptyAndFullByTheCursors :
    (empty.live = true ∧ empty.Inv ∧ empty.isEmpty = true) ∧ (full.live = true ∧ full.Inv ∧ full.isFull = true) :=
  ⟨⟨rfl, empty_inv, by decide⟩, rfl, full_inv, by decide⟩

/-- A full context, so that the last used byte is the one before the sentinel slot. -/
theorem witness_TheByteAtHeadIsNeverUsed : full.live = true ∧ full.Inv ∧ 3 < full.used := ⟨rfl, full_inv, by decide⟩

theorem witness_StatusOutputsShowEmptyAndFull :
    (sample.rings[2]? = some full ∧ full.Inv) ∧
    ∃ t b, exec (.readFd 0 7 2) sample = .next t ∧ t.phase = .busy b := ⟨⟨by decide, full_inv⟩, _, _, rfl, rfl⟩

/-- HEAD in the middle, and in the last cell. -/
theorem witness_FixupLeavesTheContextFull : abc.head.toNat < abc.size ∧ full.head.toNat < full.size ∧
    full.head.toNat + 1 = full.size := by decide

/-- No byte, bytes that fit, more bytes than `2S`; and a span that ends with the address space. -/
theorem witness_WriteMemHasItsClosedForm :
    sample.rings[(0 : RingId).toNat]? = some abc ∧ abc.live = true ∧ abc.head.toNat < abc.size ∧ abc.tail.toNat < abc.size ∧
    ((0x100 : HostAddr).toNat + (12 : Count).toNat ≤ 2 ^ 64 ∧
      ∀ j, j < (12 : Count).toNat → sample.hostAdmits ((0x100 : HostAddr).toNat + j) .read = true) ∧
    ((0xFFFFFFFFFFFFFFFF : HostAddr).toNat + (1 : Count).toNat ≤ 2 ^ 64 ∧
      ∀ j, j < (1 : Count).toNat → sample.hostAdmits ((0xFFFFFFFFFFFFFFFF : HostAddr).toNat + j) .read = true) ∧
    (∀ j, j < (0 : Count).toNat → sample.hostAdmits ((0x100 : HostAddr).toNat + j) .read = true) := by decide

/-- `j = 1` and `j = CAP`. -/
theorem witness_OverflowKeepsTheLastCapacityBytes :
    sample.rings[(0 : RingId).toNat]? = some abc ∧ abc.live = true ∧ abc.Inv ∧
    (1 ≤ abc.cap.toNat ∧ (5 : Count).toNat = abc.cap.toNat + 1) ∧ (8 : Count).toNat = abc.cap.toNat + abc.cap.toNat ∧
    (0x100 : HostAddr).toNat + (8 : Count).toNat ≤ 2 ^ 64 ∧
    (∀ k, k < (8 : Count).toNat → sample.hostAdmits ((0x100 : HostAddr).toNat + k) .read = true) :=
  ⟨by decide, rfl, abc_inv, by decide, by decide, by decide, by decide⟩

theorem witness_FillHasItsClosedForm :
    sample.rings[(1 : RingId).toNat]? = some empty ∧ empty.live = true ∧ empty.head.toNat < empty.size ∧
    empty.tail.toNat < empty.size := by decide

/-- The device's answers, each at the edge of its contract: an error, no byte, one byte, all `len` bytes. -/
theorem witness_ReadFdMakesOneClampedRequest :
    sample.rings[(0 : RingId).toNat]? = some abc ∧ abc.live = true ∧ abc.head.toNat < abc.size ∧ abc.tail.toNat < abc.size ∧
    (0 : Count).toNat = 0 ∧ 1 ≤ (9 : Count).toNat ∧ sample.readAnswers = [] ∧
    ({ sample with readAnswers := [none] }.readAnswers = [none]) ∧
    min (9 : Count).toNat (abc.size - abc.head.toNat) = 4 ∧
    ((⟨-1, []⟩ : ReadAnswer).keepsContract 4 = true ∧ (⟨0, []⟩ : ReadAnswer).keepsContract 4 = true ∧
      (⟨1, [7]⟩ : ReadAnswer).keepsContract 4 = true ∧ (⟨4, [1, 2, 3, 4]⟩ : ReadAnswer).keepsContract 4 = true) ∧
    ((-1 : BitVec 64).toInt < 0 ∧ (0 : BitVec 64).toInt = 0 ∧ 0 < (1 : BitVec 64).toInt ∧ (4 : BitVec 64).toInt = 4) := by
  decide

/-- Hypotheses of the whole, and of each of the four clauses. -/
theorem witness_AddDataRetainsTheLatestBytes :
    (sample.rings[(1 : RingId).toNat]? = some empty ∧ empty.live = true ∧ empty.head.toNat < empty.size ∧
      empty.tail.toNat < empty.size) ∧
    ((0x100 : HostAddr).toNat + (6 : Count).toNat ≤ 2 ^ 64 ∧
      ∀ j, j < (6 : Count).toNat → sample.hostAdmits ((0x100 : HostAddr).toNat + j) .read = true) ∧
    (0 < (1 : BitVec 64).toInt ∧ (1 : BitVec 64).toInt ≤ (min (9 : Count).toNat (empty.size - empty.head.toNat) : Nat) ∧
      ([7] : List Byte).length = (1 : BitVec 64).toInt.toNat) ∧
    (sample.rings[(0 : RingId).toNat]? = some abc ∧ (0 : RingId) ≠ 1 ∧ abc.live = true ∧ abc.Inv ∧
      (3 : Count).toNat ≤ abc.used) :=
  ⟨by decide, by decide, by decide, by decide, by decide, rfl, abc_inv, by decide⟩

/-- One byte too many; all the used bytes; and a span that ends with the address space. -/
theorem witness_ReadMemHasItsClosedForm :
    sample.rings[(0 : RingId).toNat]? = some abc ∧ abc.live = true ∧ abc.Inv ∧
    (0x200 : HostAddr).toNat + (4 : Count).toNat ≤ 2 ^ 64 ∧ abc.used < (4 : Count).toNat ∧
    (0xFFFFFFFFFFFFFFFD : HostAddr).toNat + (3 : Count).toNat ≤ 2 ^ 64 ∧ (3 : Count).toNat ≤ abc.used ∧
    (∀ j, j < (3 : Count).toNat → sample.hostAdmits ((0xFFFFFFFFFFFFFFFD : HostAddr).toNat + j) .write = true) :=
  ⟨by decide, rfl, abc_inv, by decide, by decide, by decide, by decide, by decide⟩

/-- `len` is 2 of the 3 bytes used; the device's answers at the edges. -/
theorem witness_WriteFdMakesOneClampedRequest :
    sample.rings[(0 : RingId).toNat]? = some abc ∧ abc.live = true ∧ abc.Inv ∧ abc.used < (4 : Count).toNat ∧
    (0 : Count).toNat = 0 ∧ (1 ≤ (3 : Count).toNat ∧ (3 : Count).toNat ≤ abc.used) ∧
    min (3 : Count).toNat (abc.size - abc.tail.toNat) = 2 ∧ sample.writeAnswers = [] ∧
    ({ sample with writeAnswers := [none] }.writeAnswers = [none]) ∧
    ((-1 : BitVec 64).toInt < 0 ∧ (0 : BitVec 64).toInt = 0 ∧ 0 < (1 : BitVec 64).toInt ∧ (2 : BitVec 64).toInt ≤ 2) :=
  ⟨by decide, rfl, abc_inv, by decide, by decide, by decide, by decide, rfl, rfl, by decide⟩

theorem witness_UnderflowChangesNothing :
    sample.rings[(0 : RingId).toNat]? = some abc ∧ abc.live = true ∧ abc.used < (4 : Count).toNat ∧
    (0x200 : HostAddr).toNat + (4 : Count).toNat ≤ 2 ^ 64 ∧ sample.rings[(1 : RingId).toNat]? = some empty ∧
    empty.live = true ∧ (0 : RingId) ≠ 1 := by decide

/-- READ_MEM, WRITE_FD and COPY, each ending with OK. -/
theorem witness_RemovalTakesTheOldestBytes :
    sample.rings[(0 : RingId).toNat]? = some abc ∧ sample.Inv ∧ { sample with writeAnswers := [some 1] }.Inv ∧
    (removesFrom (.readMem 0 0x200 2) = some 0 ∧
      ∃ t q, exec (.readMem 0 0x200 2) sample = .next t ∧ t.phase = .resp q ∧ rspStatus q = statusCode .ok) ∧
    (removesFrom (.writeFd 0 8 3) = some 0 ∧ ∃ t q, exec (.writeFd 0 8 3) { sample with writeAnswers := [some 1] } = .next t ∧
      t.phase = .resp q ∧ rspStatus q = statusCode .ok) ∧
    (removesFrom (.copy 1 0 3) = some 0 ∧
      ∃ t q, exec (.copy 1 0 3) sample = .next t ∧ t.phase = .resp q ∧ rspStatus q = statusCode .ok) :=
  ⟨by decide, sample_inv, sample_inv.congr rfl rfl rfl rfl rfl, ⟨rfl, _, _, rfl, rfl, by decide⟩,
    ⟨rfl, _, _, rfl, rfl, by decide⟩, rfl, _, _, rfl, rfl, by decide⟩

theorem witness_WriteThenReadRoundTrip :
    sample.rings[(1 : RingId).toNat]? = some empty ∧ empty.live = true ∧ empty.Inv ∧ empty.head = empty.tail ∧
    (4 : Count).toNat ≤ empty.cap.toNat ∧ (0x100 : HostAddr).toNat + (4 : Count).toNat ≤ 2 ^ 64 ∧
    (0x102 : HostAddr).toNat + (4 : Count).toNat ≤ 2 ^ 64 ∧
    (∀ j, j < (4 : Count).toNat → sample.hostAdmits ((0x100 : HostAddr).toNat + j) .read = true) ∧
    (∀ j, j < (4 : Count).toNat → sample.hostAdmits ((0x102 : HostAddr).toNat + j) .write = true) :=
  ⟨by decide, rfl, empty_inv, rfl, by decide, by decide, by decide, by decide, by decide⟩

/-- A destination in which the bytes fit, and one of capacity 1 in which they do not. -/
theorem witness_CopyHasItsClosedForm :
    sample.rings[(1 : RingId).toNat]? = some empty ∧ sample.rings[(3 : RingId).toNat]? = some tiny ∧
    sample.rings[(0 : RingId).toNat]? = some abc ∧ (0 : RingId) ≠ 1 ∧ (0 : RingId) ≠ 3 ∧ empty.live = true ∧
    tiny.live = true ∧ abc.live = true ∧ empty.Inv ∧ tiny.Inv ∧ abc.Inv ∧ (3 : Count).toNat ≤ abc.used ∧
    tiny.free < (3 : Count).toNat :=
  ⟨by decide, by decide, by decide, by decide, by decide, rfl, rfl, rfl, empty_inv, tiny_inv, abc_inv, by decide, by decide⟩

theorem witness_CopyPreservesTheOrderOfBytes :
    sample.rings[(3 : RingId).toNat]? = some tiny ∧ sample.rings[(0 : RingId).toNat]? = some abc ∧ tiny.Inv ∧ abc.Inv ∧
    (∃ t q, exec (.copy 3 0 3) sample = .next t ∧ t.phase = .resp q ∧ rspStatus q = statusCode .ok ∧ rspOvf q = true) ∧
    (∃ t q, exec (.copy 3 0 1) sample = .next t ∧ t.phase = .resp q ∧ rspStatus q = statusCode .ok ∧ rspOvf q = false) :=
  ⟨by decide, by decide, tiny_inv, abc_inv, ⟨_, _, rfl, rfl, by decide, by decide⟩, _, _, rfl, rfl, by decide, by decide⟩

theorem witness_FindAnswersTheFirstOccurrence :
    sample.rings[(0 : RingId).toNat]? = some abc ∧ abc.live = true ∧ abc.Inv ∧ abc.logicalByte 2 = some 0xC :=
  ⟨by decide, rfl, abc_inv, by decide⟩

/-- Each bound reached: `2S - HEAD` bytes added, all used bytes removed, `S(dst)` bytes copied. -/
theorem witness_SpanLoopsKeepTheirPassBounds :
    (full.head.toNat < full.size ∧ 6 ≤ 2 * full.size - full.head.toNat) ∧ (abc.tail.toNat < abc.size ∧ 3 ≤ abc.used) ∧
    (tiny.head.toNat < tiny.size ∧ 2 ≤ abc.used ∧ 2 ≤ tiny.size) := by decide

theorem witness_ErrorResponsesChangeNothing :
    (∃ t q, exec (.readMem 0 0x200 4) sample = .next t ∧ t.phase = .resp q ∧ rspStatus q ≠ statusCode .ok ∧
      rspStatus q ≠ statusCode .descErr) ∧
    (∃ t q, exec (.readFd 0 7 2) { sample with readAnswers := [some ⟨-5, []⟩] } = .next t ∧ t.phase = .resp q ∧
      rspStatus q ≠ statusCode .ok ∧ rspStatus q = statusCode .descErr) :=
  ⟨⟨_, _, rfl, rfl, by decide, by decide⟩, _, _, rfl, rfl, by decide, by decide⟩

theorem witness_ResponsesAreLegal : ∃ t q, exec (.fill 3 0xAA 2) sample = .next t ∧ t.phase = .resp q ∧ rspOvf q = true :=
  ⟨_, _, rfl, rfl, by decide⟩

/-- Each cursor moves: HEAD by an add, TAIL by an overflow, by a removal, and both by RESET. -/
theorem witness_CursorsAreWrittenOnlyByTheirCommands :
    sample.rings[(0 : RingId).toNat]? = some abc ∧
    (∃ t c', exec (.fill 0 9 2) sample = .next t ∧ t.rings[(0 : RingId).toNat]? = some c' ∧ c'.head ≠ abc.head ∧
      c'.tail ≠ abc.tail) ∧
    (∃ t c', exec (.readMem 0 0x200 1) sample = .next t ∧ t.rings[(0 : RingId).toNat]? = some c' ∧ c'.tail ≠ abc.tail) ∧
    (∃ t c', exec (.reset 0) sample = .next t ∧ t.rings[(0 : RingId).toNat]? = some c' ∧ c'.head ≠ abc.head ∧
      c'.tail ≠ abc.tail) :=
  ⟨by decide, ⟨_, _, rfl, rfl, by decide, by decide⟩, ⟨_, _, rfl, rfl, by decide⟩, _, _, rfl, rfl, by decide, by decide⟩

theorem witness_CapacityIsWrittenOnlyByNewAndFree :
    sample.rings[(4 : RingId).toNat]? = some dead ∧
    ∃ t c', exec (.new 4 8) sample = .next t ∧ t.rings[(4 : RingId).toNat]? = some c' ∧
      (c'.cap ≠ dead.cap ∨ c'.live ≠ dead.live) := ⟨by decide, _, _, rfl, rfl, by decide⟩

theorem witness_CommandsTouchOnlyTheContextsTheyName :
    ∃ t, exec (.copy 1 0 3) sample = .next t ∧ ∀ ra ∈ namedRings (.copy 1 0 3), ra.toNat ≠ 2 := ⟨_, rfl, by decide⟩

theorem witness_StorageIsWrittenOnlyByAddData :
    abc.Inv ∧ sample.rings[(0 : RingId).toNat]? = some abc ∧
    (∃ t c', exec (.readMem 0 0x200 3) sample = .next t ∧ t.rings[(0 : RingId).toNat]? = some c' ∧
      addsTo (.readMem 0 0x200 3) ≠ some 0) ∧
    (∃ t c', exec (.fill 0 9 9) sample = .next t ∧ t.rings[(0 : RingId).toNat]? = some c' ∧ abc.size ≤ 5) :=
  ⟨abc_inv, by decide, ⟨_, _, rfl, rfl, by decide⟩, _, _, rfl, rfl, by decide⟩

/-- A command that is no READ_MEM; a READ_MEM, with an address on either side of its span. -/
theorem witness_HostMemoryIsWrittenOnlyInTheReadMemSpan :
    sample.Inv ∧ (∃ t, exec (.fill 0 9 1) sample = .next t) ∧ (∀ ra addr cnt, Instr.fill 0 9 1 ≠ .readMem ra addr cnt) ∧
    (∃ t, exec (.readMem 0 0x200 3) sample = .next t) ∧ 0x1FF < (0x200 : HostAddr).toNat ∧
    (0x200 : HostAddr).toNat + (3 : Count).toNat ≤ 0x203 :=
  ⟨sample_inv, ⟨_, rfl⟩, nofun, ⟨_, rfl⟩, by decide, by decide⟩

theorem witness_AtMostOneDeviceRequest :
    (∃ t, exec (.readFd 0 7 2) sample = .next t ∧ t.requests ≠ sample.requests) ∧
    ∃ t, exec (.readFd 0 7 0) sample = .next t ∧ t.requests = sample.requests := ⟨⟨_, rfl, by decide⟩, _, rfl, rfl⟩

/-- The second of three bytes is not admitted, to be read and to be written. -/
theorem witness_AnUnadmittedAccessLeavesTheCommandBusy :
    let s := { sample with holes := [⟨0x101, 1, .read⟩, ⟨0x101, 1, .write⟩] }
    s.rings[(0 : RingId).toNat]? = some abc ∧ abc.live = true ∧ abc.Inv ∧
    (0x100 : HostAddr).toNat + (3 : Count).toNat ≤ 2 ^ 64 ∧ 1 < (3 : Count).toNat ∧ (3 : Count).toNat ≤ abc.used ∧
    (∀ j, j < 1 → s.hostAdmits ((0x100 : HostAddr).toNat + j) .read = true) ∧
    s.hostAdmits ((0x100 : HostAddr).toNat + 1) .read = false ∧
    (∀ j, j < 1 → s.hostAdmits ((0x100 : HostAddr).toNat + j) .write = true) ∧
    s.hostAdmits ((0x100 : HostAddr).toNat + 1) .write = false :=
  ⟨by decide, rfl, abc_inv, by decide, by decide, by decide, by decide, by decide, by decide, by decide⟩

theorem witness_IllFormedInstructionsAreIllegal :
    (Instr.free 5).wellFormed sample.rings.length = false ∧ (Instr.copy 0 0 1).wellFormed sample.rings.length = false ∧
    (Instr.new 4 0).wellFormed sample.rings.length = false := by decide

/-- Commands whose device does not answer, and one whose device answers all it was asked for. -/
theorem witness_EveryCommandIsAnsweredOrWaits :
    sample.Inv ∧ deviceKeeps (.fill 0 9 1) sample ∧ deviceKeeps (.readFd 0 7 2) sample ∧
    deviceKeeps (.writeFd 0 8 2) sample ∧
    { sample with readAnswers := [some ⟨2, [5, 6]⟩] }.Inv ∧
    deviceKeeps (.readFd 0 7 2) { sample with readAnswers := [some ⟨2, [5, 6]⟩] } := by
  refine ⟨sample_inv, trivial, (fun _ _ _ _ _ _ h => by cases h), (fun _ _ _ _ _ _ _ h => by cases h),
    sample_inv.congr rfl rfl rfl rfl rfl, ?_⟩
  intro c a rest hc _ _ h
  cases hc
  cases h
  decide

/-- One byte more than was asked for or sent. -/
theorem witness_ADeviceThatBreaksItsContractStops :
    sample.rings[(0 : RingId).toNat]? = some abc ∧ abc.live = true ∧ abc.Inv ∧ 1 ≤ (2 : Count).toNat ∧
    ((min (2 : Count).toNat (abc.size - abc.head.toNat) : Nat) : Int) < (3 : BitVec 64).toInt ∧ (2 : Count).toNat ≤ abc.used ∧
    ((min (2 : Count).toNat (abc.size - abc.tail.toNat) : Nat) : Int) < (3 : BitVec 64).toInt :=
  ⟨by decide, rfl, abc_inv, by decide, by decide, by decide, by decide⟩

/-- In each phase, and while `rst` is 1. -/
theorem witness_HostMemoryReturnsTheLastByteStored :
    ∀ s ∈ [sample, sample.respond .ok 3 false, sample.stall waiting, sample.hardwareReset],
      { s with inputs := [.store 0x100 7] }.inputs = [.store 0x100 7] := fun _ _ => rfl

/-- A READ_MEM of the byte the host stores to, and a FILL. -/
theorem witness_RacingStoresTouchHostMemoryAlone :
    sample.rst = false ∧ sample.phase = .idle ∧
    ({ sample with inputs := [.raced 0x00000000000001000000000100000007 [(0x100, 7)]] }.Inv ∧
      decode sample.rings.length 0x00000000000001000000000100000007 = .ok (.readMem 0 0x100 1) ∧
      ∃ t, step { sample with inputs := [.raced 0x00000000000001000000000100000007 [(0x100, 7)]] } = .next t) ∧
    ({ sample with inputs := [.raced 0x0000000300AA000B [(0x100, 7)]] }.Inv ∧
      decode sample.rings.length 0x0000000300AA000B = .ok (.fill 0 0xAA 3) ∧
      ∃ t, step { sample with inputs := [.raced 0x0000000300AA000B [(0x100, 7)]] } = .next t) := by
  refine ⟨rfl, rfl, ⟨sample_inputs_inv _, by decide, ?_⟩, sample_inputs_inv _, by decide, ?_⟩ <;>
  · change ∃ t, issueRaced _ _ _ = .next t
    rw [issueRaced, State.hostStores_only_hostMem]
    exact ⟨_, rfl⟩

end Sys2Proof.Tests
end

/-! # The invariant of every reachable state (10_state.md R45, R47)

What the host, a command and hardware reset each keep of `State.Inv`, and that every step keeps it. -/

namespace Sys2Proof.Machine

/-! ## The host's actions and hardware reset -/

theorem State.Inv.withInputs {s : State} (hs : s.Inv) (l : List HostInput) : { s with inputs := l }.Inv :=
  hs.congr rfl rfl rfl rfl rfl

/-- The invariant after host memory alone has changed. -/
theorem State.Inv.withHostMem {s : State} (hs : s.Inv) {m : Memory} (hwf : m.wf)
    (hin : ∀ p ∈ m, p.1 < Config.hostSpace) : { s with hostMem := m }.Inv :=
  { hs with host_wf := hwf, host_inside := hin }

theorem State.Inv.hostStores {s : State} (hs : s.Inv) (stores : List (HostAddr × Byte)) :
    (s.hostStores stores).Inv := by
  obtain ⟨hwf, hin⟩ := State.hostStores_wf stores hs.host_wf hs.host_inside
  rw [State.hostStores_only_hostMem]
  exact hs.withHostMem hwf hin

/-- Every context is at its reset values, and the response register is empty (R300). -/
theorem State.Inv.hardwareReset {s : State} (hs : s.Inv) : s.hardwareReset.Inv where
  rings_pos := by simpa using hs.rings_pos
  rings_le := by simpa using hs.rings_le
  rings_inv := by
    simp only [State.hardwareReset_rings, List.mem_map]
    rintro _ ⟨c, hc, rfl⟩
    exact (hs.rings_inv c hc).afterReset
  host_wf := hs.host_wf
  host_inside := hs.host_inside
  rsp_legal := by simp
  taken_legal := hs.taken_legal
  in_reset _ := ⟨rfl, by simp [Ring.afterReset]⟩

/-- Where `rst` is 0 nothing is asked of the phase and the contexts. -/
theorem State.Inv.releaseRst {s : State} (hs : s.Inv) : { s with rst := false }.Inv :=
  { hs with in_reset := nofun }

theorem State.Inv.driveRst {s : State} (hs : s.Inv) (level : Bool) : (s.driveRst level).Inv := by
  cases level with
  | true => exact hs.hardwareReset
  | false => exact hs.releaseRst

/-- A response that is taken was a legal one. -/
theorem State.Inv.take {s : State} (hs : s.Inv) {q : RspWord} (hr : s.rst = false) (hp : s.phase = .resp q) :
    (s.take q).Inv :=
  have hq : LegalResponse q := hs.rsp_legal q (by simp only [State.response, hp])
  { hs with
    rsp_legal := by simp
    taken_legal := by
      simp only [State.take_taken, List.mem_append, List.mem_singleton]
      rintro p (hp | rfl)
      · exact hs.taken_legal p hp
      · exact hq
    in_reset := by simp [hr] }

/-! ## Commands -/

theorem State.Inv.accept {s : State} (hs : s.Inv) (rest : List HostInput) : (s.accept rest).Inv :=
  hs.congr rfl rfl rfl rfl rfl

/-- The hole and the silent device that stand for a cut to come are nothing the invariant looks at. -/
theorem State.Inv.beforeCut {s : State} (hs : s.Inv) : s.beforeCut.Inv := by
  rcases beforeCut_cases s with ⟨-, h⟩ | ⟨-, h⟩ <;> rw [h] <;> exact hs.congr rfl rfl rfl rfl rfl

theorem Keeps.inv {s t : State} (hs : s.Inv) (hr : s.rst = false) (h : Keeps s t) : t.Inv where
  rings_pos := h.length ▸ hs.rings_pos
  rings_le := h.length ▸ hs.rings_le
  rings_inv := h.rings_inv
  host_wf := h.host_wf
  host_inside := h.host_inside
  rsp_legal := h.rsp_legal
  taken_legal := h.taken ▸ hs.taken_legal
  in_reset := by simp [h.rst, hr]

/-- A word that the decoder refuses changes nothing but the response; every other word is its instruction. -/
theorem issue_keeps {w : CmdWord} {s t : State} (hs : s.Inv) (h : issue w s = .next t) : Keeps s t := by
  rcases issue_cases h with ⟨r, -, rfl⟩ | ⟨i, -, hi⟩
  · -- the effect of a refusal is the same for every instruction
    exact (Effect.refused (.free 0) .illegal (by decide) (by decide)).keeps hs
  · exact (exec_effect hi).keeps hs

theorem issue_inv {w : CmdWord} {s t : State} (hs : s.Inv) (hr : s.rst = false) (h : issue w s = .next t) : t.Inv :=
  (issue_keeps hs h).inv hs hr

/-- A command that reset cuts leaves its host writes alone behind (R301). -/
theorem State.Inv.afterCut {s u : State} (hs : s.Inv) (hu : u.Inv) : (s.afterCut u).Inv :=
  have hmem : { s with hostMem := u.hostMem }.Inv := hs.withHostMem hu.host_wf hu.host_inside
  State.Inv.hardwareReset (hmem.congr rfl rfl rfl rfl rfl)

/-! ## The step -/

theorem StepEffect.inv {s t : State} (hs : s.Inv) (h : StepEffect s t) : t.Inv := by
  cases h with
  | drive level rest => exact (hs.withInputs rest).driveRst level
  | store a v rest => exact (hs.withInputs rest).hostStores [(a, v)]
  | waits => exact hs
  | take q hr hp => exact hs.take hr hp
  | command w rest _ hr hp hin h => exact issue_inv (hs.accept rest) hr h
  | raced w stores rest u hr hp hin h =>
    have hearly := (hs.accept rest).hostStores (earlyStores s.draws 0 stores)
    have hrst : ((s.accept rest).hostStores (earlyStores s.draws 0 stores)).rst = false := by
      rw [State.hostStores_only_hostMem]; exact hr
    have hdrawn := hearly.congr (t := { (s.accept rest).hostStores (earlyStores s.draws 0 stores) with
      draws := s.draws + 1 }) rfl rfl rfl rfl rfl
    exact (issue_inv hdrawn hrst h).hostStores _
  | cut w rest u hr hp hin h =>
    have hrst : (s.accept rest).beforeCut.rst = false := by
      rcases beforeCut_cases (s.accept rest) with ⟨-, h⟩ | ⟨-, h⟩ <;> rw [h] <;> exact hr
    exact (hs.accept rest).afterCut (issue_inv (hs.accept rest).beforeCut hrst h)

/-- Settles O14: each effect of a step keeps the invariant. -/
theorem everyStepKeepsTheInvariant : Obligations.EveryStepKeepsTheInvariant := by
  unfold Obligations.EveryStepKeepsTheInvariant
  intro s t hs h
  exact (step_effect h).inv hs

/-! ## The state right after reset -/

/-- A context with a legal MAXCAP, right after reset (R6, R56). -/
theorem Ring.afterReset_inv {n : Nat} (h1 : 1 ≤ n) (h2 : n ≤ Config.maxMaxCap) : (Ring.afterReset n).Inv :=
  ⟨h1, h2, List.Pairwise.nil, nofun, nofun, nofun, nofun, fun _ => ⟨rfl, rfl, rfl⟩⟩

/-- Settles O13: the parameters of Config are legal, and every context is at its reset values. -/
theorem resetStateSatisfiesTheInvariant : Obligations.ResetStateSatisfiesTheInvariant := by
  unfold Obligations.ResetStateSatisfiesTheInvariant
  have hlegal : ∀ n ∈ Config.maxCaps, 1 ≤ n ∧ n ≤ Config.maxMaxCap := by decide
  have hrings : ∀ c ∈ State.reset.rings, c.Inv := by
    simp only [State.reset, List.mem_map]
    rintro _ ⟨n, hn, rfl⟩
    exact Ring.afterReset_inv (hlegal n hn).1 (hlegal n hn).2
  exact ⟨by decide, by decide, hrings, List.Pairwise.nil, nofun, nofun, nofun, nofun⟩

end Sys2Proof.Machine

/-! # What a command does to each context (10_state.md R31-R37, R46, R47, R55)

`RingEffect` lists every way in which a command can change one context; the statements on who writes HEAD, TAIL, CAP,
`live` and storage are read off it. -/

namespace Sys2Proof.Machine

/-! ## Storage at and above the buffer size -/

/-- A span that fits before the storage end writes no cell from there on. -/
theorem Ring.putSpan_read?_above (c : Ring) {bs : List Byte} (hk : bs.length ≤ c.size - c.head.toNat) {p : Nat}
    (hp : c.size ≤ p) : (c.putSpan bs).sto.read? p = c.sto.read? p := by
  rw [Ring.putSpan_sto, Memory.read?_writeSpan, if_neg (by omega)]

theorem Ring.addSpans_read?_above (src : Nat → Byte) (cnt fuel done : Nat) (c : Ring) {p : Nat} (hp : c.size ≤ p) :
    (Ring.addSpans src cnt fuel done c).sto.read? p = c.sto.read? p := by
  induction fuel generalizing done c with
  | zero => rfl
  | succ fuel ih =>
    unfold Ring.addSpans
    split
    · rfl
    · dsimp only
      rw [ih _ _ (by simpa using hp), Ring.putSpan_read?_above c (by rw [Ring.length_sourceSpan]; omega) hp]

theorem Ring.copySpans_read?_above {cnt fuel done : Nat} {d c d' c' : Ring}
    (h : Ring.copySpans cnt fuel done d c = some (d', c')) {p : Nat} (hp : d.size ≤ p) :
    d'.sto.read? p = d.sto.read? p := by
  induction fuel generalizing done d c with
  | zero =>
    simp only [Ring.copySpans, Option.some.injEq, Prod.mk.injEq] at h
    rw [h.1]
  | succ fuel ih =>
    unfold Ring.copySpans at h
    split at h
    · simp only [Option.some.injEq, Prod.mk.injEq] at h
      rw [h.1]
    · dsimp only at h
      split at h
      · cases h
      · rename_i bs hbs
        have hlen := (Memory.readSpan_eq_some.1 hbs).1
        rw [ih h (by simpa using hp), Ring.putSpan_read?_above d (by omega) hp]

/-! ## One context -/

/-- What a command that adds data does to its context before the fixup: it moves HEAD and writes storage below the
buffer size. -/
structure Ring.Added (c d : Ring) : Prop where
  only : d = { c with head := d.head, sto := d.sto }
  above : ∀ p, c.size ≤ p → d.sto.read? p = c.sto.read? p

theorem Ring.added_putSpan (c : Ring) {bs : List Byte} (hk : bs.length ≤ c.size - c.head.toNat) :
    c.Added (c.putSpan bs) :=
  ⟨rfl, fun _ hp => c.putSpan_read?_above hk hp⟩

theorem Ring.added_addSpans (src : Nat → Byte) (cnt fuel done : Nat) (c : Ring) :
    c.Added (Ring.addSpans src cnt fuel done c) := by
  obtain ⟨hmax, hlive, hcap, htail⟩ := Ring.addSpans_keeps src cnt fuel done c
  refine ⟨?_, fun _ hp => Ring.addSpans_read?_above src cnt fuel done c hp⟩
  rw [← hmax, ← hlive, ← hcap, ← htail]

theorem Ring.added_copySpans {cnt fuel done : Nat} {d c d' c' : Ring}
    (h : Ring.copySpans cnt fuel done d c = some (d', c')) : d.Added d' :=
  ⟨(Ring.copySpans_keeps h).1, fun _ hp => Ring.copySpans_read?_above h hp⟩

/-- The ways in which instruction `i`, which leaves the phase `p`, can change context `r` from `c`. -/
inductive RingEffect (i : Instr) (p : Phase) (r : RingId) (c : Ring) : Ring → Prop where
  | same : RingEffect i p r c c
  | new (cnt : Count) (hi : i = .new r cnt) :
      RingEffect i p r c { c with live := true, cap := cnt, head := 0, tail := 0 }
  | free (hi : i = .free r) : RingEffect i p r c { c with live := false, cap := 0, head := 0, tail := 0 }
  | reset (hi : i = .reset r) : RingEffect i p r c { c with head := 0, tail := 0 }
  /-- Data is added, and the fixup run where the response reports OVF. -/
  | adds (hi : addsTo i = some r) (d : Ring) (hd : c.Added d) (v : Int) (ovf : Bool)
      (hp : p = .resp (packResponse .ok v ovf)) : RingEffect i p r c (d.fixup ovf)
  | removes (hi : removesFrom i = some r) (tail : CtxReg) : RingEffect i p r c { c with tail := tail }

/-- A context of a list in which one has been replaced: that one, or as before. -/
theorem getElem?_set_cases {l : List Ring} {ra r : RingId} {x c' : Ring} (h : (l.set ra.toNat x)[r.toNat]? = some c') :
    (r = ra ∧ c' = x) ∨ (r ≠ ra ∧ l[r.toNat]? = some c') := by
  rw [List.getElem?_set] at h
  split at h
  · rename_i heq
    split at h
    · exact .inl ⟨(BitVec.eq_of_toNat_eq heq).symm, (Option.some.inj h).symm⟩
    · cases h
  · rename_i hne
    exact .inr ⟨fun e => hne (by rw [e]), h⟩

/-- A command that replaces context `ra` alone changes each context in one of its ways. -/
theorem RingEffect.of_set {i : Instr} {p : Phase} {l : List Ring} {ra r : RingId} {a x c c' : Ring}
    (ha : l[ra.toNat]? = some a) (hx : RingEffect i p ra a x)
    (hc : l[r.toNat]? = some c) (hc' : (l.set ra.toNat x)[r.toNat]? = some c') : RingEffect i p r c c' := by
  rcases getElem?_set_cases hc' with ⟨rfl, rfl⟩ | ⟨-, h⟩
  · rw [ha] at hc; cases hc; exact hx
  · rw [h] at hc; cases hc; exact .same

/-- Every change of a context by a command is one of its ways. -/
theorem Effect.ringEffect {i : Instr} {s t : State} (h : Effect s i t) {r : RingId} {c c' : Ring}
    (hc : s.rings[r.toNat]? = some c) (hc' : t.rings[r.toNat]? = some c') : RingEffect i t.phase r c c' := by
  have unchanged (e : t.rings = s.rings) : RingEffect i t.phase r c c' := by
    rw [e, hc] at hc'; cases hc'; exact .same
  cases h with
  | refused | answered | noBytes | writeMemBusy | readFdBusy | readFdNone | readMemBusy | writeFdBusy | writeFdNone =>
    exact unchanged rfl
  | new ra cnt a ha => exact .of_set ha (.new cnt rfl) hc hc'
  | free ra a ha => exact .of_set ha (.free rfl) hc hc'
  | reset ra a ha => exact .of_set ha (.reset rfl) hc hc'
  | writeMem ra addr cnt a ha => exact .of_set ha (.adds rfl _ (Ring.added_addSpans ..) _ _ rfl) hc hc'
  | fill ra b8 cnt a ha => exact .of_set ha (.adds rfl _ (Ring.added_addSpans ..) _ _ rfl) hc hc'
  | readFd ra dh cnt a len ans rest ha hl hlen hr hn hb hle =>
    exact .of_set ha (.adds rfl _ (a.added_putSpan (by omega)) _ _ rfl) hc hc'
  | readMem ra addr cnt a a' m ha hl hs hu hadm ht =>
    rw [Ring.takeSpans_keeps ht] at hc'
    exact .of_set ha (.removes rfl _) hc hc'
  | writeFd ra dh cnt a bytes n rest ha => exact .of_set ha (.removes rfl _) hc hc'
  | copy ra rb cnt d a d' a' hd ha hne hdl hal hu ht =>
    -- the destination is replaced last; every other context is as after the removal from the source
    rcases getElem?_set_cases hc' with ⟨rfl, rfl⟩ | ⟨-, hc'⟩
    · rw [hd] at hc; cases hc
      exact .adds rfl _ (Ring.added_copySpans ht) _ _ rfl
    · rw [(Ring.copySpans_keeps ht).2] at hc'
      exact .of_set ha (.removes rfl _) hc hc'

/-! ## The whole machine -/

/-- What no command writes: the number of contexts, and what is the host's or the run's observation. -/
structure Framed (s t : State) : Prop where
  length : t.rings.length = s.rings.length
  rst : t.rst = s.rst
  holes : t.holes = s.holes
  inputs : t.inputs = s.inputs
  index : t.index = s.index
  taken : t.taken = s.taken
  draws : t.draws = s.draws

theorem Effect.framed {i : Instr} {s t : State} (h : Effect s i t) : Framed s t := by
  cases h <;> exact ⟨by simp, rfl, rfl, rfl, rfl, rfl, rfl⟩

/-- A context that the command does not name is as before (R31). -/
theorem Effect.rings_unnamed {i : Instr} {s t : State} (h : Effect s i t) {r : Nat}
    (hr : ∀ ra ∈ namedRings i, ra.toNat ≠ r) : t.rings[r]? = s.rings[r]? := by
  cases h with
  | refused | answered | noBytes | writeMemBusy | readFdBusy | readFdNone | readMemBusy | writeFdBusy | writeFdNone =>
    rfl
  | new ra | free ra | reset ra | writeMem ra | readFd ra | readMem ra | writeFd ra | fill ra =>
    exact List.getElem?_set_ne (hr ra (by simp [namedRings]))
  | copy ra rb =>
    have hra := hr ra (by simp [namedRings])
    have hrb := hr rb (by simp [namedRings])
    exact (List.getElem?_set_ne hra).trans (List.getElem?_set_ne hrb)

/-- A command in phase BUSY has changed no context (R55). -/
theorem Effect.rings_busy {i : Instr} {s t : State} {b : Busy} (h : Effect s i t) (hb : t.phase = .busy b) :
    t.rings = s.rings := by
  cases h with
  | writeMemBusy | readFdBusy | readMemBusy | writeFdBusy => rfl
  | _ => cases hb

theorem RingEffect.maxCap {i : Instr} {p : Phase} {r : RingId} {c c' : Ring} (h : RingEffect i p r c c') :
    c'.maxCap = c.maxCap := by
  cases h with
  | adds hi d hd => rw [Ring.fixup_maxCap, hd.only]
  | same | new | free | reset | removes => rfl

/-- No MAXCAP changes (R6). -/
theorem Effect.map_maxCap {i : Instr} {s t : State} (h : Effect s i t) :
    t.rings.map Ring.maxCap = s.rings.map Ring.maxCap := by
  apply List.ext_getElem (by simpa using h.framed.length)
  intro k hk hk'
  rw [List.length_map] at hk hk'
  have ht := List.getElem?_eq_getElem hk
  have hs := List.getElem?_eq_getElem hk'
  simp only [List.getElem_map]
  by_cases hr : ∃ ra ∈ namedRings i, ra.toNat = k
  · obtain ⟨ra, -, rfl⟩ := hr
    exact (h.ringEffect hs ht).maxCap
  · have heq := h.rings_unnamed (r := k) (by simpa using hr)
    rw [ht, hs] at heq
    rw [Option.some.inj heq]

/-! ## The obligations -/

/-- Settles O43: of the ways in which a context can change, those that move a cursor. -/
theorem cursorsAreWrittenOnlyByTheirCommands : Obligations.CursorsAreWrittenOnlyByTheirCommands := by
  unfold Obligations.CursorsAreWrittenOnlyByTheirCommands
  intro i s t r c c' h hc hc'
  cases (exec_effect h).ringEffect hc hc' with
  | same => simp
  | new cnt hi => simp [hi, lifecycleOf]
  | free hi => simp [hi, lifecycleOf]
  | reset hi => simp [hi, lifecycleOf]
  | removes hi tail => simp [hi]
  | adds hi d hd v ovf hresp =>
    refine ⟨fun _ => .inr hi, fun htail => .inr (.inr ⟨hi, _, hresp, ?_⟩)⟩
    rw [rspOvf_packResponse]
    -- without the fixup TAIL is the old one
    by_contra hovf
    rw [Bool.eq_false_iff.2 hovf, Ring.fixup_false, hd.only] at htail
    exact htail rfl

/-- Settles O44: of the ways in which a context can change, those that write CAP or `live`. -/
theorem capacityIsWrittenOnlyByNewAndFree : Obligations.CapacityIsWrittenOnlyByNewAndFree := by
  unfold Obligations.CapacityIsWrittenOnlyByNewAndFree
  intro i s t r c c' h hc hc' hchanged
  cases (exec_effect h).ringEffect hc hc' with
  | new cnt hi => exact .inl ⟨cnt, hi⟩
  | free hi => exact .inr hi
  | same | reset | removes => simp at hchanged
  | adds hi d hd => rw [Ring.fixup_cap, Ring.fixup_live, hd.only] at hchanged; simp at hchanged

/-- Settles O45: the frame of a command, whatever it comes to. -/
theorem commandsTouchOnlyTheContextsTheyName : Obligations.CommandsTouchOnlyTheContextsTheyName := by
  unfold Obligations.CommandsTouchOnlyTheContextsTheyName
  intro i s t h
  have he := exec_effect h
  have hf := he.framed
  exact ⟨fun r => he.rings_unnamed, he.map_maxCap, hf.rst, hf.holes, hf.inputs, hf.index, hf.taken, hf.draws⟩

/-- Settles O46: of the ways in which a context can change, only adding data writes storage, span by span before the
storage end. -/
theorem storageIsWrittenOnlyByAddData : Obligations.StorageIsWrittenOnlyByAddData := by
  unfold Obligations.StorageIsWrittenOnlyByAddData
  intro i s t r c c' _ h hc hc'
  cases (exec_effect h).ringEffect hc hc' with
  | same | new | free | reset | removes => exact ⟨fun _ => rfl, fun _ _ => rfl⟩
  | adds hi d hd =>
    rw [Ring.fixup_sto]
    exact ⟨fun hne => absurd hi hne, hd.above⟩

/-- Settles O23: both cursors of a live context are below its buffer size. -/
theorem emptyAndFullByTheCursors : Obligations.EmptyAndFullByTheCursors := by
  unfold Obligations.EmptyAndFullByTheCursors
  intro c hl hi
  obtain ⟨hh, ht⟩ := hi.cursors_legal hl
  exact ⟨Ring.isEmpty_iff hh ht, Ring.isFull_iff hh ht⟩

/-- Settles O24: HEAD stands `used` bytes past TAIL, and `used` is below the buffer size, so no offset before it comes
to the same cell. -/
theorem theByteAtHeadIsNeverUsed : Obligations.TheByteAtHeadIsNeverUsed := by
  unfold Obligations.TheByteAtHeadIsNeverUsed
  intro c hl hi
  obtain ⟨hh, ht⟩ := hi.cursors_legal hl
  have hlt := c.used_lt_size
  refine ⟨by omega, fun i hiu heq => ?_⟩
  rw [← Ring.tail_add_used_mod hh ht] at heq
  exact Ring.mod_ne_of_lt (x := c.tail.toNat + i) (y := c.tail.toNat + c.used) (by omega) (by omega) heq.symm

/-- Settles O25: the outputs of a context that is not live are 0, and those of a live one are told by its cursors. -/
theorem statusOutputsShowEmptyAndFull : Obligations.StatusOutputsShowEmptyAndFull := by
  unfold Obligations.StatusOutputsShowEmptyAndFull
  refine ⟨?_, ?_⟩
  · intro s r c hc hi
    simp only [State.liveO, State.emptyO, State.fullO, List.getElem?_map, hc, Option.map_some]
    cases hl : c.live with
    | false => simp
    | true =>
      obtain ⟨hempty, hfull⟩ := emptyAndFullByTheCursors c hl hi
      simp only [Bool.true_and, true_and, Option.some.injEq]
      exact ⟨Bool.eq_iff_iff.2 (by rw [hempty, decide_eq_true_eq]),
        Bool.eq_iff_iff.2 (by rw [hfull, decide_eq_true_eq])⟩
  · intro i s t b h hb
    simp only [State.liveO, State.emptyO, State.fullO, (exec_effect h).rings_busy hb, and_self]

end Sys2Proof.Machine

/-! # The controller's own move, and contexts that are not live (10_state.md R38, R50, R52) -/

namespace Sys2Proof.Machine

/-! ## One step, by the phase and the host's next action -/

section

variable {s : State}

/-- An instruction the decoder reads is executed (R116). -/
theorem issue_of_decode {w : CmdWord} {i : Instr} (h : decode s.rings.length w = .ok i) : issue w s = exec i s := by
  simp only [issue, h]

/-- The host neither drives `rst` nor stores: the step is the controller's. -/
theorem step_eq_stepController
    (hin : s.inputs = [] ∨ ∃ w rest, s.inputs = .command w :: rest ∨ (∃ stores, s.inputs = .raced w stores :: rest) ∨
      s.inputs = .cut w :: rest) : step s = stepController s := by
  rcases hin with h | ⟨w, rest, h | ⟨stores, h⟩ | h⟩ <;> simp only [step, h]

theorem stepController_command (hr : s.rst = false) (hp : s.phase = .idle) {w : CmdWord} {rest : List HostInput}
    (hin : s.inputs = .command w :: rest) : stepController s = issue w (s.accept rest) := by
  simp [stepController, hr, hp, hin]

theorem stepController_idle (hr : s.rst = false) (hp : s.phase = .idle) (hin : s.inputs = []) :
    stepController s = .next s := by
  simp [stepController, hr, hp, hin]

theorem stepController_resp (hr : s.rst = false) {q : RspWord} (hp : s.phase = .resp q) :
    stepController s = .next (s.take q) := by
  simp [stepController, hr, hp]

end

/-- Settles O7: the step of a presented command in phase IDLE issues its word. -/
theorem stepRunsTheDecodedInstruction : Obligations.StepRunsTheDecodedInstruction := by
  unfold Obligations.StepRunsTheDecodedInstruction
  intro s w rest i hr hp hin hd
  calc step s = stepController s := step_eq_stepController (.inr ⟨w, rest, .inl hin⟩)
    _ = issue w (s.accept rest) := stepController_command hr hp hin
    _ = exec i (s.accept rest) := issue_of_decode hd

/-- Settles O10: the controller moves, and waits in IDLE or gives the response away in RESP. -/
theorem idleWaitsAndResponsesAreTakenFirst : Obligations.IdleWaitsAndResponsesAreTakenFirst := by
  unfold Obligations.IdleWaitsAndResponsesAreTakenFirst
  refine ⟨fun s hr hp hin => ?_, fun s q hr hp hin => ?_⟩
  · rw [step_eq_stepController (.inl hin), stepController_idle hr hp hin]
  · rw [step_eq_stepController hin, stepController_resp hr hp]
    rfl

/-! ## Contexts that are not live -/

section

variable {s : State} {ra rb : RingId} {cnt : Count} {c : Ring}

theorem liveRing_of_dead (hc : s.rings[ra.toNat]? = some c) (hl : c.live = false) :
    s.liveRing ra = .error .notLive := by
  simp [State.liveRing, State.ringOf, hc, hl]

theorem liveRingSpan_of_dead (hc : s.rings[ra.toNat]? = some c) (hl : c.live = false) (addr : HostAddr) (n : Count) :
    s.liveRingSpan ra addr n = .error .notLive := by
  simp only [State.liveRingSpan, liveRing_of_dead hc hl]

/-- COPY is refused where either of its contexts is not live, for that or for a check that comes before. -/
theorem copyRings_of_dead {r : RingId} (hr : r ∈ namedRings (.copy ra rb cnt)) (hc : s.rings[r.toNat]? = some c)
    (hl : c.live = false) : ∃ e, s.copyRings ra rb = .error e := by
  cases h : s.copyRings ra rb with
  | error e => exact ⟨e, rfl⟩
  | ok p =>
    obtain ⟨hd, ha, -, hdl, hal⟩ := State.copyRings_ok.1 h
    simp only [namedRings, List.mem_cons, List.not_mem_nil, or_false] at hr
    rcases hr with rfl | rfl
    · rw [hd] at hc; cases hc; simp [hl] at hdl
    · rw [ha] at hc; cases hc; simp [hl] at hal

end

/-- Settles O19: the operand check of every command but NEW fails on a context that is not live. -/
theorem aDeadContextRefusesAllButNew : Obligations.ADeadContextRefusesAllButNew := by
  unfold Obligations.ADeadContextRefusesAllButNew
  intro s i ra c hra hnew hc hl
  have hlive := liveRing_of_dead hc hl
  have hspan := liveRingSpan_of_dead hc hl
  cases i with
  | new r cnt =>
    obtain rfl := List.mem_singleton.1 hra
    exact absurd rfl (hnew cnt)
  | copy r r' cnt =>
    obtain ⟨e, he⟩ := copyRings_of_dead hra hc hl
    simp only [exec, execCopy, he]
    rfl
  | writeMem r addr cnt =>
    obtain rfl := List.mem_singleton.1 hra
    simp only [exec, execWriteMem, hspan]
    rfl
  | readMem r addr cnt =>
    obtain rfl := List.mem_singleton.1 hra
    simp only [exec, execReadMem, hspan]
    rfl
  | _ =>
    obtain rfl := List.mem_singleton.1 hra
    simp only [exec, execFree, execReset, execQueryBufsize, execQueryCapacity, execQueryFree, execQueryUsed,
      execQueryFull, execQueryEmpty, execQueryHead, execQueryTail, query, execReadFd, execWriteFd, execFind, execFill,
      hlive]
    rfl

end Sys2Proof.Machine

/-! # Words as bytes on a bus (20_memory.md R85) -/

namespace Sys2Proof

section

variable {m : Nat} (w : BitVec m)

theorem length_wordBytesFrom (k n : Nat) : (wordBytesFrom w k n).length = n := by
  induction n generalizing k with
  | zero => rfl
  | succ n ih => rw [wordBytesFrom, List.length_cons, ih]

theorem getElem?_wordBytesFrom {k n j : Nat} (hj : j < n) :
    (wordBytesFrom w k n)[j]? = some (w.extractLsb' (8 * (k + j)) 8) := by
  induction n generalizing k j with
  | zero => omega
  | succ n ih =>
    rw [wordBytesFrom]
    cases j with
    | zero => simp
    | succ j => rw [List.getElem?_cons_succ, ih (by omega), Nat.add_assoc, Nat.add_comm 1 j]

/-- The bytes from byte `k` on stand for the word without its bits below `8k`, cut to their number of bits. -/
theorem bytesToNat_wordBytesFrom (k n : Nat) :
    bytesToNat (wordBytesFrom w k n) = w.toNat / 2 ^ (8 * k) % 2 ^ (8 * n) := by
  induction n generalizing k with
  | zero => simp [wordBytesFrom, bytesToNat, Nat.mod_one]
  | succ n ih =>
    have hdiv : w.toNat / 2 ^ (8 * (k + 1)) = w.toNat / 2 ^ (8 * k) / 256 := by
      rw [Nat.div_div_eq_div_mul, Nat.mul_add, Nat.pow_add]
    have hpow : 2 ^ (8 * (n + 1)) = 256 * 2 ^ (8 * n) := by
      rw [Nat.mul_add, Nat.pow_add, Nat.mul_comm]
    rw [wordBytesFrom, bytesToNat, ih, hdiv, hpow, Nat.mod_mul, BitVec.extractLsb'_toNat, Nat.shiftRight_eq_div_pow]

/-- The bytes of a whole word stand for it. -/
theorem bytesToNat_wordBytesFrom_zero {n : Nat} (hm : m = 8 * n) : bytesToNat (wordBytesFrom w 0 n) = w.toNat := by
  subst hm
  rw [bytesToNat_wordBytesFrom, Nat.mul_zero, Nat.pow_zero, Nat.div_one, Nat.mod_eq_of_lt w.isLt]

end

theorem cmdOfBytes_cmdBytes (w : CmdWord) : cmdOfBytes (cmdBytes w) = some w := by
  rw [cmdOfBytes, cmdBytes, if_pos (length_wordBytesFrom ..), bytesToNat_wordBytesFrom_zero w rfl, BitVec.ofNat_toNat,
    BitVec.setWidth_eq]

/-- Settles O5: the 16 bytes are the word's, and stand for it. -/
theorem commandBytesAreLittleEndian : Obligations.CommandBytesAreLittleEndian := by
  unfold Obligations.CommandBytesAreLittleEndian
  intro w
  refine ⟨fun k hk => ?_, cmdOfBytes_cmdBytes w, fun rings => ?_⟩
  · rw [cmdBytes, getElem?_wordBytesFrom w hk, Nat.zero_add]
  · rw [decodeBytes, cmdOfBytes_cmdBytes, Option.map_some]

/-- Settles O55: the 9 bytes are the word's, and stand for it. -/
theorem responseBytesAreLittleEndian : Obligations.ResponseBytesAreLittleEndian := by
  unfold Obligations.ResponseBytesAreLittleEndian
  intro q
  refine ⟨length_wordBytesFrom .., fun k hk => ?_, ?_⟩
  · rw [rspBytes, getElem?_wordBytesFrom q hk, Nat.zero_add]
  · rw [rspBytes, bytesToNat_wordBytesFrom_zero q rfl, BitVec.ofNat_toNat, BitVec.setWidth_eq]

end Sys2Proof

/-! # Host stores and the phase BUSY (20_memory.md R74, R77) -/

namespace Sys2Proof.Machine

section

variable {s : State}

theorem step_store {a : HostAddr} {v : Byte} {rest : List HostInput} (hin : s.inputs = .store a v :: rest) :
    step s = .next { s with inputs := rest, hostMem := s.hostMem.write a.toNat v } := by
  simp only [step, hin, State.hostStore]

theorem step_rst {level : Bool} {rest : List HostInput} (hin : s.inputs = .rst level :: rest) :
    step s = .next ({ s with inputs := rest }.driveRst level) := by
  simp only [step, hin]

theorem stepController_busy (hr : s.rst = false) {b : Busy} (hp : s.phase = .busy b) :
    stepController s = .fault .stuck := by
  simp [stepController, hr, hp]

theorem stepController_raced (hr : s.rst = false) (hp : s.phase = .idle) {w : CmdWord}
    {stores : List (HostAddr × Byte)} {rest : List HostInput} (hin : s.inputs = .raced w stores :: rest) :
    stepController s = issueRaced w stores (s.accept rest) := by
  simp [stepController, hr, hp, hin]

end

/-- Settles O53: the step of a host store writes its byte. -/
theorem hostMemoryReturnsTheLastByteStored : Obligations.HostMemoryReturnsTheLastByteStored := by
  unfold Obligations.HostMemoryReturnsTheLastByteStored
  intro s a v rest hin
  exact ⟨_, step_store hin, Memory.hostByte_write s.hostMem a.toNat v⟩

/-- Of the effects of a step from phase BUSY, only driving `rst` to 1 leaves it. -/
theorem StepEffect.of_busy {s t : State} (h : StepEffect s t) {b : Busy} (hp : s.phase = .busy b) :
    (t.phase = .busy b ∧ t.rings = s.rings) ∨ ∃ rest, s.inputs = .rst true :: rest := by
  cases h with
  | drive level rest hin =>
    cases level with
    | true => exact .inr ⟨rest, hin⟩
    | false => exact .inl ⟨hp, rfl⟩
  | store => exact .inl ⟨hp, rfl⟩
  | waits => exact .inl ⟨hp, rfl⟩
  | take q _ hq => rw [hp] at hq; cases hq
  | command _ _ _ _ hidle | raced _ _ _ _ _ hidle | cut _ _ _ _ hidle => rw [hp] at hidle; cases hidle

/-- Settles O11: the step by the host's next action, and its effects. -/
theorem busyIsLeftOnlyByReset : Obligations.BusyIsLeftOnlyByReset := by
  unfold Obligations.BusyIsLeftOnlyByReset
  intro s b hr hp
  refine ⟨fun hin => ?_, fun a v rest hin => step_store hin, fun rest hin => ?_, fun rest hin => ?_, fun t h => ?_⟩
  · rw [step_eq_stepController hin, stepController_busy hr hp]
  · rw [step_rst hin]
    simp [State.driveRst, hr]
  · exact ⟨_, step_rst hin, rfl⟩
  · exact (step_effect h).of_busy hp

end Sys2Proof.Machine

/-! # Accesses of host memory and requests to the device (20_memory.md R70, R75, R77, R79-R82) -/

namespace Sys2Proof.Machine

/-! ## The first bytes of the used region -/

section

variable {c : Ring} {n : Nat}

/-- Used bytes are there to be read (R47). -/
theorem Ring.Inv.logicalFrom_used (hi : c.Inv) (hl : c.live = true) (hn : n ≤ c.used) :
    ∃ bs, c.logicalFrom 0 n = some bs :=
  Ring.logicalFrom_isSome fun j hj => by rw [Nat.zero_add]; exact hi.used_held hl j (by omega)

/-- READ_MEM's span loop on bytes that are used: they go to consecutive host addresses, whatever the host memory. -/
theorem Ring.Inv.takeSpans_used (hi : c.Inv) (hl : c.live = true) (hn : n ≤ c.used) :
    ∃ bs, c.logicalFrom 0 n = some bs ∧
      ∀ (addr : Nat) (m : Memory), Ring.takeSpans addr n n 0 c m = some (c.dropBytes n, m.writeSpan addr bs) := by
  obtain ⟨bs, hbs⟩ := hi.logicalFrom_used hl hn
  refine ⟨bs, hbs, fun addr m => ?_⟩
  rw [Ring.takeSpans_eq addr n n 0 c m (hi.cursors_legal hl).2 (by omega) (by omega), Nat.sub_zero, hbs]
  rfl

end

/-! ## Host memory after a span of writes -/

theorem Memory.hostByte_writeSpan (m : Memory) (a : Nat) (bs : List Byte) (b : Nat) :
    (m.writeSpan a bs).hostByte b =
      if a ≤ b ∧ b < a + bs.length then bs[b - a]?.getD (Config.hostByte b) else m.hostByte b := by
  simp only [Memory.hostByte, Memory.read?_writeSpan]
  split <;> rfl

theorem Memory.hostByte_writeSpan_outside (m : Memory) {a : Nat} {bs : List Byte} {b : Nat}
    (h : ¬ (a ≤ b ∧ b < a + bs.length)) : (m.writeSpan a bs).hostByte b = m.hostByte b := by
  rw [Memory.hostByte_writeSpan, if_neg h]

/-- Inside the span nothing of the memory before the writes is left. -/
theorem Memory.hostByte_writeSpan_inside (m m' : Memory) {a : Nat} {bs : List Byte} {b : Nat}
    (h : a ≤ b ∧ b < a + bs.length) : (m.writeSpan a bs).hostByte b = (m'.writeSpan a bs).hostByte b := by
  rw [Memory.hostByte_writeSpan, Memory.hostByte_writeSpan, if_pos h, if_pos h]

theorem Memory.hostByte_writeSpan_get (m : Memory) (a : Nat) {bs : List Byte} {i : Nat} (hi : i < bs.length) :
    some ((m.writeSpan a bs).hostByte (a + i)) = bs[i]? := by
  rw [Memory.hostByte_writeSpan, if_pos (by omega), Nat.add_sub_cancel_left, List.getElem?_eq_getElem hi]
  rfl

/-! ## What an instruction writes to host memory -/

/-- `bs`, written from address `a` on, is no byte at all or lies inside the span of a READ_MEM. -/
def WritesInSpan (i : Instr) (a : Nat) (bs : List Byte) : Prop :=
  ∀ b, a ≤ b ∧ b < a + bs.length →
    ∃ ra addr cnt, i = .readMem ra addr cnt ∧ addr.toNat ≤ b ∧ b < addr.toNat + cnt.toNat

theorem writesInSpan_nil (i : Instr) (a : Nat) : WritesInSpan i a [] := by
  intro b hb
  simp only [List.length_nil] at hb
  omega

/-- No byte outside the span of a READ_MEM is written. -/
theorem WritesInSpan.outside {i : Instr} {a : Nat} {bs : List Byte} (h : WritesInSpan i a bs) {b : Nat}
    (hb : ∀ ra addr cnt, i = .readMem ra addr cnt → b < addr.toNat ∨ addr.toNat + cnt.toNat ≤ b) :
    ¬ (a ≤ b ∧ b < a + bs.length) := by
  intro hin
  obtain ⟨ra, addr, cnt, hi, hlo, hhi⟩ := h b hin
  have := hb ra addr cnt hi
  omega

/-- From `s`, and from `s` with any other host memory and count of free choices, the instruction `i` writes to host
memory the bytes `bs` from address `a` on, and does all else alike. -/
def HostWrites (i : Instr) (s : State) (a : Nat) (bs : List Byte) : Prop :=
  ∀ m d, exec i (s.withHost m s.holes d) = mapNext (fun t => t.withHost (m.writeSpan a bs) s.holes d) (exec i s)

theorem HostWrites.hostMem {i : Instr} {s t : State} {a : Nat} {bs : List Byte} (h : HostWrites i s a bs)
    (ht : exec i s = .next t) : t.hostMem = s.hostMem.writeSpan a bs := by
  have hself := h s.hostMem s.draws
  rw [show s.withHost s.hostMem s.holes s.draws = s from rfl, ht] at hself
  exact congrArg State.hostMem (Host.Outcome.next.inj hself)

/-- READ_MEM writes at most CNT bytes, from ADDR on. -/
theorem hostWrites_readMem {s : State} (hs : s.Inv) (ra : RingId) (addr : HostAddr) (cnt : Count) :
    ∃ bs, bs.length ≤ cnt.toNat ∧ HostWrites (.readMem ra addr cnt) s addr.toNat bs := by
  have hspan : ∀ m d, (s.withHost m s.holes d).liveRingSpan ra addr cnt = s.liveRingSpan ra addr cnt := fun _ _ => rfl
  have hadm : ∀ m d, (s.withHost m s.holes d).admitted .write addr.toNat cnt.toNat =
    s.admitted .write addr.toNat cnt.toNat := fun _ _ => rfl
  have hle := State.admitted_le (s := s) .write addr.toNat cnt.toNat
  simp only [HostWrites, exec, execReadMem, hspan, hadm]
  generalize s.admitted .write addr.toNat cnt.toNat = n at hle ⊢
  cases hc : s.liveRingSpan ra addr cnt with
  | error r => exact ⟨[], Nat.zero_le _, fun _ _ => rfl⟩
  | ok c =>
    obtain ⟨hget, hl, -⟩ := State.liveRingSpan_ok.1 hc
    by_cases hu : c.used < cnt.toNat
    · simp only [if_pos hu]
      exact ⟨[], Nat.zero_le _, fun _ _ => rfl⟩
    · have hi := hs.rings_inv c (List.mem_of_getElem? hget)
      obtain ⟨bs, hbs, htake⟩ := hi.takeSpans_used hl (n := n) (by omega)
      have hlen := (Ring.logicalFrom_eq_some.1 hbs).1
      refine ⟨bs, by omega, fun m d => ?_⟩
      simp only [if_neg hu, htake]
      split <;> rfl

/-- Whatever host memory is, every instruction but WRITE_MEM writes the same bytes to it, inside the span of a READ_MEM
(R70, R75). -/
theorem exists_hostWrites {i : Instr} {s : State} (hs : s.Inv) (hw : ∀ ra addr cnt, i ≠ .writeMem ra addr cnt) :
    ∃ a bs, WritesInSpan i a bs ∧ HostWrites i s a bs := by
  by_cases hr : ∃ ra addr cnt, i = .readMem ra addr cnt
  · obtain ⟨ra, addr, cnt, rfl⟩ := hr
    obtain ⟨bs, hlen, h⟩ := hostWrites_readMem hs ra addr cnt
    exact ⟨addr.toNat, bs, fun b hb => ⟨ra, addr, cnt, rfl, hb.1, by omega⟩, h⟩
  · exact ⟨0, [], writesInSpan_nil i 0, fun m d =>
      exec_withHost m s.holes d hw fun ra addr cnt hi => hr ⟨ra, addr, cnt, hi⟩⟩

/-- Settles O47: the bytes written are none but those of a READ_MEM, from its ADDR on. -/
theorem hostMemoryIsWrittenOnlyInTheReadMemSpan : Obligations.HostMemoryIsWrittenOnlyInTheReadMemSpan := by
  unfold Obligations.HostMemoryIsWrittenOnlyInTheReadMemSpan
  intro i s t hs h
  refine ⟨fun hi => exec_hostMem hi h, ?_⟩
  rintro ra addr cnt rfl a ha
  obtain ⟨bs, hlen, hwrites⟩ := hostWrites_readMem hs ra addr cnt
  rw [State.memRead, hwrites.hostMem h, Memory.hostByte_writeSpan_outside _ (by omega)]
  rfl

/-! ## The device -/

/-- Settles O48: of the effects of an instruction, those that log a request. -/
theorem atMostOneDeviceRequest : Obligations.AtMostOneDeviceRequest := by
  unfold Obligations.AtMostOneDeviceRequest
  intro i s t h
  cases exec_effect h with
  | readFdBusy ra dh cnt b len rest h0 hle => exact .inr (.inl ⟨ra, dh, cnt, len, rfl, by omega, hle, rfl⟩)
  | readFdNone ra dh cnt len a rest st h0 hle => exact .inr (.inl ⟨ra, dh, cnt, len, rfl, by omega, hle, rfl⟩)
  | readFd ra dh cnt c len a rest hc hl hlen hr hn hb hle =>
    exact .inr (.inl ⟨ra, dh, cnt, len, rfl, by omega, by omega, rfl⟩)
  | writeFdBusy ra dh cnt b bytes rest h0 hle => exact .inr (.inr ⟨ra, dh, cnt, bytes, rfl, by omega, hle, rfl⟩)
  | writeFdNone ra dh cnt bytes n rest st h0 hle => exact .inr (.inr ⟨ra, dh, cnt, bytes, rfl, by omega, hle, rfl⟩)
  | writeFd ra dh cnt c bytes n rest hc hl hu hlen hr hn hle =>
    exact .inr (.inr ⟨ra, dh, cnt, bytes, rfl, by omega, by omega, rfl⟩)
  | refused | new | free | reset | answered | writeMem | writeMemBusy | fill | noBytes | readMem | readMemBusy | copy =>
    exact .inl rfl

theorem descRead_breach_of_lt {s : State} {dh : Handle} {len : Nat} {a : ReadAnswer} {rest : List (Option ReadAnswer)}
    (hr : s.readAnswers = some a :: rest) (hlt : (len : Int) < a.n.toInt) : descRead s dh len = .breach := by
  have hkeeps : a.keepsContract len = false := by
    rw [ReadAnswer.keepsContract, decide_eq_false (by omega), Bool.false_and]
  simp [descRead, hr, hkeeps]

theorem descWrite_breach_of_lt {s : State} {dh : Handle} {bytes : List Byte} {n : BitVec 64}
    {rest : List (Option (BitVec 64))} (hr : s.writeAnswers = some n :: rest) (hlt : (bytes.length : Int) < n.toInt) :
    descWrite s dh bytes = .breach := by
  simp only [descWrite, hr, if_neg (Int.not_le.2 hlt)]

/-- Settles O52: both commands make a request of at least one byte, and its result breaks the contract. -/
theorem aDeviceThatBreaksItsContractStops : Obligations.ADeviceThatBreaksItsContractStops := by
  unfold Obligations.ADeviceThatBreaksItsContractStops
  intro s ra dh cnt c hc hl hi hcnt
  obtain ⟨hh, ht⟩ := hi.cursors_legal hl
  have hlive := State.liveRing_ok.2 ⟨hc, hl⟩
  refine ⟨fun a rest hr hlt => ?_, fun n rest hr hu hlt => ?_⟩
  · have hlen : min cnt.toNat (c.size - c.head.toNat) ≠ 0 := by omega
    simp only [exec, execReadFd, hlive, if_neg hlen, descRead_breach_of_lt hr hlt]
  · have hlen : min cnt.toNat (c.size - c.tail.toNat) ≠ 0 := by omega
    obtain ⟨bs, hbs⟩ := hi.logicalFrom_used hl (n := min cnt.toNat (c.size - c.tail.toNat)) (by omega)
    have hbslen := (Ring.logicalFrom_eq_some.1 hbs).1
    rw [← Ring.getSpan_eq_logicalFrom c _ (by omega)] at hbs
    simp only [exec, execWriteFd, hlive, if_neg (Nat.not_lt.2 hu), if_neg hlen, hbs,
      descWrite_breach_of_lt hr (hbslen ▸ hlt)]

/-! ## Accesses that are not admitted -/

/-- The accesses admitted are those before the first that is not (R77, R84). -/
theorem State.admitted_eq_of_first {s : State} {dir : Dir} {a k n : Nat} (hn : n < k)
    (hbefore : ∀ j, j < n → s.hostAdmits (a + j) dir = true) (hfirst : s.hostAdmits (a + n) dir = false) :
    s.admitted dir a k = n := by
  rcases Nat.lt_trichotomy (s.admitted dir a k) n with hlt | heq | hgt
  · have hstop := State.not_hostAdmits_admitted (s := s) (dir := dir) (a := a) (n := k) (by omega)
    rw [hbefore _ hlt] at hstop
    cases hstop
  · exact heq
  · rw [State.hostAdmits_of_lt_admitted hgt] at hfirst
    cases hfirst

/-- Settles O49: both commands stop at the first access that is not admitted. -/
theorem anUnadmittedAccessLeavesTheCommandBusy : Obligations.AnUnadmittedAccessLeavesTheCommandBusy := by
  unfold Obligations.AnUnadmittedAccessLeavesTheCommandBusy
  intro s ra addr cnt c n hc hl hi hspan hn
  have hring := State.liveRingSpan_ok.2 ⟨hc, hl, hspan⟩
  refine ⟨fun hbefore hfirst => ?_, fun hu hbefore hfirst => ?_⟩
  · have hadm := State.admitted_eq_of_first hn hbefore hfirst
    simp only [exec, execWriteMem, hring, hadm, if_pos hn]
    exact ⟨_, rfl, rfl, rfl⟩
  · have hadm := State.admitted_eq_of_first hn hbefore hfirst
    obtain ⟨bs, hbs, htake⟩ := hi.takeSpans_used hl (n := n) (by omega)
    obtain ⟨hlen, hget⟩ := Ring.logicalFrom_eq_some.1 hbs
    simp only [exec, execReadMem, hring, hadm, if_neg (Nat.not_lt.2 hu), htake, if_pos hn]
    refine ⟨_, _, rfl, rfl, rfl, fun i hin => ?_, fun a ha => ?_⟩
    · rw [Memory.hostByte_writeSpan_get _ _ (by omega), ← hget i hin, Nat.zero_add]
    · rw [Memory.hostByte_writeSpan_outside _ (by omega)]
      rfl

end Sys2Proof.Machine

/-! # Commands that host stores race (20_memory.md R90, log 9) -/

namespace Sys2Proof.Machine

namespace State

variable (s : State) (stores : List (HostAddr × Byte))

@[simp] theorem hostStores_rings : (s.hostStores stores).rings = s.rings := by rw [hostStores_only_hostMem]
@[simp] theorem hostStores_phase : (s.hostStores stores).phase = s.phase := by rw [hostStores_only_hostMem]
@[simp] theorem hostStores_requests : (s.hostStores stores).requests = s.requests := by rw [hostStores_only_hostMem]
@[simp] theorem hostStores_readAnswers : (s.hostStores stores).readAnswers = s.readAnswers := by
  rw [hostStores_only_hostMem]
@[simp] theorem hostStores_writeAnswers : (s.hostStores stores).writeAnswers = s.writeAnswers := by
  rw [hostStores_only_hostMem]

end State

/-- Host memory as a command raced by `stores` finds it: the early stores are there, address by address. -/
def State.racedMem (s : State) (stores : List (HostAddr × Byte)) : Memory :=
  (s.hostStores (earlyStores s.draws 0 stores)).hostMem

section

variable {s t : State} {stores : List (HostAddr × Byte)}

/-- A raced command runs on the host memory it finds, and the late stores come after it. -/
theorem issueRaced_next {w : CmdWord} {i : Instr} (hd : decode s.rings.length w = .ok i)
    (h : issueRaced w stores s = .next t) :
    ∃ u, exec i (s.withHost (s.racedMem stores) s.holes (s.draws + 1)) = .next u ∧
      t = u.hostStores (lateStores s.draws 0 stores) := by
  have hfound : { s.hostStores (earlyStores s.draws 0 stores) with draws := s.draws + 1 } =
      s.withHost (s.racedMem stores) s.holes (s.draws + 1) := by
    rw [State.hostStores_only_hostMem]
    rfl
  rw [issueRaced, hfound, issue_of_decode (s := s.withHost (s.racedMem stores) s.holes (s.draws + 1)) hd] at h
  exact mapNext_eq_next.1 h

theorem step_raced_next {w : CmdWord} {rest : List HostInput} {i : Instr} (hr : s.rst = false) (hp : s.phase = .idle)
    (hin : s.inputs = .raced w stores :: rest) (hd : decode s.rings.length w = .ok i) (h : step s = .next t) :
    ∃ u, exec i ((s.accept rest).withHost ((s.accept rest).racedMem stores) (s.accept rest).holes (s.draws + 1)) =
      .next u ∧ t = u.hostStores (lateStores s.draws 0 stores) := by
  rw [step_eq_stepController (.inr ⟨w, rest, .inr (.inl ⟨stores, hin⟩)⟩), stepController_raced hr hp hin] at h
  exact issueRaced_next (s := s.accept rest) hd h

theorem memRead_hostStores_accept (s : State) (rest : List HostInput) (stores : List (HostAddr × Byte)) (a : Nat) :
    ((s.accept rest).hostStores stores).memRead a = (s.hostStores stores).memRead a := by
  rw [memRead_hostStores, memRead_hostStores]
  rfl

theorem hostByte_racedMem (s : State) (stores : List (HostAddr × Byte)) (a : Nat) :
    (s.racedMem stores).hostByte a = (lastStored (earlyStores s.draws 0 stores) a).getD (s.memRead a) :=
  memRead_hostStores ..

/-- The last of some of the stores to an address, where there is one, is one of the stores. -/
theorem getD_lastStored_cases {part : List (HostAddr × Byte)} (hsub : ∀ p ∈ part, p ∈ stores) (a : Nat) (v : Byte) :
    (lastStored part a).getD v = v ∨ ∃ p ∈ stores, p.1.toNat = a ∧ (lastStored part a).getD v = p.2 := by
  cases hlast : lastStored part a with
  | none => exact .inl rfl
  | some x =>
    obtain ⟨p, hp, hpa, hx⟩ := lastStored_mem hlast
    exact .inr ⟨p, hsub p hp, hpa, hx⟩

/-- Each byte that a raced command finds is the old one or one that the host stores there. -/
theorem hostByte_racedMem_cases (s : State) (stores : List (HostAddr × Byte)) (a : Nat) :
    (s.racedMem stores).hostByte a = s.memRead a ∨
      ∃ p ∈ stores, p.1.toNat = a ∧ (s.racedMem stores).hostByte a = p.2 := by
  rw [hostByte_racedMem]
  exact getD_lastStored_cases (fun _ => mem_of_mem_earlyStores) a _

/-- Each byte that it leaves by writing a span is the one it leaves without the stores, or one that the host stores
there. -/
theorem hostByte_writeSpan_racedMem_cases (s : State) (stores : List (HostAddr × Byte)) (a : Nat) (bs : List Byte)
    (b : Nat) : ((s.racedMem stores).writeSpan a bs).hostByte b = (s.hostMem.writeSpan a bs).hostByte b ∨
      ∃ p ∈ stores, p.1.toNat = b ∧ ((s.racedMem stores).writeSpan a bs).hostByte b = p.2 := by
  by_cases hb : a ≤ b ∧ b < a + bs.length
  · exact .inl (Memory.hostByte_writeSpan_inside _ _ hb)
  · rw [Memory.hostByte_writeSpan_outside _ hb, Memory.hostByte_writeSpan_outside _ hb]
    exact hostByte_racedMem_cases s stores b

/-- Where the command writes nothing, the whole run of stores is in host memory afterwards. -/
theorem memRead_lateStores_of_racedMem {u : State} {a : Nat} (hu : u.memRead a = (s.racedMem stores).hostByte a) :
    (u.hostStores (lateStores s.draws 0 stores)).memRead a = (s.hostStores stores).memRead a := by
  rw [memRead_hostStores, memRead_hostStores, hu, hostByte_racedMem, ← lastStored_late_or_early s.draws 0 a stores]
  cases lastStored (lateStores s.draws 0 stores) a <;> rfl

end

/-- WRITE_MEM does not look at the count of free choices. -/
theorem exec_writeMem_withDraws (s : State) (ra : RingId) (addr : HostAddr) (cnt : Count) (m : Memory) (d : Nat) :
    exec (.writeMem ra addr cnt) (s.withHost m s.holes d) =
      mapNext (fun t => t.withHost t.hostMem t.holes d) (exec (.writeMem ra addr cnt) { s with hostMem := m }) := by
  have hring : (s.withHost m s.holes d).liveRingSpan ra addr cnt =
    { s with hostMem := m }.liveRingSpan ra addr cnt := rfl
  have hadm : (s.withHost m s.holes d).admitted .read addr.toNat cnt.toNat =
    { s with hostMem := m }.admitted .read addr.toNat cnt.toNat := rfl
  simp only [exec, execWriteMem, hring, hadm]
  split
  · rfl
  · split <;> rfl

/-- Settles O16: the command runs on the host memory it finds. -/
theorem racedWriteMemReadsOldOrNewBytes : Obligations.RacedWriteMemReadsOldOrNewBytes := by
  unfold Obligations.RacedWriteMemReadsOldOrNewBytes
  intro s t w rest stores ra addr cnt hr hp hin hd h
  obtain ⟨u, hu, rfl⟩ := step_raced_next hr hp hin hd h
  have hmem := exec_hostMem (by simp) hu
  refine ⟨fun a => ?_, (s.accept rest).racedMem stores, ?_⟩
  · exact (memRead_lateStores_of_racedMem (s := s.accept rest) (congrArg (Memory.hostByte · a) hmem)).trans
      (memRead_hostStores_accept s rest stores a)
  · rw [exec_writeMem_withDraws] at hu
    obtain ⟨v, hv, rfl⟩ := mapNext_eq_next.1 hu
    exact ⟨v, hostByte_racedMem_cases (s.accept rest) stores, hv, State.hostStores_rings .., State.hostStores_phase ..⟩

/-- Settles O54: the command writes the same bytes to host memory with the stores as without them, and each other byte
is what the stores leave. -/
theorem racingStoresTouchHostMemoryAlone : Obligations.RacingStoresTouchHostMemoryAlone := by
  unfold Obligations.RacingStoresTouchHostMemoryAlone
  intro s t w rest stores i hs hr hp hin hd hw h
  obtain ⟨r, hrun, rfl⟩ := step_raced_next hr hp hin hd h
  obtain ⟨a, bs, hspan, hwrites⟩ := exists_hostWrites (hs.accept rest) hw
  rw [hwrites] at hrun
  obtain ⟨u, hu, rfl⟩ := mapNext_eq_next.1 hrun
  have hmem := hwrites.hostMem hu
  refine ⟨u, hu, State.hostStores_rings .., State.hostStores_phase .., State.hostStores_requests ..,
    State.hostStores_readAnswers .., State.hostStores_writeAnswers .., fun b => ?_, fun b hb => ?_⟩
  · rw [memRead_hostStores, State.memRead, State.memRead, hmem]
    rcases getD_lastStored_cases (fun _ => mem_of_mem_lateStores) b _ with hnone | hstored
    · rw [hnone]
      exact hostByte_writeSpan_racedMem_cases (s.accept rest) stores a bs b
    · exact .inr hstored
  · have hfound := Memory.hostByte_writeSpan_outside ((s.accept rest).racedMem stores) (hspan.outside hb)
    exact (memRead_lateStores_of_racedMem (s := s.accept rest) (u := State.withHost ..) hfound).trans
      (memRead_hostStores_accept s rest stores b)

end Sys2Proof.Machine

/-! # The encoding of commands (30_encoding.md R101, R108-R112, R119)

`Carries w i` says which fields of a word select the instruction `i` with its operands; the decoder, and the used bits of
the encoding, are both tied to it, and the statements on the encoding follow. -/

namespace Sys2Proof

/-! ## Words by their fields -/

/-- Two words with the same fields are the same. -/
theorem cmdWord_eq_iff {v w : CmdWord} :
    v = w ↔ fieldRsv v = fieldRsv w ∧ fieldOpc v = fieldOpc w ∧ fieldRa v = fieldRa w ∧ fieldRb v = fieldRb w ∧
      fieldB8 v = fieldB8 w ∧ fieldDh v = fieldDh w ∧ fieldCnt v = fieldCnt w ∧ fieldAddr v = fieldAddr w := by
  refine ⟨by rintro rfl; simp, fun ⟨hrsv, hopc, hra, hrb, hb8, hdh, hcnt, haddr⟩ => ?_⟩
  rw [← packFields_fields v, ← packFields_fields w, hopc, hrsv, hra, hrb, hb8, hdh, hcnt, haddr]

section

variable (v w : CmdWord)

@[simp] theorem fieldOpc_and : fieldOpc (v &&& w) = fieldOpc v &&& fieldOpc w := BitVec.extractLsb'_and
@[simp] theorem fieldRsv_and : fieldRsv (v &&& w) = fieldRsv v &&& fieldRsv w := BitVec.extractLsb'_and
@[simp] theorem fieldRa_and : fieldRa (v &&& w) = fieldRa v &&& fieldRa w := BitVec.extractLsb'_and
@[simp] theorem fieldRb_and : fieldRb (v &&& w) = fieldRb v &&& fieldRb w := BitVec.extractLsb'_and
@[simp] theorem fieldB8_and : fieldB8 (v &&& w) = fieldB8 v &&& fieldB8 w := BitVec.extractLsb'_and
@[simp] theorem fieldDh_and : fieldDh (v &&& w) = fieldDh v &&& fieldDh w := BitVec.extractLsb'_and
@[simp] theorem fieldCnt_and : fieldCnt (v &&& w) = fieldCnt v &&& fieldCnt w := BitVec.extractLsb'_and
@[simp] theorem fieldAddr_and : fieldAddr (v &&& w) = fieldAddr v &&& fieldAddr w := BitVec.extractLsb'_and

/-! The masks of `usedBits` for a field that is used. -/

@[simp] theorem and_mask4 (x : BitVec 4) : x &&& 15#4 = x := BitVec.and_allOnes
@[simp] theorem and_mask8 (x : BitVec 8) : x &&& 255#8 = x := BitVec.and_allOnes
@[simp] theorem and_mask32 (x : BitVec 32) : x &&& 0xFFFFFFFF#32 = x := BitVec.and_allOnes
@[simp] theorem and_mask64 (x : BitVec 64) : x &&& 0xFFFFFFFFFFFFFFFF#64 = x := BitVec.and_allOnes

end

/-! ## The fields that select an instruction -/

/-- OPC, the selector of a query, and the operands of the word are those of the instruction (R109, R110). -/
def Carries (w : CmdWord) : Instr → Prop
  | .new ra cnt => fieldOpc w = 1#4 ∧ fieldRa w = ra ∧ fieldCnt w = cnt
  | .free ra => fieldOpc w = 2#4 ∧ fieldRa w = ra
  | .reset ra => fieldOpc w = 3#4 ∧ fieldRa w = ra
  | .queryBufsize ra => fieldOpc w = 4#4 ∧ fieldRa w = ra ∧ fieldB8 w = 0#8
  | .queryCapacity ra => fieldOpc w = 4#4 ∧ fieldRa w = ra ∧ fieldB8 w = 1#8
  | .queryFree ra => fieldOpc w = 4#4 ∧ fieldRa w = ra ∧ fieldB8 w = 2#8
  | .queryUsed ra => fieldOpc w = 4#4 ∧ fieldRa w = ra ∧ fieldB8 w = 3#8
  | .queryFull ra => fieldOpc w = 4#4 ∧ fieldRa w = ra ∧ fieldB8 w = 4#8
  | .queryEmpty ra => fieldOpc w = 4#4 ∧ fieldRa w = ra ∧ fieldB8 w = 5#8
  | .queryHead ra => fieldOpc w = 4#4 ∧ fieldRa w = ra ∧ fieldB8 w = 6#8
  | .queryTail ra => fieldOpc w = 4#4 ∧ fieldRa w = ra ∧ fieldB8 w = 7#8
  | .writeMem ra addr cnt => fieldOpc w = 5#4 ∧ fieldRa w = ra ∧ fieldCnt w = cnt ∧ fieldAddr w = addr
  | .readFd ra dh cnt => fieldOpc w = 6#4 ∧ fieldRa w = ra ∧ fieldDh w = dh ∧ fieldCnt w = cnt
  | .readMem ra addr cnt => fieldOpc w = 7#4 ∧ fieldRa w = ra ∧ fieldCnt w = cnt ∧ fieldAddr w = addr
  | .writeFd ra dh cnt => fieldOpc w = 8#4 ∧ fieldRa w = ra ∧ fieldDh w = dh ∧ fieldCnt w = cnt
  | .copy ra rb cnt => fieldOpc w = 9#4 ∧ fieldRa w = ra ∧ fieldRb w = rb ∧ fieldCnt w = cnt
  | .find ra b8 cnt => fieldOpc w = 10#4 ∧ fieldRa w = ra ∧ fieldB8 w = b8 ∧ fieldCnt w = cnt
  | .fill ra b8 cnt => fieldOpc w = 11#4 ∧ fieldRa w = ra ∧ fieldB8 w = b8 ∧ fieldCnt w = cnt

section

variable {rings : Nat} {w : CmdWord} {i : Instr}

theorem carries_encode (i : Instr) : fieldRsv (encode i) = 0#4 ∧ Carries (encode i) i := by
  cases i <;> simp [encode, Carries]

/-- Under the mask of the used bits the fields that select the instruction are left, and the others are 0. -/
theorem and_usedBits_eq_encode_iff : w &&& usedBits i = encode i ↔ fieldRsv w = 0#4 ∧ Carries w i := by
  rw [cmdWord_eq_iff]
  cases i <;> simp [usedBits, encode, Carries]

theorem encode_and_usedBits (i : Instr) : encode i &&& usedBits i = encode i :=
  and_usedBits_eq_encode_iff.2 (carries_encode i)

/-! ## The decoder -/

/-- The reserved encodings (R111). -/
def Reserved (w : CmdWord) : Prop :=
  (fieldOpc w).toNat ∈ [0x0, 0xC, 0xD, 0xE, 0xF] ∨ fieldRsv w ≠ 0#4 ∨
    ((fieldOpc w).toNat = 4 ∧ 8 ≤ (fieldB8 w).toNat)

theorem not_reserved_of_carries (hrsv : fieldRsv w = 0#4) (h : Carries w i) : ¬ Reserved w := by
  cases i <;> simp only [Carries] at h <;> simp [Reserved, h, hrsv]

/-- A query word carries the query of its selector, or its selector is reserved (R110, R111). -/
theorem decodeQuery_cases (hopc : (fieldOpc w).toNat = 4) :
    (∃ i, decodeQuery (fieldB8 w) (fieldRa w) = some i ∧ Carries w i) ∨
      (decodeQuery (fieldB8 w) (fieldRa w) = none ∧ 8 ≤ (fieldB8 w).toNat) := by
  generalize hd : decodeQuery (fieldB8 w) (fieldRa w) = d
  unfold decodeQuery at hd
  split at hd <;> subst hd
  case h_9 =>
    refine .inr ⟨rfl, ?_⟩
    simp only [imp_false] at *
    omega
  all_goals exact .inl ⟨_, rfl, by simp_all [Carries, ← BitVec.toNat_inj]⟩

/-- A word is read as the instruction that its fields select, or it is reserved and no instruction (R112). -/
theorem decode_cases (rings : Nat) (w : CmdWord) :
    (∃ i, decode rings w = .ok i ∧ fieldRsv w = 0#4 ∧ Carries w i) ∨ (∃ r, decode rings w = .error r ∧ Reserved w) := by
  generalize hd : decode rings w = d
  unfold decode at hd
  split at hd
  -- OPC is none of the reserved values
  case h_6 =>
    split at hd
    · subst hd
      exact .inr ⟨_, rfl, .inr (.inl ‹_›)⟩
    rename_i hrsv
    rw [ne_eq, not_not] at hrsv
    split at hd
    -- QUERY: its selector decides
    case h_4 hopc =>
      rcases decodeQuery_cases hopc with ⟨i, hi, hcarries⟩ | ⟨hnone, hsel⟩
      · rw [hi] at hd; subst hd
        exact .inl ⟨i, rfl, hrsv, hcarries⟩
      · refine .inr ?_
        rw [hnone] at hd
        dsimp only at hd
        split at hd <;> subst hd <;> exact ⟨_, rfl, .inr (.inr ⟨hopc, hsel⟩)⟩
    -- no value of OPC is left
    case h_12 =>
      have hlt := (fieldOpc w).isLt
      simp only [imp_false] at *
      omega
    all_goals
      subst hd
      exact .inl ⟨_, rfl, hrsv, by simp_all [Carries, ← BitVec.toNat_inj]⟩
  all_goals
    subst hd
    exact .inr ⟨_, rfl, .inl (by simp_all)⟩

theorem decode_of_carries (hrsv : fieldRsv w = 0#4) (h : Carries w i) : decode rings w = .ok i := by
  cases i <;> simp only [Carries] at h <;> simp [decode, decodeQuery, h, hrsv]

/-- The decoder reads exactly the instruction that the fields of the word select. -/
theorem decode_eq_ok_iff : decode rings w = .ok i ↔ fieldRsv w = 0#4 ∧ Carries w i := by
  refine ⟨fun h => ?_, fun ⟨hrsv, hcarries⟩ => decode_of_carries hrsv hcarries⟩
  rcases decode_cases rings w with ⟨j, hj, hsel⟩ | ⟨r, hr, -⟩
  · rw [h] at hj; cases hj
    exact hsel
  · rw [h] at hr; cases hr

theorem decode_encode (rings : Nat) (i : Instr) : decode rings (encode i) = .ok i :=
  decode_eq_ok_iff.2 (carries_encode i)

/-- The word of the opcode table is read in full. -/
theorem decodeTableWord_toNat (w : CmdWord) (h : decode Config.maxRings w = .ok i) :
    decodeTableWord 128 w.toNat = some i := by
  rw [decodeTableWord, Nat.mod_eq_of_lt w.isLt, BitVec.ofNat_toNat, BitVec.setWidth_eq, h]

theorem exists_decode_iff_not_reserved : (∃ i, decode rings w = .ok i) ↔ ¬ Reserved w := by
  refine ⟨fun ⟨i, hi⟩ => ?_, fun h => ?_⟩
  · obtain ⟨hrsv, hcarries⟩ := decode_eq_ok_iff.1 hi
    exact not_reserved_of_carries hrsv hcarries
  · rcases decode_cases rings w with ⟨i, hi, -⟩ | ⟨r, -, hres⟩
    · exact ⟨i, hi⟩
    · exact absurd hres h

end

/-! ## The obligations -/

/-- Settles O1: the fields of an encoding select its instruction. -/
theorem decodeOfEncodeIsTheInstruction : Obligations.DecodeOfEncodeIsTheInstruction := by
  unfold Obligations.DecodeOfEncodeIsTheInstruction
  intro rings i
  exact ⟨decode_encode rings i, decodeTableWord_toNat _ (decode_encode _ i)⟩

/-- Settles O2: the decoder and the used bits look at the same fields. -/
theorem decodeReadsExactlyTheUsedBits : Obligations.DecodeReadsExactlyTheUsedBits := by
  unfold Obligations.DecodeReadsExactlyTheUsedBits
  refine ⟨fun rings w i => decode_eq_ok_iff.trans and_usedBits_eq_encode_iff.symm, fun i => ?_⟩
  rw [← encode_and_usedBits i, BitVec.and_assoc, BitVec.and_not_self]
  exact BitVec.and_zero

/-- Settles O3: the decoder errs exactly on the reserved encodings. -/
theorem everyWordIsLegalOrReserved : Obligations.EveryWordIsLegalOrReserved := by
  unfold Obligations.EveryWordIsLegalOrReserved
  intro rings w
  exact exists_decode_iff_not_reserved

/-- A line that names an instruction assembles to its encoding, which decodes to it. -/
theorem assemble_of_readLine {line : String} {w : CmdWord} {i : Instr} (hline : Assembler.readLine line = .command i)
    (hw : encode i = w) :
    Assembler.assemble line = some w ∧ decodeTableWord 128 w.toNat = some i ∧ encode i = w := by
  subst hw
  refine ⟨?_, decodeTableWord_toNat _ (decode_encode _ i), rfl⟩
  simp only [Assembler.assemble, hline]

/-- Settles O4: each line names its instruction, and the word beside it is the encoding. -/
theorem encodingExamplesAssembleAndDecode : Obligations.EncodingExamplesAssembleAndDecode := by
  unfold Obligations.EncodingExamplesAssembleAndDecode
  intro row
  refine ⟨?_, ?_, ?_, ?_, ?_, ?_, ?_, ?_, ?_, ?_, ?_, ?_⟩ <;> exact assemble_of_readLine (by decide) (by decide)

end Sys2Proof

/-! # The answers to reserved and ill-formed commands (30_encoding.md R111, R116; 60_exceptions.md R275)

`Admitted s i` says that the checks of R116 on the operands of `i` pass; an instruction is answered with ILLEGAL where it
is not admitted, and no other one is but NEW of capacity 0. -/

namespace Sys2Proof.Machine

section

variable {s : State} {w : CmdWord} {i : Instr} {ra rb : RingId} {addr : HostAddr} {cnt : Count}

/-! ## The step of a presented command -/

/-- A word the decoder refuses is answered with ILLEGAL (R275). -/
theorem issue_of_error {r : IllegalReason} (h : decode s.rings.length w = .error r) :
    issue w s = .next (s.respond .illegal 0 false) := by
  simp only [issue, h, State.raiseIllegal_eq]

theorem step_command (hr : s.rst = false) (hp : s.phase = .idle) {rest : List HostInput}
    (hin : s.inputs = .command w :: rest) : step s = issue w (s.accept rest) := by
  rw [step_eq_stepController (.inr ⟨w, rest, .inl hin⟩), stepController_command hr hp hin]

theorem issue_of_reserved (h : Reserved w) : issue w s = .next (s.respond .illegal 0 false) := by
  rcases decode_cases s.rings.length w with ⟨i, -, hrsv, hcarries⟩ | ⟨r, hd, -⟩
  · exact absurd h (not_reserved_of_carries hrsv hcarries)
  · exact issue_of_error hd

/-! ## The operand checks -/

theorem State.isLive_iff {r : Nat} : s.isLive r = true ↔ ∃ c, s.rings[r]? = some c ∧ c.live = true := by
  unfold State.isLive
  cases s.rings[r]? <;> simp

/-- A live context is one of the machine's. -/
theorem State.lt_length_of_isLive {r : Nat} (h : s.isLive r = true) : r < s.rings.length := by
  obtain ⟨c, hc, -⟩ := State.isLive_iff.1 h
  exact (List.getElem?_eq_some_iff.1 hc).1

theorem State.exists_freshRing_ok :
    (∃ c, s.freshRing ra = .ok c) ↔ ra.toNat < s.rings.length ∧ s.isLive ra.toNat = false := by
  simp only [State.freshRing_ok, State.isLive]
  cases h : s.rings[ra.toNat]? with
  | none => simpa using h
  | some c => simp [(List.getElem?_eq_some_iff.1 h).1]

theorem State.exists_liveRing_ok : (∃ c, s.liveRing ra = .ok c) ↔ s.isLive ra.toNat = true := by
  simp only [State.liveRing_ok, State.isLive_iff]

theorem State.exists_liveRingSpan_ok :
    (∃ c, s.liveRingSpan ra addr cnt = .ok c) ↔ s.isLive ra.toNat = true ∧ addr.toNat + cnt.toNat ≤ 2 ^ 64 := by
  simp only [State.liveRingSpan_ok, State.isLive_iff, ← and_assoc, exists_and_right]

theorem State.exists_copyRings_ok :
    (∃ p, s.copyRings ra rb = .ok p) ↔ s.isLive ra.toNat = true ∧ s.isLive rb.toNat = true ∧ rb ≠ ra := by
  simp only [Prod.exists, State.copyRings_ok, State.isLive_iff]
  constructor
  · rintro ⟨d, c, hd, hc, hne, hdl, hcl⟩
    exact ⟨⟨d, hd, hdl⟩, ⟨c, hc, hcl⟩, hne⟩
  · rintro ⟨⟨d, hd, hdl⟩, ⟨c, hc, hcl⟩, hne⟩
    exact ⟨d, c, hd, hc, hne, hdl, hcl⟩

/-- The checks of R116 on the operands of an instruction pass (R38, R76, R106). -/
def Admitted (s : State) : Instr → Prop
  | .new ra _ => ra.toNat < s.rings.length ∧ s.isLive ra.toNat = false
  | .writeMem ra addr cnt => s.isLive ra.toNat = true ∧ addr.toNat + cnt.toNat ≤ 2 ^ 64
  | .readMem ra addr cnt => s.isLive ra.toNat = true ∧ addr.toNat + cnt.toNat ≤ 2 ^ 64
  | .copy ra rb _ => s.isLive ra.toNat = true ∧ s.isLive rb.toNat = true ∧ rb ≠ ra
  | i => ∀ ra ∈ namedRings i, s.isLive ra.toNat = true

theorem exists_error_of_not_ok {ε α : Type} {x : Except ε α} (h : ¬ ∃ a, x = .ok a) : ∃ e, x = .error e := by
  cases x with
  | error e => exact ⟨e, rfl⟩
  | ok a => exact absurd ⟨a, rfl⟩ h

/-- An instruction that is not admitted is answered with ILLEGAL, and nothing else changes (R116, R275). -/
theorem exec_of_not_admitted (h : ¬ Admitted s i) : exec i s = .next (s.respond .illegal 0 false) := by
  cases i with
  | new ra cnt =>
    obtain ⟨e, he⟩ := exists_error_of_not_ok (mt State.exists_freshRing_ok.1 h)
    simp only [exec, execNew, he, State.raiseIllegal_eq]
  | writeMem ra addr cnt =>
    obtain ⟨e, he⟩ := exists_error_of_not_ok (mt State.exists_liveRingSpan_ok.1 h)
    simp only [exec, execWriteMem, he, State.raiseIllegal_eq]
  | readMem ra addr cnt =>
    obtain ⟨e, he⟩ := exists_error_of_not_ok (mt State.exists_liveRingSpan_ok.1 h)
    simp only [exec, execReadMem, he, State.raiseIllegal_eq]
  | copy ra rb cnt =>
    obtain ⟨e, he⟩ := exists_error_of_not_ok (mt State.exists_copyRings_ok.1 h)
    simp only [exec, execCopy, he, State.raiseIllegal_eq]
  | _ =>
    simp only [Admitted, namedRings, List.mem_singleton, forall_eq] at h
    obtain ⟨e, he⟩ := exists_error_of_not_ok (mt State.exists_liveRing_ok.1 h)
    simp only [exec, execFree, execReset, execQueryBufsize, execQueryCapacity, execQueryFree, execQueryUsed,
      execQueryFull, execQueryEmpty, execQueryHead, execQueryTail, query, execReadFd, execWriteFd, execFind, execFill,
      he, State.raiseIllegal_eq]

/-! ## Who answers with ILLEGAL -/

/-- The outcome is a response with STATUS ILLEGAL. -/
def AnswersIllegal (o : Host.Outcome State Fault Refusal) : Prop :=
  ∃ t q, o = .next t ∧ t.response = some q ∧ rspStatus q = statusCode .illegal

@[simp] theorem answersIllegal_respond {st : Status} {v : Int} {ovf : Bool} :
    AnswersIllegal (.next (s.respond st v ovf)) ↔ st = .illegal := by
  simp only [AnswersIllegal, Host.Outcome.next.injEq, exists_and_left, exists_eq_left', State.respond_response,
    Option.some.injEq, rspStatus_packResponse]
  exact ⟨statusCode_injective, congrArg statusCode⟩

@[simp] theorem not_answersIllegal_stall {b : Busy} : ¬ AnswersIllegal (.next (s.stall b)) := by
  rintro ⟨t, q, ht, hq, -⟩
  cases ht
  simp at hq

@[simp] theorem not_answersIllegal_fault {f : Fault} : ¬ AnswersIllegal (.fault f) := by
  rintro ⟨t, q, ht, -⟩
  cases ht

/-- Of the instructions that are admitted, only NEW of capacity 0 is answered with ILLEGAL (R141). -/
theorem eq_new_zero_of_answersIllegal (ha : Admitted s i) (h : AnswersIllegal (exec i s)) : ∃ ra, i = .new ra 0 := by
  cases i with
  | new ra cnt =>
    obtain ⟨c, hc⟩ := State.exists_freshRing_ok.2 ha
    simp only [exec, execNew, hc] at h
    split at h
    · rename_i hcnt
      exact ⟨ra, by rw [hcnt]; rfl⟩
    · split at h <;> simp [State.raiseAllocFail_eq] at h
  | writeMem ra addr cnt =>
    obtain ⟨c, hc⟩ := State.exists_liveRingSpan_ok.2 ha
    simp only [exec, execWriteMem, hc] at h
    split at h <;> simp at h
  | readMem ra addr cnt =>
    obtain ⟨c, hc⟩ := State.exists_liveRingSpan_ok.2 ha
    simp only [exec, execReadMem, hc] at h
    (repeat' split at h) <;> simp [State.raiseUnderflow_eq] at h
  | copy ra rb cnt =>
    obtain ⟨p, hp⟩ := State.exists_copyRings_ok.2 ha
    simp only [exec, execCopy, hp] at h
    (repeat' split at h) <;> simp [State.raiseUnderflow_eq] at h
  | _ =>
    simp only [Admitted, namedRings, List.mem_singleton, forall_eq] at ha
    obtain ⟨c, hc⟩ := State.exists_liveRing_ok.2 ha
    simp only [exec, execFree, execReset, execQueryBufsize, execQueryCapacity, execQueryFree, execQueryUsed,
      execQueryFull, execQueryEmpty, execQueryHead, execQueryTail, query, execReadFd, execWriteFd, execFind, execFill,
      hc] at h
    (repeat' split at h) <;> simp [State.raiseUnderflow_eq] at h

/-! ## The checks of R116 on the raw word -/

/-- What holds of the fields of a word that passes every check of R116. -/
theorem firstFailedCheck_eq_none_iff :
    firstFailedCheck s w = none ↔
      (fieldOpc w).toNat ∉ [0x0, 0xC, 0xD, 0xE, 0xF] ∧ fieldRsv w = 0#4 ∧
      (fieldRa w).toNat < s.rings.length ∧ ((fieldOpc w).toNat = 9 → (fieldRb w).toNat < s.rings.length) ∧
      ((fieldOpc w).toNat = 9 → fieldRb w ≠ fieldRa w) ∧ ((fieldOpc w).toNat = 4 → (fieldB8 w).toNat ≤ 7) ∧
      ((fieldOpc w).toNat = 1 → s.isLive (fieldRa w).toNat = false) ∧
      ((fieldOpc w).toNat ≠ 1 → s.isLive (fieldRa w).toNat = true) ∧
      ((fieldOpc w).toNat = 9 → s.isLive (fieldRb w).toNat = true) ∧
      ((fieldOpc w).toNat ∈ [5, 7] → (fieldAddr w).toNat + (fieldCnt w).toNat ≤ 2 ^ 64) := by
  change ite _ _ _ = none ↔ _
  simp only [ite_eq_iff, reduceCtorEq, and_false, false_or, and_true, not_and, not_not, not_le, not_lt, ne_eq,
    ← BitVec.toNat_inj, Bool.not_eq_true, Bool.not_eq_false]
  rfl

theorem not_reserved_of_firstFailedCheck (h : firstFailedCheck s w = none) : ¬ Reserved w := by
  obtain ⟨hopc, hrsv, -, -, -, hsel, -⟩ := firstFailedCheck_eq_none_iff.1 h
  rintro (hres | hres | ⟨hquery, hres⟩)
  · exact hopc hres
  · exact hres hrsv
  · exact absurd (hsel hquery) (by omega)

/-- A live context is named by its ring id. -/
theorem State.lt_length_and_isLive {r : Nat} : r < s.rings.length ∧ s.isLive r = true ↔ s.isLive r = true :=
  and_iff_right_of_imp State.lt_length_of_isLive

/-- The checks on a raw word that is no reserved encoding are those on the operands of its instruction. -/
theorem firstFailedCheck_eq_none_iff_admitted (hrsv : fieldRsv w = 0#4) (hc : Carries w i) :
    firstFailedCheck s w = none ↔ Admitted s i := by
  rw [firstFailedCheck_eq_none_iff]
  cases i with
  | new ra cnt =>
    obtain ⟨hopc, rfl, rfl⟩ := hc
    simp [hopc, hrsv, Admitted]
  | writeMem ra addr cnt | readMem ra addr cnt =>
    obtain ⟨hopc, rfl, rfl, rfl⟩ := hc
    simp [hopc, hrsv, Admitted, ← and_assoc, State.lt_length_and_isLive]
  | copy ra rb cnt =>
    obtain ⟨hopc, rfl, rfl, rfl⟩ := hc
    have hra := State.lt_length_of_isLive (s := s) (r := (fieldRa w).toNat)
    have hrb := State.lt_length_of_isLive (s := s) (r := (fieldRb w).toNat)
    have hnamed : (fieldRa w).toNat < s.rings.length ∧ (fieldRb w).toNat < s.rings.length ∧ fieldRb w ≠ fieldRa w ∧
        s.isLive (fieldRa w).toNat = true ∧ s.isLive (fieldRb w).toNat = true ↔
      s.isLive (fieldRa w).toNat = true ∧ s.isLive (fieldRb w).toNat = true ∧ fieldRb w ≠ fieldRa w := by tauto
    simpa [hopc, hrsv, Admitted] using hnamed
  | _ =>
    simp only [Carries] at hc
    simp [hc, hrsv, Admitted, namedRings, State.lt_length_and_isLive]

/-- An admitted instruction is well-formed, or it is NEW of capacity 0. -/
theorem eq_new_zero_of_admitted (h : i.wellFormed s.rings.length = false) (ha : Admitted s i) : ∃ ra, i = .new ra 0 := by
  cases i with
  | new ra cnt =>
    have hcnt : cnt = 0#32 := by simpa [Instr.wellFormed, RingId.names, ha.1] using h
    exact ⟨ra, by rw [hcnt]; rfl⟩
  | writeMem ra addr cnt | readMem ra addr cnt =>
    obtain ⟨hlive, hspan⟩ := ha
    simp [Instr.wellFormed, RingId.names, State.lt_length_of_isLive hlive, State.spanFits_iff.2 hspan] at h
  | copy ra rb cnt =>
    obtain ⟨hd, hc, hne⟩ := ha
    simp [Instr.wellFormed, RingId.names, State.lt_length_of_isLive hd, State.lt_length_of_isLive hc, hne] at h
  | _ =>
    simp only [Admitted, namedRings, List.mem_singleton, forall_eq] at ha
    simp [Instr.wellFormed, RingId.names, State.lt_length_of_isLive ha] at h

end

/-! ## The obligations -/

/-- Settles O8: the decoder refuses a reserved encoding. -/
theorem reservedEncodingsAreIllegal : Obligations.ReservedEncodingsAreIllegal := by
  unfold Obligations.ReservedEncodingsAreIllegal
  intro s w rest hr hp hin hres
  rw [step_command hr hp hin, issue_of_reserved hres]
  rfl

/-- Settles O9: the checks of R116 that look at the word alone are the decoder's, and those that look at the contexts and
the span are the instruction's. -/
theorem decodeAndAdmissionFollowTheListedChecks : Obligations.DecodeAndAdmissionFollowTheListedChecks := by
  unfold Obligations.DecodeAndAdmissionFollowTheListedChecks
  intro s w rest hr hp hin
  have hstep := step_command hr hp hin
  rcases decode_cases s.rings.length w with ⟨i, hd, hrsv, hcarries⟩ | ⟨-, -, hres⟩
  · have hexec : step s = exec i (s.accept rest) := hstep.trans (issue_of_decode (s := s.accept rest) hd)
    have hnone : firstFailedCheck s w = none ↔ Admitted (s.accept rest) i :=
      firstFailedCheck_eq_none_iff_admitted hrsv hcarries
    refine ⟨fun r hfail => ?_, fun hpass => ?_⟩
    · have hrefused : ¬ Admitted (s.accept rest) i := by rw [← hnone, hfail]; exact nofun
      rw [hexec, exec_of_not_admitted hrefused]
      rfl
    · refine ⟨i, and_usedBits_eq_encode_iff.2 ⟨hrsv, hcarries⟩, hexec, fun t q ht hq hill => ?_⟩
      exact eq_new_zero_of_answersIllegal (hnone.1 hpass) ⟨t, q, hexec ▸ ht, hq, hill⟩
  · refine ⟨fun r _ => ?_, fun hpass => absurd hres (not_reserved_of_firstFailedCheck hpass)⟩
    rw [hstep, issue_of_reserved hres]
    rfl

/-- Settles O50: an ill-formed instruction is not admitted, or is NEW of capacity 0. -/
theorem illFormedInstructionsAreIllegal : Obligations.IllFormedInstructionsAreIllegal := by
  unfold Obligations.IllFormedInstructionsAreIllegal
  intro i s h
  by_cases ha : Admitted s i
  · obtain ⟨ra, rfl⟩ := eq_new_zero_of_admitted h ha
    obtain ⟨c, hc⟩ := State.exists_freshRing_ok.2 ha
    simp only [exec, execNew, hc]
    rfl
  · rw [exec_of_not_admitted ha]
    rfl

/-- Settles O6: the fields of a packed response. -/
theorem responseFieldsHoldStatusFlagsAndResult : Obligations.ResponseFieldsHoldStatusFlagsAndResult := by
  unfold Obligations.ResponseFieldsHoldStatusFlagsAndResult
  refine ⟨by decide, fun st v ovf h1 h2 => ?_⟩
  exact ⟨rspStatus_packResponse st v ovf, rspOvf_packResponse st v ovf, by simp, rspZero_packResponse st v ovf,
    rspResult_packResponse st v ovf h1 h2⟩

end Sys2Proof.Machine

/-! # Construction, reset, destruction and queries (40_lifecycle_query.md R141-R153) -/

namespace Sys2Proof.Machine

section

variable {s : State} {ra : RingId} {c : Ring}

/-- The template of R144 on a live context: the value is answered. -/
theorem query_of_live (hc : s.rings[ra.toNat]? = some c) (hl : c.live = true) (value : Ring → Nat) :
    query ra value s = .next (s.respond .ok (value c) false) := by
  simp only [query, State.liveRing_ok.2 ⟨hc, hl⟩]

/-- RESULT of a query is its value, which fits the signed field when it is at most the largest buffer size. -/
theorem resultOf_query (hc : s.rings[ra.toNat]? = some c) (hl : c.live = true) {value : Ring → Nat}
    (hv : value c ≤ 2 ^ 32) : resultOf (query ra value s) = some (value c : Int) := by
  rw [query_of_live hc hl, resultOf, State.respond_response, Option.map_some]
  exact congrArg some (rspResult_packResponse _ _ _ (by omega) (by omega))

theorem not_admitted_new_of_live (hc : s.rings[ra.toNat]? = some c) (hl : c.live = true) (cnt : Count) :
    ¬ Admitted s (.new ra cnt) := fun h =>
  absurd (State.isLive_iff.2 ⟨c, hc, hl⟩) (Bool.eq_false_iff.1 h.2)

theorem count_ne_zero {cnt : Count} (h : 1 ≤ cnt.toNat) : cnt ≠ 0#32 := by
  rintro rfl
  exact absurd h (by decide)

end

namespace Ring

variable {c : Ring}

theorem free_le_cap (hh : c.head.toNat < c.size) (ht : c.tail.toNat < c.size) : c.free ≤ c.cap.toNat := by
  rw [← used_add_free hh ht]
  exact Nat.le_add_left ..

theorem isEmpty_toNat (hh : c.head.toNat < c.size) (ht : c.tail.toNat < c.size) :
    c.isEmpty.toNat = if c.head.toNat = c.tail.toNat then 1 else 0 := by
  simp only [← BitVec.toNat_eq, ← isEmpty_iff hh ht, Bool.toNat, Bool.cond_eq_ite]

theorem isFull_toNat (hh : c.head.toNat < c.size) (ht : c.tail.toNat < c.size) :
    c.isFull.toNat = if c.tail.toNat = (c.head.toNat + 1) % c.size then 1 else 0 := by
  simp only [← nextp_eq_mod hh, ← isFull_iff hh ht, Bool.toNat, Bool.cond_eq_ite]

/-- A live context holds at least one byte, so it is never full and empty at once (R153). -/
theorem not_isFull_and_isEmpty (hcap : 1 ≤ c.cap.toNat) : ¬ (c.isFull = true ∧ c.isEmpty = true) := by
  rw [isFull, isEmpty, decide_eq_true_eq, decide_eq_true_eq]
  omega

end Ring

theorem natCast_toNat_eq_one {b : Bool} : (b.toNat : Int) = 1 ↔ b = true := by
  rw [Nat.cast_eq_one, Bool.toNat_eq_one]

/-- Settles O22: the results are the registers' values, and the laws are those of the occupancy. -/
theorem queryResultsObeyTheirLaws : Obligations.QueryResultsObeyTheirLaws := by
  unfold Obligations.QueryResultsObeyTheirLaws
  intro s ra c hc hl hi
  obtain ⟨hh, ht⟩ := hi.cursors_legal hl
  have hsize := c.size_le
  have hfree := Ring.free_le_cap hh ht
  have hempty : (c.isEmpty.toNat : Int) = 1 ↔ (c.head.toNat : Int) = c.tail.toNat := by
    rw [natCast_toNat_eq_one, Ring.isEmpty_iff hh ht, BitVec.toNat_eq, Nat.cast_inj]
  have hfull : (c.isFull.toNat : Int) = 1 ↔ (c.free : Int) = 0 := by
    rw [natCast_toNat_eq_one, Ring.isFull, decide_eq_true_eq, Nat.cast_eq_zero]
  have hnot : ¬ ((c.isFull.toNat : Int) = 1 ∧ (c.isEmpty.toNat : Int) = 1) := by
    rw [natCast_toNat_eq_one, natCast_toNat_eq_one]
    exact Ring.not_isFull_and_isEmpty (hi.cap_legal hl).1
  have answers : ∀ {value : Ring → Nat}, value c ≤ 2 ^ 32 → resultOf (query ra value s) = some (value c : Int) :=
    resultOf_query hc hl
  exact ⟨_, _, _, _, _, _, _, _, answers hsize, answers c.cap.isLt.le, answers (hfree.trans c.cap.isLt.le),
    answers (Ring.used_le_cap.trans c.cap.isLt.le), answers ((Bool.toNat_le _).trans (by decide)),
    answers ((Bool.toNat_le _).trans (by decide)), answers c.head.isLt.le, answers c.tail.isLt.le,
    mod_cast Ring.used_add_free hh ht, hempty, hfull, rfl, hnot⟩

/-- Settles O17: a live context is not admitted, and the checks of R141 are taken in their order on one that is not. -/
theorem newConstructsAnEmptyContext : Obligations.NewConstructsAnEmptyContext := by
  unfold Obligations.NewConstructsAnEmptyContext
  intro s ra cnt c hc
  refine ⟨fun hl => exec_of_not_admitted (not_admitted_new_of_live hc hl cnt), fun hl hz => ?_, fun hl hpos hbig => ?_,
    fun hl hpos hfits => ?_⟩
  all_goals simp only [exec, execNew, State.freshRing_ok.2 ⟨hc, hl⟩]
  · rw [if_pos (BitVec.eq_of_toNat_eq hz)]
    rfl
  · rw [if_neg (count_ne_zero hpos), if_pos hbig]
    rfl
  · rw [if_neg (count_ne_zero hpos), if_neg hfits.not_gt]
    rfl

/-- Settles O18: the context that FREE leaves is not live, and such a context refuses all but NEW. -/
theorem freeDestroysTheContext : Obligations.FreeDestroysTheContext := by
  unfold Obligations.FreeDestroysTheContext
  intro s ra c hc hl t
  refine ⟨?_, fun i hra hnew => ?_⟩
  · simp only [exec, execFree, State.liveRing_ok.2 ⟨hc, hl⟩]
    rfl
  · have hfreed : t.rings[ra.toNat]? = some { c with live := false, cap := 0#32, head := 0#32, tail := 0#32 } :=
      List.getElem?_set_self (List.getElem?_eq_some_iff.1 hc).1
    exact aDeadContextRefusesAllButNew { t with phase := .idle } i ra _ hra hnew hfreed rfl

/-- Settles O20: RESET stores the context with both cursors at 0, or is refused as by every context that is not live. -/
theorem resetEmptiesTheContext : Obligations.ResetEmptiesTheContext := by
  unfold Obligations.ResetEmptiesTheContext
  intro s ra c hc
  refine ⟨fun hl => ?_, fun hl => ?_⟩
  · simp only [exec, execReset, State.liveRing_ok.2 ⟨hc, hl⟩]
    rfl
  · exact aDeadContextRefusesAllButNew s (.reset ra) ra c (List.mem_singleton.2 rfl) nofun hc hl

/-- Settles O21: each query is the template of R144 on its value, put in terms of the cursors by R40-R43. -/
theorem queriesAnswerTheirValue : Obligations.QueriesAnswerTheirValue := by
  unfold Obligations.QueriesAnswerTheirValue
  intro s ra c hc hl hh ht S h t answer
  have answers (value : Ring → Nat) : query ra value s = answer (value c) := query_of_live hc hl value
  have hh : c.head.toNat < c.size := Nat.lt_succ_of_le hh
  have ht : c.tail.toNat < c.size := Nat.lt_succ_of_le ht
  refine ⟨answers _, answers _, answers _, ?_, ?_, ?_, answers _, answers _⟩
  · exact (answers Ring.used).trans (congrArg answer (Ring.used_eq_mod hh ht))
  · exact (answers fun c => c.isFull.toNat).trans (congrArg answer (Ring.isFull_toNat hh ht))
  · exact (answers fun c => c.isEmpty.toNat).trans (congrArg answer (Ring.isEmpty_toNat hh ht))

end Sys2Proof.Machine

/-! # Adding data (41_add_data.md R180-R188)

WRITE_MEM, READ_FD, FILL and COPY all leave `Ring.addBytes` of the bytes they add; its closed form and the retention law
are said once. -/

namespace Sys2Proof.Machine

/-! ## A context to which bytes have been added -/

/-- The bytes added at HEAD, with the overflow predicted before and the fixup run after (R181). -/
def Ring.addBytes (c : Ring) (bs : List Byte) : Ring := (c.pushAll bs).fixup (c.predictOvf bs.length)

theorem lastOf_append_of_le {α : Type} {n : Nat} (l : List α) {m : List α} (h : n ≤ m.length) :
    lastOf n (l ++ m) = lastOf n m := by
  rw [lastOf, lastOf, List.length_append, List.drop_append, List.drop_eq_nil_of_le (by omega), List.nil_append]
  congr 1
  omega

namespace Ring

variable {c : Ring} (bs : List Byte)

@[simp] theorem addBytes_maxCap : (c.addBytes bs).maxCap = c.maxCap := by simp [addBytes]
@[simp] theorem addBytes_live : (c.addBytes bs).live = c.live := by simp [addBytes]
@[simp] theorem addBytes_cap : (c.addBytes bs).cap = c.cap := by simp [addBytes]
@[simp] theorem addBytes_sto : (c.addBytes bs).sto = (c.pushAll bs).sto := by simp [addBytes]
@[simp] theorem addBytes_head : (c.addBytes bs).head = (c.pushAll bs).head := by simp [addBytes]

theorem pushAll_head_lt_pushAll_size (hh : c.head.toNat < c.size) :
    (c.pushAll bs).head.toNat < (c.pushAll bs).size := by
  rw [pushAll_size]
  exact pushAll_head_lt c bs hh

theorem advanceTailPast_tail_eq_nextp (hh : c.head.toNat < c.size) :
    c.advanceTailPast.tail.toNat = c.nextp c.head.toNat :=
  (advanceTailPast_tail_toNat hh).trans (nextp_eq_mod hh).symm

theorem addBytes_head_toNat (hh : c.head.toNat < c.size) :
    (c.addBytes bs).head.toNat = (c.head.toNat + bs.length) % c.size := by
  rw [addBytes_head, pushAll_head_toNat c bs hh]

theorem addBytes_of_overflow (hf : c.free < bs.length) : c.addBytes bs = (c.pushAll bs).advanceTailPast := by
  rw [addBytes, predictOvf, decide_eq_true hf, fixup_true]

theorem addBytes_tail_toNat (hh : c.head.toNat < c.size) :
    (c.addBytes bs).tail.toNat =
      if c.free < bs.length then ((c.addBytes bs).head.toNat + 1) % c.size else c.tail.toNat := by
  split
  · next hf =>
    rw [addBytes_head, addBytes_of_overflow bs hf, advanceTailPast_tail_toNat (pushAll_head_lt_pushAll_size bs hh),
      pushAll_size]
  · next hf => rw [addBytes, predictOvf, decide_eq_false hf, fixup_false, pushAll_tail]

theorem addBytes_isFull (hh : c.head.toNat < c.size) (hf : c.free < bs.length) : (c.addBytes bs).isFull = true := by
  rw [addBytes_of_overflow bs hf]
  exact advanceTailPast_isFull (pushAll_head_lt_pushAll_size bs hh)

/-- Bytes that overflow the context and are at least as many as it holds leave only themselves in it (R187). -/
theorem addBytes_logicalByte_of_overflow (hh : c.head.toNat < c.size) (ht : c.tail.toNat < c.size)
    (hf : c.free < bs.length) (hcap : c.cap.toNat ≤ bs.length) {i : Nat} (hi : i < c.cap.toNat) :
    (c.addBytes bs).logicalByte i = bs[bs.length - c.cap.toNat + i]? := by
  have hused : (c.addBytes bs).used = c.cap.toNat := by
    rw [addBytes_of_overflow bs hf, used_advanceTailPast (pushAll_head_lt_pushAll_size bs hh), pushAll_cap]
  have hcontent : (c.addBytes bs).content = lastOf c.cap.toNat (bs.map some) :=
    (content_add bs hh ht).1.trans (lastOf_append_of_le _ (by rwa [List.length_map]))
  have hget := getElem?_content (c := c.addBytes bs) (i := i) (by omega)
  rw [hcontent, lastOf, List.getElem?_drop, List.length_map, List.getElem?_map, Option.map_eq_some_iff] at hget
  obtain ⟨b, hb, hbyte⟩ := hget
  rw [← hbyte, hb]

/-- A span that fits before the storage end is written in one piece (R184). -/
theorem putSpan_fixup_eq_addBytes (hne : bs ≠ []) (hfit : c.head.toNat + bs.length ≤ c.size) :
    (c.putSpan bs).fixup (c.predictOvf bs.length) = c.addBytes bs := by
  rw [addBytes, putSpan_eq_pushAll c bs hne hfit]

theorem addData_eq_addBytes (src : Nat → Byte) (n : Nat) (hh : c.head.toNat < c.size) :
    c.addData src n = c.addBytes (sourceSpan src 0 n) := by
  rw [addData_eq src n hh, addBytes, length_sourceSpan]

theorem sourceSpan_eq_map (src : Nat → Byte) (n : Nat) : sourceSpan src 0 n = (List.range n).map src := by
  apply List.ext_getElem?
  intro i
  rw [getElem?_sourceSpan, Nat.zero_add]
  split <;> simp [*]

theorem sourceSpan_const (b : Byte) (n : Nat) : sourceSpan (fun _ => b) 0 n = List.replicate n b := by
  rw [sourceSpan_eq_map, List.map_const', List.length_range]

/-- The first used bytes, as a list of bytes and as a piece of the content (R44). -/
theorem content_take_of_logicalFrom {n : Nat} {bs : List Byte} (hu : n ≤ c.used)
    (hbs : c.logicalFrom 0 n = some bs) : c.content.take n = bs.map some := by
  obtain ⟨hlen, hget⟩ := logicalFrom_eq_some.1 hbs
  apply List.ext_getElem?
  intro i
  rw [List.getElem?_take, List.getElem?_map]
  split
  · next hi =>
    have hbyte := hget i hi
    rw [Nat.zero_add] at hbyte
    rw [getElem?_content (by omega), hbyte, List.getElem?_eq_getElem (by omega), Option.map_some]
  · next hi => rw [List.getElem?_eq_none (by omega), Option.map_none]

end Ring

theorem State.getElem?_rings_setRing {s : State} {ra : RingId} {c : Ring} (hc : s.rings[ra.toNat]? = some c) (c' : Ring) :
    (s.setRing ra c').rings[ra.toNat]? = some c' :=
  List.getElem?_set_self (List.getElem?_eq_some_iff.1 hc).1

/-! ## What each command comes to on a live context -/

section

variable {s s' : State} {ra rb : RingId} {addr : HostAddr} {dh : Handle} {b8 : Byte} {cnt : Count} {c d : Ring}

theorem descRead_of_nil {len : Nat} (h : s.readAnswers = []) :
    descRead s dh len = .silent { s with requests := s.requests ++ [.read dh len] } := by
  simp only [descRead, h]

theorem descRead_of_none {len : Nat} {rest : List (Option ReadAnswer)} (h : s.readAnswers = none :: rest) :
    descRead s dh len = .silent { s with requests := s.requests ++ [.read dh len], readAnswers := rest } := by
  simp only [descRead, h]

theorem descRead_of_some {len : Nat} {a : ReadAnswer} {rest : List (Option ReadAnswer)}
    (h : s.readAnswers = some a :: rest) (hn : a.n.toInt ≤ (len : Int)) (hb : a.bytes.length = a.n.toInt.toNat) :
    descRead s dh len = .answer a { s with requests := s.requests ++ [.read dh len], readAnswers := rest } := by
  have hkeeps : a.keepsContract len = true := by
    rw [ReadAnswer.keepsContract, decide_eq_true hn, decide_eq_true hb, Bool.and_self]
  simp only [descRead, h, if_pos hkeeps]

theorem exec_writeMem_of_admitted (hc : s.rings[ra.toNat]? = some c) (hl : c.live = true)
    (hh : c.head.toNat < c.size) (hspan : addr.toNat + cnt.toNat ≤ 2 ^ 64)
    (hadm : ∀ j, j < cnt.toNat → s.hostAdmits (addr.toNat + j) .read = true) {bs : List Byte}
    (hbs : bs = sourceSpan (fun i => s.memRead (addr.toNat + i)) 0 cnt.toNat) :
    exec (.writeMem ra addr cnt) s =
      .next ((s.setRing ra (c.addBytes bs)).respond .ok (c.addBytes bs).head.toNat (c.predictOvf bs.length)) := by
  have hlen : bs.length = cnt.toNat := by rw [hbs, Ring.length_sourceSpan]
  simp only [exec, execWriteMem, State.liveRingSpan_ok.2 ⟨hc, hl, hspan⟩, State.admitted_eq_iff.2 hadm, lt_self_iff_false,
    if_false, Ring.addData_eq_addBytes _ _ hh, ← hbs, hlen]

theorem exec_fill_of_live (hc : s.rings[ra.toNat]? = some c) (hl : c.live = true) (hh : c.head.toNat < c.size)
    {bs : List Byte} (hbs : bs = List.replicate (min cnt.toNat c.size) b8) :
    exec (.fill ra b8 cnt) s =
      .next ((s.setRing ra (c.addBytes bs)).respond .ok (min cnt.toNat c.size : Nat) (c.predictOvf bs.length)) := by
  have hlen : bs.length = min cnt.toNat c.size := by rw [hbs, List.length_replicate]
  simp only [exec, execFill, State.liveRing_ok.2 ⟨hc, hl⟩, Ring.addData_eq_addBytes _ _ hh, Ring.sourceSpan_const, ← hbs,
    hlen]

theorem exec_readFd_of_silent (hc : s.rings[ra.toNat]? = some c) (hl : c.live = true)
    (hlen : min cnt.toNat (c.size - c.head.toNat) ≠ 0)
    (hd : descRead s dh (min cnt.toNat (c.size - c.head.toNat)) = .silent s') :
    ∃ b : Busy, b.wait = .device (.read dh (min cnt.toNat (c.size - c.head.toNat))) ∧
      exec (.readFd ra dh cnt) s = .next (s'.stall b) := by
  simp only [exec, execReadFd, State.liveRing_ok.2 ⟨hc, hl⟩, if_neg hlen, hd]
  exact ⟨_, rfl, rfl⟩

theorem exec_readFd_of_answer (hc : s.rings[ra.toNat]? = some c) (hl : c.live = true)
    (hlen : min cnt.toNat (c.size - c.head.toNat) ≠ 0) {a : ReadAnswer}
    (hd : descRead s dh (min cnt.toNat (c.size - c.head.toNat)) = .answer a s') :
    (a.n.toInt < 0 → exec (.readFd ra dh cnt) s = .next (s'.respond .descErr a.n.toInt false)) ∧
    (a.n.toInt = 0 → exec (.readFd ra dh cnt) s = .next (s'.respond .ok 0 false)) ∧
    (0 < a.n.toInt → exec (.readFd ra dh cnt) s =
      .next ((s'.setRing ra (c.addBytes a.bytes)).respond .ok a.n.toInt (c.predictOvf a.bytes.length))) := by
  obtain ⟨-, hn, hb, -⟩ := descRead_answer hd
  simp only [exec, execReadFd, State.liveRing_ok.2 ⟨hc, hl⟩, if_neg hlen, hd]
  refine ⟨fun hneg => if_pos hneg, fun hzero => ?_, fun hpos => ?_⟩
  · rw [if_neg (by omega), if_pos hzero]
  · have hne : a.bytes ≠ [] := List.ne_nil_of_length_pos (by omega)
    rw [if_neg (by omega), if_neg (by omega), ← hb, Ring.putSpan_fixup_eq_addBytes _ hne (by omega)]

theorem exec_copy_of_used (hd : s.rings[ra.toNat]? = some d) (hdl : d.live = true) (hh : d.head.toNat < d.size)
    (hc : s.rings[rb.toNat]? = some c) (hne : rb ≠ ra) (hcl : c.live = true) (ht : c.tail.toNat < c.size)
    (hu : cnt.toNat ≤ c.used) {bs : List Byte} (hbs : c.logicalFrom 0 cnt.toNat = some bs) :
    exec (.copy ra rb cnt) s =
      .next (((s.setRing rb (c.dropBytes cnt.toNat)).setRing ra (d.addBytes bs)).respond .ok
        (d.addBytes bs).head.toNat (d.predictOvf bs.length)) := by
  have hlen := (Ring.logicalFrom_eq_some.1 hbs).1
  have hspans := Ring.copySpans_eq cnt.toNat cnt.toNat 0 d c hh ht (Nat.zero_le _) (by omega)
  rw [Nat.sub_zero, hbs, Option.map_some] at hspans
  simp only [exec, execCopy, State.copyRings_ok.2 ⟨hd, hc, hne, hdl, hcl⟩, if_neg (Nat.not_lt.2 hu), hspans, Ring.addBytes,
    Ring.fixup_head, hlen]

/-- A command that answers OK with bytes added to its context keeps the latest CAP bytes (R188). -/
theorem retains_of_exec {i : Instr} {bs : List Byte} {v : Int}
    (hh : c.head.toNat < c.size) (ht : c.tail.toNat < c.size) (hc : s'.rings[ra.toNat]? = some c)
    (hexec : exec i s = .next ((s'.setRing ra (c.addBytes bs)).respond .ok v (c.predictOvf bs.length))) :
    ∃ (t : State) (c' : Ring) (q : RspWord), exec i s = .next t ∧ t.rings[ra.toNat]? = some c' ∧
      t.response = some q ∧ rspStatus q = statusCode .ok ∧
      c'.content = lastOf c.cap.toNat (c.content ++ bs.map some) ∧
      (rspOvf q = true ↔ c.cap.toNat < c.content.length + (bs.map some).length) := by
  obtain ⟨hcontent, hovf⟩ := Ring.content_add bs hh ht
  refine ⟨_, c.addBytes bs, _, hexec, ?_, rfl, rspStatus_packResponse .., hcontent, ?_⟩
  · exact State.getElem?_rings_setRing (s := s') hc _
  · rw [rspOvf_packResponse, hovf, Ring.length_content, List.length_map]

end

/-! ## The obligations -/

/-- Settles O26: the new TAIL is one past HEAD, modulo the buffer size. -/
theorem fixupLeavesTheContextFull : Obligations.FixupLeavesTheContextFull := by
  unfold Obligations.FixupLeavesTheContextFull
  intro c hh
  exact ⟨rfl, Ring.advanceTailPast_tail_eq_nextp hh, Ring.advanceTailPast_isFull hh⟩

/-- Settles O27: WRITE_MEM adds the bytes of its span, and a cell holds the last byte that lands in it. -/
theorem writeMemHasItsClosedForm : Obligations.WriteMemHasItsClosedForm := by
  unfold Obligations.WriteMemHasItsClosedForm
  intro s ra addr cnt c hc hl hh ht hspan hadm
  obtain ⟨bs, hbs⟩ : ∃ bs, bs = sourceSpan (fun i => s.memRead (addr.toNat + i)) 0 cnt.toNat := ⟨_, rfl⟩
  have hlen : bs.length = cnt.toNat := by rw [hbs, Ring.length_sourceSpan]
  have hexec := exec_writeMem_of_admitted hc hl hh hspan hadm hbs
  have hhead := Ring.addBytes_head_toNat bs hh
  have htail := Ring.addBytes_tail_toNat bs hh
  rw [hhead] at hexec
  rw [hlen] at hexec hhead htail
  refine ⟨c.addBytes bs, hexec, by simp, by simpa using hl, by simp, hhead, htail, fun p hp => ?_,
    fun p i hi hip hlast => ?_⟩
  · rw [Ring.addBytes_sto, Ring.pushAll_read?_other c bs hh p (by rwa [hlen])]
  · subst hip
    rw [Ring.addBytes_sto, Ring.pushAll_read?_last c bs hh (by omega) (by rwa [hlen]), hbs, Ring.getElem?_sourceSpan,
      if_pos hi, Nat.zero_add]

/-- Settles O29: FILL adds at most one round of copies, so each of them is there afterwards. -/
theorem fillHasItsClosedForm : Obligations.FillHasItsClosedForm := by
  unfold Obligations.FillHasItsClosedForm
  intro s ra b8 cnt c hc hl hh ht
  obtain ⟨bs, hbs⟩ : ∃ bs, bs = List.replicate (min cnt.toNat c.size) b8 := ⟨_, rfl⟩
  have hlen : bs.length = min cnt.toNat c.size := by rw [hbs, List.length_replicate]
  have hexec := exec_fill_of_live hc hl hh hbs
  have hhead := Ring.addBytes_head_toNat bs hh
  have htail := Ring.addBytes_tail_toNat bs hh
  rw [hlen] at hexec hhead htail
  refine ⟨c.addBytes bs, hexec, by simp, by simpa using hl, by simp, hhead, htail, fun i hi => ?_, fun p hp => ?_⟩
  · rw [Ring.addBytes_sto, Ring.pushAll_read?_recent c bs hh (by omega) (by omega), hbs,
      List.getElem?_replicate_of_lt hi]
  · rw [Ring.addBytes_sto, Ring.pushAll_read?_other c bs hh p (by rwa [hlen])]

/-- Settles O30: one request of at least one byte, then the case of the device's answer. -/
theorem readFdMakesOneClampedRequest : Obligations.ReadFdMakesOneClampedRequest := by
  unfold Obligations.ReadFdMakesOneClampedRequest
  intro s ra dh cnt c hc hl hh ht
  refine ⟨fun hzero => ?_, fun hpos => ?_⟩
  · have hlen : min cnt.toNat (c.size - c.head.toNat) = 0 := by omega
    simp only [exec, execReadFd, State.liveRing_ok.2 ⟨hc, hl⟩, if_pos hlen]
    rfl
  intro len asked
  have hlen : len ≠ 0 := by omega
  refine ⟨fun hr => exec_readFd_of_silent hc hl hlen (descRead_of_nil hr),
    fun rest hr => exec_readFd_of_silent hc hl hlen (descRead_of_none hr), fun a rest hr hn hb => ?_⟩
  obtain ⟨hneg, hzero, hadd⟩ := exec_readFd_of_answer hc hl hlen (descRead_of_some hr hn hb)
  refine ⟨hneg, hzero, fun hp => ?_⟩
  have hne : a.bytes ≠ [] := List.ne_nil_of_length_pos (by omega)
  refine ⟨c.addBytes a.bytes, hadd hp, by simp, by simpa using hl, by simp, Ring.addBytes_head_toNat _ hh,
    Ring.addBytes_tail_toNat _ hh, fun p => ?_⟩
  rw [← Ring.putSpan_fixup_eq_addBytes _ hne (by omega), Ring.fixup_sto, Ring.putSpan_sto, Memory.read?_writeSpan]

/-- Settles O31: each of the four commands comes to `Ring.addBytes` of its bytes. -/
theorem addDataRetainsTheLatestBytes : Obligations.AddDataRetainsTheLatestBytes := by
  unfold Obligations.AddDataRetainsTheLatestBytes
  intro s ra c hc hl hh ht adds
  refine ⟨fun addr cnt hspan hadm => ?_, fun b8 cnt => ?_, fun dh cnt a rest hr hpos hle hb => ?_,
    fun rb cnt src hsrc hne hsl hsi hu => ?_⟩
  · have h := retains_of_exec hh ht hc (exec_writeMem_of_admitted hc hl hh hspan hadm rfl)
    rwa [Ring.sourceSpan_eq_map, List.map_map] at h
  · have h := retains_of_exec hh ht hc (exec_fill_of_live (b8 := b8) (cnt := cnt) hc hl hh rfl)
    rwa [List.map_replicate] at h
  · have hlen : min cnt.toNat (c.size - c.head.toNat) ≠ 0 := by omega
    obtain ⟨-, -, hadd⟩ := exec_readFd_of_answer (dh := dh) hc hl hlen (descRead_of_some hr hle hb)
    exact retains_of_exec hh ht (by exact hc) (hadd hpos)
  · obtain ⟨bs, hbs⟩ := hsi.logicalFrom_used hsl hu
    have hx : (s.setRing rb (src.dropBytes cnt.toNat)).rings[ra.toNat]? = some c := by
      rw [State.setRing_rings, List.getElem?_set_ne (mt BitVec.eq_of_toNat_eq hne), hc]
    show adds _ _
    rw [Ring.content_take_of_logicalFrom hu hbs]
    exact retains_of_exec hh ht hx
      (exec_copy_of_used hc hl hh hsrc hne hsl (hsi.cursors_legal hsl).2 hu hbs)

/-- Settles O28: the retention law where the new bytes alone are more than the context holds. -/
theorem overflowKeepsTheLastCapacityBytes : Obligations.OverflowKeepsTheLastCapacityBytes := by
  unfold Obligations.OverflowKeepsTheLastCapacityBytes
  intro s ra addr cnt c j hc hl hi hj1 hj hcnt hspan hadm
  obtain ⟨hh, ht⟩ := hi.cursors_legal hl
  obtain ⟨bs, hbs⟩ : ∃ bs, bs = sourceSpan (fun i => s.memRead (addr.toNat + i)) 0 cnt.toNat := ⟨_, rfl⟩
  have hlen : bs.length = cnt.toNat := by rw [hbs, Ring.length_sourceSpan]
  have hov : c.free < bs.length := by have := Ring.free_le_cap hh ht; omega
  have hhead := Ring.addBytes_head_toNat bs hh
  refine ⟨_, c.addBytes bs, _, exec_writeMem_of_admitted hc hl hh hspan hadm hbs, State.getElem?_rings_setRing hc _,
    rfl, ?_, ?_, Ring.addBytes_isFull bs hh hov, rspStatus_packResponse .., ?_, ?_, fun i hic => ?_⟩
  · rw [hhead, hlen, hcnt, show c.head.toNat + (c.cap.toNat + j) = c.head.toNat + j - 1 + c.size by
      rw [Ring.size_def]; omega, Nat.add_mod_right]
  · rw [Ring.addBytes_of_overflow bs hov]
    exact Ring.advanceTailPast_tail_eq_nextp (Ring.pushAll_head_lt_pushAll_size bs hh)
  · rw [rspOvf_packResponse, Ring.predictOvf, decide_eq_true hov]
  · have := (c.addBytes bs).head.isLt
    exact rspResult_packResponse _ _ _ (by omega) (by omega)
  · rw [Ring.addBytes_logicalByte_of_overflow bs hh ht hov (by omega) hic, hlen, hbs, Ring.getElem?_sourceSpan,
      if_pos (by omega), Nat.zero_add]

end Sys2Proof.Machine

/-! # How many passes the span loops make (41_add_data.md R182, 42_remove_data.md R211, 43_copy.md R232, 44_find.md R250)

A loop cut after `f` passes comes to the same as one cut later, once `f` passes move all the bytes that are left: a
cursor that does not end its loop reaches the storage end, and goes on from 0. -/

namespace Sys2Proof.Machine

/-! ## Passes over one buffer -/

/-- `f` passes move the `r` bytes left from a cursor at `p` on, in a buffer of size `S`: the first pass ends at the storage
end or before, and each later one is at most a round. -/
def EnoughPasses (S p r f : Nat) : Prop := r ≠ 0 → p + r ≤ f * S

namespace EnoughPasses

variable {S p r f : Nat}

theorem eq_zero (h : EnoughPasses S p r 0) : r = 0 := by
  by_contra hr
  have := h hr
  omega

/-- Every pass moves at least one byte. -/
theorem of_le (hp : p < S) (hr : r ≤ f) : EnoughPasses S p r f := by
  obtain ⟨T, rfl⟩ : ∃ T, S = T + 1 := ⟨S - 1, by omega⟩
  intro h0
  calc p + r ≤ f * T + f := Nat.add_le_add ((Nat.le_of_lt_succ hp).trans (Nat.le_mul_of_pos_left T (by omega))) hr
    _ = f * (T + 1) := rfl

/-- Bytes moved do not add to the passes to make. -/
theorem move {k : Nat} (h : EnoughPasses S p r f) (hr : k ≤ r) : EnoughPasses S ((p + k) % S) (r - k) f := by
  intro h0
  have hle := Nat.mod_le (p + k) S
  have := h (by omega)
  omega

/-- A pass that moves all that is left, or all up to the storage end, leaves one pass less. -/
theorem pass {k : Nat} (h : EnoughPasses S p r (f + 1)) (hk : k = r ∨ p + k = S) :
    EnoughPasses S ((p + k) % S) (r - k) f := by
  intro h0
  rcases hk with rfl | hk
  · omega
  · have := h (by omega)
    rw [Nat.succ_mul] at this
    rw [hk, Nat.mod_self]
    omega

end EnoughPasses

/-- `f` passes of COPY move the `r` bytes left, from a cursor at `p` in a buffer of size `S` and one at `q` in a buffer of
size `T`: each pass ends with the last byte or at the storage end of one of the two (R232). -/
def EnoughCopyPasses (S p T q r f : Nat) : Prop :=
  ∃ a b, EnoughPasses S p r a ∧ EnoughPasses T q r b ∧ a + b ≤ f + 1

namespace EnoughCopyPasses

variable {S p T q r f : Nat}

theorem eq_zero (h : EnoughCopyPasses S p T q r 0) : r = 0 := by
  obtain ⟨a, b, ha, hb, hab⟩ := h
  rcases Nat.eq_zero_or_pos a with rfl | hpos
  · exact ha.eq_zero
  · obtain rfl : b = 0 := by omega
    exact hb.eq_zero

theorem pass {k : Nat} (h : EnoughCopyPasses S p T q r (f + 1)) (hr : r ≠ 0)
    (hk : k = r ∨ p + k = S ∨ q + k = T) (hle : k ≤ r) :
    EnoughCopyPasses S ((p + k) % S) T ((q + k) % T) (r - k) f := by
  obtain ⟨a, b, ha, hb, hab⟩ := h
  obtain ⟨a, rfl⟩ := Nat.exists_eq_succ_of_ne_zero (n := a) (by rintro rfl; exact hr ha.eq_zero)
  obtain ⟨b, rfl⟩ := Nat.exists_eq_succ_of_ne_zero (n := b) (by rintro rfl; exact hr hb.eq_zero)
  by_cases hT : q + k = T
  · exact ⟨a + 1, b, ha.move hle, hb.pass (.inr hT), by omega⟩
  · exact ⟨a, b + 1, ha.pass (by omega), hb.move hle, by omega⟩

end EnoughCopyPasses

/-- Where more passes than enough change nothing, any two bounds that are enough come to the same. -/
theorem eq_of_enough {β : Type} {loop : Nat → β} {enough : Nat → Prop}
    (hmore : ∀ f e, enough f → loop (f + e) = loop f) {f g : Nat} (hf : enough f) (hg : enough g) : loop f = loop g := by
  rcases Nat.le_total f g with h | h <;> obtain ⟨e, rfl⟩ := Nat.exists_eq_add_of_le h
  · exact (hmore f e hf).symm
  · exact hmore g e hg

/-! ## The four loops -/

namespace Ring

theorem addSpans_done (src : Nat → Byte) (cnt f : Nat) (c : Ring) : addSpans src cnt f cnt c = c := by
  cases f <;> simp [addSpans]

theorem addSpans_more_passes (src : Nat → Byte) (cnt f e done : Nat) (c : Ring) (hh : c.head.toNat < c.size)
    (hd : done ≤ cnt) (hf : EnoughPasses c.size c.head.toNat (cnt - done) f) :
    addSpans src cnt (f + e) done c = addSpans src cnt f done c := by
  induction f generalizing done c with
  | zero =>
    have := hf.eq_zero
    obtain rfl : done = cnt := by omega
    rw [addSpans_done, addSpans_done]
  | succ f ih =>
    rw [Nat.add_right_comm]
    unfold addSpans
    split
    · rfl
    · dsimp only
      generalize hk : min (c.size - c.head.toNat) (cnt - done) = k
      have hlen := length_sourceSpan src done k
      have hhead := putSpan_head_toNat (c := c) (bs := sourceSpan src done k) (by omega)
      rw [hlen] at hhead
      refine ih (done + k) _ ?_ (by omega) ?_
      · rw [hhead, putSpan_size]
        exact Nat.mod_lt _ c.size_pos
      · rw [hhead, putSpan_size, ← Nat.sub_sub]
        exact hf.pass (by omega)

theorem takeSpans_done (addr cnt f : Nat) (c : Ring) (m : Memory) : takeSpans addr cnt f cnt c m = some (c, m) := by
  cases f <;> simp [takeSpans]

theorem takeSpans_more_passes (addr cnt f e done : Nat) (c : Ring) (m : Memory) (ht : c.tail.toNat < c.size)
    (hd : done ≤ cnt) (hf : EnoughPasses c.size c.tail.toNat (cnt - done) f) :
    takeSpans addr cnt (f + e) done c m = takeSpans addr cnt f done c m := by
  induction f generalizing done c m with
  | zero =>
    have := hf.eq_zero
    obtain rfl : done = cnt := by omega
    rw [takeSpans_done, takeSpans_done]
  | succ f ih =>
    rw [Nat.add_right_comm]
    unfold takeSpans
    split
    · rfl
    · dsimp only
      generalize hk : min (c.size - c.tail.toNat) (cnt - done) = k
      have htail := advanceTail_toNat (c := c) (k := k) (by omega)
      split
      · rfl
      · refine ih (done + k) _ _ ?_ (by omega) ?_
        · rw [htail, advanceTail_size]
          exact Nat.mod_lt _ c.size_pos
        · rw [htail, advanceTail_size, ← Nat.sub_sub]
          exact hf.pass (by omega)

theorem findFrom_done (c : Ring) (b : Byte) (f : Nat) {off : Nat} (h : c.used ≤ off) :
    c.findFrom b f off = some c.used := by
  cases f <;> simp [findFrom, h]

theorem findFrom_more_passes (c : Ring) (b : Byte) (f e off : Nat)
    (hf : EnoughPasses c.size ((c.tail.toNat + off) % c.size) (c.used - off) f) :
    c.findFrom b (f + e) off = c.findFrom b f off := by
  induction f generalizing off with
  | zero =>
    have := hf.eq_zero
    rw [findFrom_done c b _ (by omega), findFrom_done c b _ (by omega)]
  | succ f ih =>
    rw [Nat.add_right_comm]
    unfold findFrom
    split
    · rfl
    · dsimp only
      have hlt := Nat.mod_lt (c.tail.toNat + off) c.size_pos
      generalize hn : min (c.size - (c.tail.toNat + off) % c.size) (c.used - off) = n
      split
      · rfl
      · rfl
      · refine ih (off + n) ?_
        rw [← Nat.add_assoc, ← Nat.mod_add_mod, ← Nat.sub_sub]
        exact hf.pass (by omega)

theorem copySpans_done (cnt f : Nat) (d c : Ring) : copySpans cnt f cnt d c = some (d, c) := by
  cases f <;> simp [copySpans]

theorem copySpans_more_passes (cnt f e done : Nat) (d c : Ring) (hh : d.head.toNat < d.size) (ht : c.tail.toNat < c.size)
    (hd : done ≤ cnt) (hf : EnoughCopyPasses d.size d.head.toNat c.size c.tail.toNat (cnt - done) f) :
    copySpans cnt (f + e) done d c = copySpans cnt f done d c := by
  induction f generalizing done d c with
  | zero =>
    have := hf.eq_zero
    obtain rfl : done = cnt := by omega
    rw [copySpans_done, copySpans_done]
  | succ f ih =>
    rw [Nat.add_right_comm]
    unfold copySpans
    split
    · rfl
    · dsimp only
      generalize hk : min (d.size - d.head.toNat) (min (c.size - c.tail.toNat) (cnt - done)) = k
      split
      · rfl
      · next bs hbs =>
        have hlen := (Memory.readSpan_eq_some.1 hbs).1
        have htail := advanceTail_toNat (c := c) (k := k) (by omega)
        have hhead := putSpan_head_toNat (c := d) (bs := bs) (by omega)
        rw [hlen] at hhead
        refine ih (done + k) _ _ ?_ ?_ (by omega) ?_
        · rw [hhead, putSpan_size]
          exact Nat.mod_lt _ d.size_pos
        · rw [htail, advanceTail_size]
          exact Nat.mod_lt _ c.size_pos
        · rw [hhead, putSpan_size, htail, advanceTail_size, ← Nat.sub_sub]
          exact hf.pass (by omega) (by omega) (by omega)

end Ring

/-- Settles O40: two buffers of bytes from a cursor on are two passes; COPY goes round each of its buffers once. -/
theorem spanLoopsKeepTheirPassBounds : Obligations.SpanLoopsKeepTheirPassBounds := by
  unfold Obligations.SpanLoopsKeepTheirPassBounds
  refine ⟨fun src cnt c hh hcnt => ?_, fun addr cnt c m ht hu => ?_, fun b off c ht => ?_,
    fun cnt d c hh ht hu hcnt => ?_⟩
  · exact eq_of_enough (loop := fun f => Ring.addSpans src cnt f 0 c) (enough := EnoughPasses c.size c.head.toNat cnt)
      (fun f e => Ring.addSpans_more_passes src cnt f e 0 c hh (Nat.zero_le _)) (fun _ => by omega)
      (.of_le hh (Nat.le_refl _))
  · have := c.used_lt_size
    exact eq_of_enough (loop := fun f => Ring.takeSpans addr cnt f 0 c m) (enough := EnoughPasses c.size c.tail.toNat cnt)
      (fun f e => Ring.takeSpans_more_passes addr cnt f e 0 c m ht (Nat.zero_le _)) (fun _ => by omega)
      (.of_le ht (Nat.le_refl _))
  · have := c.used_lt_size
    have hlt := Nat.mod_lt (c.tail.toNat + off) c.size_pos
    exact eq_of_enough (loop := fun f => c.findFrom b f off)
      (enough := EnoughPasses c.size ((c.tail.toNat + off) % c.size) (c.used - off))
      (fun f e => c.findFrom_more_passes b f e off) (fun _ => by omega) (.of_le hlt (Nat.sub_le ..))
  · have := c.used_lt_size
    rcases Nat.le_total cnt 3 with h | h
    · rw [Ring.copySpans_eq cnt 3 0 d c hh ht (Nat.zero_le _) (by omega),
        Ring.copySpans_eq cnt cnt 0 d c hh ht (Nat.zero_le _) (by omega)]
    · obtain ⟨e, he⟩ := Nat.exists_eq_add_of_le h
      have hmore := Ring.copySpans_more_passes cnt 3 e 0 d c hh ht (Nat.zero_le _)
        ⟨2, 2, fun _ => by omega, fun _ => by omega, by omega⟩
      rw [← hmore, ← he]

end Sys2Proof.Machine

/-! # Removing data (42_remove_data.md R210-R216)

READ_MEM, WRITE_FD and COPY all leave `Ring.dropBytes` of the context they remove from; what each comes to on a live
context is said once. -/

namespace Sys2Proof.Machine

/-! ## A context from which bytes have been removed -/

namespace Ring

variable {c : Ring}

/-- A content that is known byte by byte can be read from its first byte on. -/
theorem logicalFrom_of_content {bs : List Byte} (h : c.content = bs.map some) :
    c.logicalFrom 0 bs.length = some bs := by
  have hused : c.used = bs.length := by rw [← length_content, h, List.length_map]
  refine logicalFrom_eq_some.2 ⟨rfl, fun j hj => ?_⟩
  have hget := getElem?_content (c := c) (i := j) (by omega)
  rw [h, List.getElem?_map, List.getElem?_eq_getElem hj, Option.map_some] at hget
  rw [Nat.zero_add, List.getElem?_eq_getElem hj, ← Option.some.inj hget]

/-- Used bytes before the storage end are there to be read in one piece (R47, R213). -/
theorem Inv.getSpan_used (hi : c.Inv) (hl : c.live = true) {k : Nat} (hk : k ≤ c.used)
    (hfit : c.tail.toNat + k ≤ c.size) :
    ∃ bs, c.getSpan k = some bs ∧ bs.length = k ∧ ∀ j, j < k → c.logicalByte j = bs[j]? := by
  obtain ⟨bs, hbs⟩ := hi.logicalFrom_used hl hk
  obtain ⟨hlen, hget⟩ := logicalFrom_eq_some.1 hbs
  exact ⟨bs, by rw [getSpan_eq_logicalFrom c k hfit, hbs], hlen, fun j hj => by rw [← hget j hj, Nat.zero_add]⟩

theorem Inv.content_dropBytes (hi : c.Inv) (hl : c.live = true) {n : Nat} (hn : n ≤ c.used) :
    (c.dropBytes n).content = c.content.drop n :=
  Ring.content_dropBytes (hi.cursors_legal hl).1 (hi.cursors_legal hl).2 hn

/-- COPY's span loop on bytes that are used: they go to the destination one at a time (R230). -/
theorem Inv.copySpans_used (hi : c.Inv) (hl : c.live = true) {n : Nat} (hn : n ≤ c.used) {d : Ring}
    (hh : d.head.toNat < d.size) :
    ∃ bs, c.logicalFrom 0 n = some bs ∧ copySpans n n 0 d c = some (d.pushAll bs, c.dropBytes n) := by
  obtain ⟨bs, hbs⟩ := hi.logicalFrom_used hl hn
  refine ⟨bs, hbs, ?_⟩
  rw [copySpans_eq n n 0 d c hh (hi.cursors_legal hl).2 (by omega) (by omega), Nat.sub_zero, hbs]
  rfl

/-- HEAD on TAIL: the whole capacity is free (R40, R46). -/
theorem free_of_head_eq_tail (h : c.head = c.tail) : c.free = c.cap.toNat := by
  simp [free, h]

/-- Bytes that fit into an empty context are its content. -/
theorem content_addBytes_of_empty {bs : List Byte} (ht : c.tail.toNat < c.size) (h : c.head = c.tail)
    (hfit : bs.length ≤ c.cap.toNat) : (c.addBytes bs).content = bs.map some := by
  have hfree := free_of_head_eq_tail h
  have hempty : c.content = [] := List.eq_nil_of_length_eq_zero (by rw [length_content, used]; omega)
  rw [addBytes, (content_add bs (by rwa [h]) ht).1, hempty, List.nil_append, lastOf, List.length_map,
    Nat.sub_eq_zero_of_le hfit, List.drop_zero]

end Ring

/-! ## What each command comes to on a live context -/

section

variable {s s' : State} {ra rb : RingId} {addr : HostAddr} {dh : Handle} {cnt : Count} {c d : Ring} {bytes : List Byte}

theorem descWrite_of_nil (h : s.writeAnswers = []) :
    descWrite s dh bytes = .silent { s with requests := s.requests ++ [.write dh bytes] } := by
  simp only [descWrite, h]

theorem descWrite_of_none {rest : List (Option (BitVec 64))} (h : s.writeAnswers = none :: rest) :
    descWrite s dh bytes = .silent { s with requests := s.requests ++ [.write dh bytes], writeAnswers := rest } := by
  simp only [descWrite, h]

theorem descWrite_of_some {n : BitVec 64} {rest : List (Option (BitVec 64))} (h : s.writeAnswers = some n :: rest)
    (hn : n.toInt ≤ (bytes.length : Int)) :
    descWrite s dh bytes = .answer n { s with requests := s.requests ++ [.write dh bytes], writeAnswers := rest } := by
  simp only [descWrite, h, if_pos hn]

theorem exec_readMem_of_underflow (hc : s.rings[ra.toNat]? = some c) (hl : c.live = true)
    (hspan : addr.toNat + cnt.toNat ≤ 2 ^ 64) (hu : c.used < cnt.toNat) :
    exec (.readMem ra addr cnt) s = .next (s.respond .underflow 0 false) := by
  simp only [exec, execReadMem, State.liveRingSpan_ok.2 ⟨hc, hl, hspan⟩, if_pos hu, State.raiseUnderflow_eq]

theorem exec_writeFd_of_underflow (hc : s.rings[ra.toNat]? = some c) (hl : c.live = true) (hu : c.used < cnt.toNat) :
    exec (.writeFd ra dh cnt) s = .next (s.respond .underflow 0 false) := by
  simp only [exec, execWriteFd, State.liveRing_ok.2 ⟨hc, hl⟩, if_pos hu, State.raiseUnderflow_eq]

theorem exec_copy_of_underflow (hd : s.rings[ra.toNat]? = some d) (hdl : d.live = true)
    (hc : s.rings[rb.toNat]? = some c) (hne : rb ≠ ra) (hcl : c.live = true) (hu : c.used < cnt.toNat) :
    exec (.copy ra rb cnt) s = .next (s.respond .underflow 0 false) := by
  simp only [exec, execCopy, State.copyRings_ok.2 ⟨hd, hc, hne, hdl, hcl⟩, if_pos hu, State.raiseUnderflow_eq]

theorem exec_readMem_of_admitted (hc : s.rings[ra.toNat]? = some c) (hl : c.live = true) (hi : c.Inv)
    (hspan : addr.toNat + cnt.toNat ≤ 2 ^ 64) (hu : cnt.toNat ≤ c.used)
    (hadm : ∀ j, j < cnt.toNat → s.hostAdmits (addr.toNat + j) .write = true)
    (hbytes : c.logicalFrom 0 cnt.toNat = some bytes) :
    exec (.readMem ra addr cnt) s =
      .next (({ s with hostMem := s.hostMem.writeSpan addr.toNat bytes }.setRing ra (c.dropBytes cnt.toNat)).respond .ok
        ((c.tail.toNat + cnt.toNat) % c.size : Nat) false) := by
  obtain ⟨bs, hbs, htake⟩ := hi.takeSpans_used hl hu
  obtain rfl : bytes = bs := Option.some.inj (hbytes.symm.trans hbs)
  simp only [exec, execReadMem, State.liveRingSpan_ok.2 ⟨hc, hl, hspan⟩, if_neg (Nat.not_lt.2 hu),
    State.admitted_eq_iff.2 hadm, htake, lt_self_iff_false, if_false, Ring.dropBytes_tail_toNat]

theorem exec_writeFd_of_silent (hc : s.rings[ra.toNat]? = some c) (hl : c.live = true) (hu : cnt.toNat ≤ c.used)
    (hlen : min cnt.toNat (c.size - c.tail.toNat) ≠ 0)
    (hbytes : c.getSpan (min cnt.toNat (c.size - c.tail.toNat)) = some bytes) (hd : descWrite s dh bytes = .silent s') :
    ∃ b : Busy, b.wait = .device (.write dh bytes) ∧ exec (.writeFd ra dh cnt) s = .next (s'.stall b) := by
  simp only [exec, execWriteFd, State.liveRing_ok.2 ⟨hc, hl⟩, if_neg (Nat.not_lt.2 hu), if_neg hlen, hbytes, hd]
  exact ⟨_, rfl, rfl⟩

theorem exec_writeFd_of_answer (hc : s.rings[ra.toNat]? = some c) (hl : c.live = true) (hu : cnt.toNat ≤ c.used)
    (hlen : min cnt.toNat (c.size - c.tail.toNat) ≠ 0)
    (hbytes : c.getSpan (min cnt.toNat (c.size - c.tail.toNat)) = some bytes) {n : BitVec 64}
    (hd : descWrite s dh bytes = .answer n s') :
    (n.toInt < 0 → exec (.writeFd ra dh cnt) s = .next (s'.respond .descErr n.toInt false)) ∧
    (n.toInt = 0 → exec (.writeFd ra dh cnt) s = .next (s'.respond .ok 0 false)) ∧
    (0 < n.toInt → exec (.writeFd ra dh cnt) s =
      .next ((s'.setRing ra (c.dropBytes n.toInt.toNat)).respond .ok n.toInt false)) := by
  have hle := (descWrite_answer hd).2.1
  have hblen := (Memory.readSpan_eq_some.1 hbytes).1
  simp only [exec, execWriteFd, State.liveRing_ok.2 ⟨hc, hl⟩, if_neg (Nat.not_lt.2 hu), if_neg hlen, hbytes, hd]
  refine ⟨fun hneg => if_pos hneg, fun hzero => ?_, fun hpos => ?_⟩
  · rw [if_neg (by omega), if_pos hzero]
  · rw [if_neg (by omega), if_neg (by omega), Ring.advanceTail_eq_dropBytes c _ (by omega)]

end

/-! ## The obligations -/

/-- Settles O34: all three commands look at the used bytes before they do anything. -/
theorem underflowChangesNothing : Obligations.UnderflowChangesNothing := by
  unfold Obligations.UnderflowChangesNothing
  intro s r cnt c hc hl hu
  exact ⟨fun addr hspan => exec_readMem_of_underflow hc hl hspan hu, fun dh => exec_writeFd_of_underflow hc hl hu,
    fun ra d hd hdl hne => exec_copy_of_underflow hd hdl hc hne hl hu⟩

/-- Settles O32: the used bytes that go to host memory are there to be read, and TAIL is past them. -/
theorem readMemHasItsClosedForm : Obligations.ReadMemHasItsClosedForm := by
  unfold Obligations.ReadMemHasItsClosedForm
  intro s ra addr cnt c hc hl hi hspan
  refine ⟨exec_readMem_of_underflow hc hl hspan, fun hu hadm => ?_⟩
  obtain ⟨bs, hbs⟩ := hi.logicalFrom_used hl hu
  obtain ⟨hlen, hget⟩ := Ring.logicalFrom_eq_some.1 hbs
  refine ⟨s.hostMem.writeSpan addr.toNat bs, c.dropBytes cnt.toNat,
    exec_readMem_of_admitted hc hl hi hspan hu hadm hbs, rfl, Ring.dropBytes_tail_toNat .., fun i hin => ?_,
    fun a ha => ?_⟩
  · rw [Memory.hostByte_writeSpan_get _ _ (by omega), ← hget i hin, Nat.zero_add]
  · exact Memory.hostByte_writeSpan_outside _ (by omega)

/-- Settles O33: one request of the used bytes up to the storage end, then the case of the device's answer. -/
theorem writeFdMakesOneClampedRequest : Obligations.WriteFdMakesOneClampedRequest := by
  unfold Obligations.WriteFdMakesOneClampedRequest
  intro s ra dh cnt c hc hl hi
  have ht := (hi.cursors_legal hl).2
  refine ⟨exec_writeFd_of_underflow hc hl, fun hzero => ?_, fun hpos hu => ?_⟩
  · have hlen : min cnt.toNat (c.size - c.tail.toNat) = 0 := by omega
    have hu : ¬ c.used < cnt.toNat := by omega
    simp only [exec, execWriteFd, State.liveRing_ok.2 ⟨hc, hl⟩, if_neg hu, if_pos hlen]
    rfl
  have hlen : min cnt.toNat (c.size - c.tail.toNat) ≠ 0 := by omega
  obtain ⟨bytes, hbytes, hblen, hget⟩ :=
    hi.getSpan_used hl (k := min cnt.toNat (c.size - c.tail.toNat)) (by omega) (by omega)
  refine ⟨bytes, hblen, by rwa [hblen], fun hr => exec_writeFd_of_silent hc hl hu hlen hbytes (descWrite_of_nil hr),
    fun rest hr => exec_writeFd_of_silent hc hl hu hlen hbytes (descWrite_of_none hr), fun n rest hr hn => ?_⟩
  obtain ⟨hneg, hzero, htake⟩ := exec_writeFd_of_answer hc hl hu hlen hbytes (descWrite_of_some hr hn)
  exact ⟨hneg, hzero, fun hp => ⟨_, htake hp, rfl, Ring.dropBytes_tail_toNat ..⟩⟩

/-- Settles O35: of the effects that end with OK, those of the three commands leave `Ring.dropBytes` of what they
removed; WRITE_FD may also have removed nothing. -/
theorem removalTakesTheOldestBytes : Obligations.RemovalTakesTheOldestBytes := by
  unfold Obligations.RemovalTakesTheOldestBytes
  intro s t i r c q hs hr hc h hq hok
  have hi : c.Inv := hs.rings_inv c (List.mem_of_getElem? hc)
  have hzero_result : rspResult (packResponse .ok 0 false) = 0 := rspResult_packResponse _ _ _ (by decide) (by decide)
  cases exec_effect h with
  | refused i st hne =>
    cases hq
    rw [rspStatus_packResponse] at hok
    exact absurd (statusCode_injective hok) hne
  | new | free | reset | writeMem | writeMemBusy | fill | readFdBusy | readFdNone | readFd => cases hr
  | answered i v _ hnone => rw [hnone] at hr; cases hr
  | readMemBusy | writeFdBusy => cases hq
  | readMem ra addr cnt a a' m ha hl _ hu _ htake =>
    cases hr
    cases ha.symm.trans hc
    obtain ⟨bs, -, htakes⟩ := hi.takeSpans_used hl hu
    cases htake.symm.trans (htakes _ _)
    exact ⟨_, cnt.toNat, State.getElem?_rings_setRing (s := { s with hostMem := _ }) hc _,
      fun _ _ _ e => by cases e; rfl, nofun, nofun, hi.content_dropBytes hl hu, rfl, rfl⟩
  | noBytes i hfd =>
    rcases hfd with ⟨ra, dh, cnt, rfl⟩ | ⟨ra, dh, cnt, rfl⟩
    · cases hr
    · cases hq
      exact ⟨c, 0, hc, nofun, fun _ _ _ _ => by rw [hzero_result]; rfl, nofun, rfl, rfl, rfl⟩
  | writeFdNone ra dh cnt bytes n rest st _ _ _ hn =>
    cases hq
    rw [rspStatus_packResponse] at hok
    rcases hn with ⟨rfl, -⟩ | ⟨rfl, hzero⟩
    · cases statusCode_injective hok
    · exact ⟨c, 0, hc, nofun, fun _ _ _ _ => by rw [hzero, hzero_result]; rfl, nofun, rfl, rfl, rfl⟩
  | writeFd ra dh cnt a bytes n rest ha hl hu hlen _ hpos hle =>
    cases hr
    cases ha.symm.trans hc
    cases hq
    have ht := (hi.cursors_legal hl).2
    have hresult : rspResult (packResponse .ok n.toInt false) = n.toInt :=
      rspResult_packResponse _ _ _ n.le_toInt n.toInt_lt
    refine ⟨c.dropBytes n.toInt.toNat, n.toInt.toNat, ?_, nofun, fun _ _ _ _ => by rw [hresult], nofun,
      hi.content_dropBytes hl (by omega), rfl, rfl⟩
    rw [State.respond_rings, Ring.advanceTail_eq_dropBytes c _ (by omega)]
    exact State.getElem?_rings_setRing (s := { s with requests := _, writeAnswers := _ }) hc _
  | copy ra rb cnt d a d' a' hd ha hne hdl hl hu hspans =>
    cases hr
    cases ha.symm.trans hc
    have hid : d.Inv := hs.rings_inv d (List.mem_of_getElem? hd)
    obtain ⟨bs, -, hcopied⟩ := hi.copySpans_used hl hu (hid.cursors_legal hdl).1
    cases hspans.symm.trans hcopied
    refine ⟨c.dropBytes cnt.toNat, cnt.toNat, ?_, nofun, nofun, fun _ _ _ e => by cases e; rfl,
      hi.content_dropBytes hl hu, rfl, rfl⟩
    rw [State.respond_rings, State.setRing_rings, List.getElem?_set_ne fun e => hne (BitVec.eq_of_toNat_eq e.symm)]
    exact State.getElem?_rings_setRing hc _

/-- Settles O36: the bytes are the whole content of the context in between, so READ_MEM takes just them. -/
theorem writeThenReadRoundTrip : Obligations.WriteThenReadRoundTrip := by
  unfold Obligations.WriteThenReadRoundTrip
  intro s ra a b k c hc hl hi hempty hfit hspan hspan' hadm hadm'
  obtain ⟨hh, ht⟩ := hi.cursors_legal hl
  have hfree := Ring.free_of_head_eq_tail hempty
  obtain ⟨bs, hbs⟩ : ∃ bs, bs = sourceSpan (fun i => s.memRead (a.toNat + i)) 0 k.toNat := ⟨_, rfl⟩
  have hlen : bs.length = k.toNat := by rw [hbs, Ring.length_sourceSpan]
  have hcontent := Ring.content_addBytes_of_empty (bs := bs) ht hempty (by omega)
  have hread := Ring.logicalFrom_of_content hcontent
  have hused : (c.addBytes bs).used = k.toNat := by rw [← Ring.length_content, hcontent, List.length_map, hlen]
  have htail : (c.addBytes bs).tail.toNat = c.tail.toNat := by rw [Ring.addBytes_tail_toNat bs hh, if_neg (by omega)]
  have hhead := Ring.addBytes_head_toNat bs hh
  have hmid := State.getElem?_rings_setRing hc (c.addBytes bs)
  rw [hlen] at hread
  refine ⟨_, _, (c.addBytes bs).dropBytes k.toNat, _, _, exec_writeMem_of_admitted hc hl hh hspan hadm hbs, rfl,
    exec_readMem_of_admitted (c := c.addBytes bs) hmid (by simpa using hl) (hi.add hl bs) hspan' hused.ge hadm' hread,
    rfl, rspStatus_packResponse .., ?_, rspStatus_packResponse .., rspUnf_packResponse .., ?_, ?_, ?_, ?_⟩
  · rw [rspOvf_packResponse, Ring.predictOvf, decide_eq_false (by omega)]
  · exact State.getElem?_rings_setRing (s := { s.setRing ra (c.addBytes bs) with hostMem := _, phase := _ }) hmid _
  · rw [Ring.dropBytes_head, hhead, hempty, hlen]
  · rw [Ring.dropBytes_tail_toNat, htail, Ring.size_def, Ring.addBytes_cap, Ring.size_def]
  · intro i hik
    have hbyte := Memory.hostByte_writeSpan_get s.hostMem b.toNat (bs := bs) (i := i) (by omega)
    rw [hbs, Ring.getElem?_sourceSpan, if_pos hik, Nat.zero_add, ← hbs] at hbyte
    exact Option.some.inj hbyte

end Sys2Proof.Machine

/-! # COPY (43_copy.md R230-R233)

COPY leaves `Ring.addBytes` of the source's first used bytes in the destination and `Ring.dropBytes` in the source; an
answer OK says that both contexts were live, different, and the source long enough. -/

namespace Sys2Proof.Machine

namespace Ring

variable {c : Ring}

/-- The retention law of R188 on the bytes added. -/
theorem content_addBytes (bs : List Byte) (hh : c.head.toNat < c.size) (ht : c.tail.toNat < c.size) :
    (c.addBytes bs).content = lastOf c.cap.toNat (c.content ++ bs.map some) :=
  (content_add bs hh ht).1

/-- Bytes for which no overflow is predicted are appended to the content (R181, R188). -/
theorem content_addBytes_of_fits (bs : List Byte) (hh : c.head.toNat < c.size) (ht : c.tail.toNat < c.size)
    (hfit : c.predictOvf bs.length = false) : (c.addBytes bs).content = c.content ++ bs.map some := by
  have hle : c.used + bs.length ≤ c.cap.toNat :=
    Nat.not_lt.1 fun hlt => Bool.false_ne_true (hfit.symm.trans ((content_add bs hh ht).2.2 hlt))
  have hlen : (c.content ++ bs.map some).length ≤ c.cap.toNat := by simpa using hle
  rw [content_addBytes bs hh ht, lastOf, Nat.sub_eq_zero_of_le hlen, List.drop_zero]

end Ring

section

variable {s t : State} {ra rb : RingId} {cnt : Count} {c d : Ring} {q : RspWord}

/-- COPY of used bytes, with the bytes that it moves (R230). -/
theorem exec_copy_of_inv (hd : s.rings[ra.toNat]? = some d) (hdl : d.live = true) (hh : d.head.toNat < d.size)
    (hc : s.rings[rb.toNat]? = some c) (hne : rb ≠ ra) (hcl : c.live = true) (hi : c.Inv) (hu : cnt.toNat ≤ c.used) :
    ∃ bs, c.logicalFrom 0 cnt.toNat = some bs ∧ bs.length = cnt.toNat ∧
      exec (.copy ra rb cnt) s =
        .next (((s.setRing rb (c.dropBytes cnt.toNat)).setRing ra (d.addBytes bs)).respond .ok
          ((d.head.toNat + cnt.toNat) % d.size : Nat) (d.predictOvf cnt.toNat)) := by
  obtain ⟨bs, hbs⟩ := hi.logicalFrom_used hcl hu
  have hlen := (Ring.logicalFrom_eq_some.1 hbs).1
  refine ⟨bs, hbs, hlen, ?_⟩
  rw [exec_copy_of_used hd hdl hh hc hne hcl (hi.cursors_legal hcl).2 hu hbs, Ring.addBytes_head_toNat bs hh, hlen]

/-- A COPY that answers OK passed the checks of R116 and R210. -/
theorem operands_of_exec_copy_ok (hd : s.rings[ra.toNat]? = some d) (hc : s.rings[rb.toNat]? = some c)
    (h : exec (.copy ra rb cnt) s = .next t) (hq : t.phase = .resp q) (hok : rspStatus q = statusCode .ok) :
    rb ≠ ra ∧ d.live = true ∧ c.live = true ∧ cnt.toNat ≤ c.used := by
  cases exec_effect h with
  | refused i st hne =>
    cases hq
    rw [rspStatus_packResponse] at hok
    exact absurd (statusCode_injective hok) hne
  | answered i v hadds => cases hadds
  | noBytes i hfd => rcases hfd with ⟨_, _, _, hfd⟩ | ⟨_, _, _, hfd⟩ <;> cases hfd
  | copy ra rb cnt d' c' _ _ hd' hc' hne hdl hcl hu =>
    cases hd.symm.trans hd'
    cases hc.symm.trans hc'
    exact ⟨hne, hdl, hcl, hu⟩

/-- Two different contexts replaced one after the other are both there. -/
theorem State.getElem?_rings_setRing_setRing (hd : s.rings[ra.toNat]? = some d) (hc : s.rings[rb.toNat]? = some c)
    (hne : rb ≠ ra) (d' c' : Ring) :
    ((s.setRing rb c').setRing ra d').rings[ra.toNat]? = some d' ∧
    ((s.setRing rb c').setRing ra d').rings[rb.toNat]? = some c' := by
  have hcells : rb.toNat ≠ ra.toNat := mt BitVec.eq_of_toNat_eq hne
  constructor
  · exact State.getElem?_rings_setRing ((List.getElem?_set_ne hcells).trans hd) d'
  · exact (List.getElem?_set_ne hcells.symm).trans (State.getElem?_rings_setRing hc c')

end

/-! ## The obligations -/

/-- Settles O37: the bytes moved are the source's first used ones, and a cell holds the last that lands in it. -/
theorem copyHasItsClosedForm : Obligations.CopyHasItsClosedForm := by
  unfold Obligations.CopyHasItsClosedForm
  intro s ra rb cnt d c hd hc hne hdl hcl hdi hci hu
  have hh := (hdi.cursors_legal hdl).1
  obtain ⟨bs, hbs, hlen, hexec⟩ := exec_copy_of_inv hd hdl hh hc hne hcl hci hu
  have hhead := Ring.addBytes_head_toNat bs hh
  have htail := Ring.addBytes_tail_toNat bs hh
  rw [hlen] at hhead htail
  refine ⟨d.addBytes bs, c.dropBytes cnt.toNat, hexec, rfl, Ring.dropBytes_tail_toNat .., by simp, by simpa using hdl,
    by simp, hhead, htail, fun p hp => ?_, fun p i hi hip hlast => ?_⟩
  · rw [Ring.addBytes_sto, Ring.pushAll_read?_other d bs hh p (by rwa [hlen])]
  · subst hip
    have hbyte := (Ring.logicalFrom_eq_some.1 hbs).2 i hi
    rw [Nat.zero_add] at hbyte
    rw [Ring.addBytes_sto, Ring.pushAll_read?_last d bs hh (by omega) (by rwa [hlen]), hbyte]

/-- Settles O38: the retention law on the bytes taken off the source's content; OVF tells whether they all fit. -/
theorem copyPreservesTheOrderOfBytes : Obligations.CopyPreservesTheOrderOfBytes := by
  unfold Obligations.CopyPreservesTheOrderOfBytes
  intro s t ra rb cnt d c q hd hc hdi hci h hq hok
  obtain ⟨hne, hdl, hcl, hu⟩ := operands_of_exec_copy_ok hd hc h hq hok
  obtain ⟨hh, ht⟩ := hdi.cursors_legal hdl
  obtain ⟨bs, hbs, hlen, hexec⟩ := exec_copy_of_inv hd hdl hh hc hne hcl hci hu
  cases h.symm.trans hexec
  cases hq
  obtain ⟨hda, hca⟩ := State.getElem?_rings_setRing_setRing hd hc hne (d.addBytes bs) (c.dropBytes cnt.toNat)
  rw [rspOvf_packResponse, Ring.content_take_of_logicalFrom hu hbs]
  exact ⟨_, _, hda, hca, fun hfit => Ring.content_addBytes_of_fits bs hh ht (by rwa [hlen]),
    fun _ => Ring.content_addBytes bs hh ht, hci.content_dropBytes hcl hu⟩

end Sys2Proof.Machine

/-! # FIND (44_find.md R250-R252)

FIND reads a live context and answers what the loop over its segments comes to; on used cells that all hold a byte that is
the first match, or the used length. -/

namespace Sys2Proof.Machine

/-- FIND whose scan meets no cell without a value answers what its loop comes to (R250). -/
theorem exec_find_of_findFrom {s : State} {ra : RingId} {b8 : Byte} {cnt : Count} {c : Ring} {v : Nat}
    (hc : s.rings[ra.toNat]? = some c) (hl : c.live = true) (hv : c.findFrom b8 c.used cnt.toNat = some v) :
    exec (.find ra b8 cnt) s = .next (s.respond .ok v false) := by
  simp only [exec, execFind, State.liveRing_ok.2 ⟨hc, hl⟩, hv]

/-! ## The obligations -/

/-- Settles O39: the used cells all hold a byte, so the loop stops at the first match from `cnt` on or at the used
length. -/
theorem findAnswersTheFirstOccurrence : Obligations.FindAnswersTheFirstOccurrence := by
  unfold Obligations.FindAnswersTheFirstOccurrence
  intro s ra b8 cnt c hc hl hi
  obtain ⟨v, hv, hle, hmatch, hfirst⟩ :=
    c.findFrom_spec b8 c.used cnt.toNat (Nat.le_add_left ..) (hi.used_held hl)
  refine ⟨v, exec_find_of_findFrom hc hl hv, ?_, fun i hcnt _ hbyte => ?_⟩
  · rcases Nat.eq_or_lt_of_le hle with heq | hlt
    · exact .inl heq
    · obtain ⟨hge, hbyte⟩ := hmatch hlt
      exact .inr ⟨hge, hlt, hbyte⟩
  · exact Nat.not_lt.1 fun hlt => hfirst i hcnt hlt hbyte

end Sys2Proof.Machine

/-! # How a command ends (60_exceptions.md R270, R276, R277, R290, R291)

`Answer` lists what a response says of the machine it leaves, by its status. A command with no response waits for a
collaborator, and under the invariant nothing but a device that breaks its contract stops one. -/

namespace Sys2Proof.Machine

section

variable {s t : State} {i : Instr}

/-! ## Responses -/

/-- What the command that led from `s` to `t` did, by the status and OVF of its response. -/
inductive Answer (s t : State) : Status → Bool → Prop where
  | ok (ovf : Bool) : Answer s t .ok ovf
  /-- Refused: nothing but the response. -/
  | refused (st : Status) (h1 : st ≠ .ok) (h2 : st ≠ .descErr) (ht : t = s.respond st 0 false) : Answer s t st false
  /-- The device received one request and reported an error. -/
  | descErr (r : DevRequest) (hrings : t.rings = s.rings) (hmem : t.hostMem = s.hostMem)
      (hreq : t.requests = s.requests ++ [r]) : Answer s t .descErr false

/-- Every response is the packed form of an answer. -/
theorem Effect.answer {q : RspWord} (h : Effect s i t) (hq : t.phase = .resp q) :
    ∃ st v ovf, q = packResponse st v ovf ∧ Answer s t st ovf := by
  cases h with
  | refused i st h1 h2 => cases hq; exact ⟨_, _, _, rfl, .refused st h1 h2 rfl⟩
  | readFdNone _ _ _ _ _ _ st _ _ _ hn | writeFdNone _ _ _ _ _ _ st _ _ _ hn =>
    cases hq
    rcases hn with ⟨rfl, -⟩ | ⟨rfl, -⟩
    · exact ⟨_, _, _, rfl, .descErr _ rfl rfl rfl⟩
    · exact ⟨_, _, _, rfl, .ok _⟩
  | writeMemBusy | readFdBusy | readMemBusy | writeFdBusy => cases hq
  | new | free | reset | answered | writeMem | fill | noBytes | readFd | readMem | writeFd | copy =>
    cases hq; exact ⟨_, _, _, rfl, .ok _⟩

/-- OVF is reported with OK alone (R277). -/
theorem Answer.ok_of_ovf {st : Status} {ovf : Bool} (h : Answer s t st ovf) (hovf : ovf = true) : st = .ok := by
  cases h with
  | ok => rfl
  | refused | descErr => cases hovf

/-- No response has both flags: each comes with a status of its own. -/
theorem LegalResponse.not_ovf_and_unf {q : RspWord} (h : LegalResponse q) : ¬ (rspOvf q = true ∧ rspUnf q = true) := by
  rintro ⟨hovf, hunf⟩
  have hcodes : statusCode .ok = statusCode .underflow := (h.ovf hovf).symm.trans (h.unf.1 hunf)
  exact absurd (statusCode_injective hcodes) (by decide)

/-! ## Waiting -/

/-- Results of which none is there for the next request. -/
theorem head?_join_eq_none {α : Type} {l rest : List (Option α)} (h : l = [] ∨ l = none :: rest) :
    l.head?.join = none := by
  rcases h with rfl | rfl <;> rfl

/-- The command `i` has a response in `t`, or waits there for what a collaborator of `s` does not give. -/
def AnsweredOrWaits (i : Instr) (s t : State) : Prop :=
  (∃ q, t.phase = .resp q) ∨
  (∃ b, t.phase = .busy b ∧ b.instr = i ∧
    ((∃ a, b.wait = .hostRead a ∧ s.hostAdmits a .read = false) ∨
     (∃ a, b.wait = .hostWrite a ∧ s.hostAdmits a .write = false) ∨
     (∃ dh len, b.wait = .device (.read dh len) ∧ s.readAnswers.head?.join = none) ∨
     (∃ dh bytes, b.wait = .device (.write dh bytes) ∧ s.writeAnswers.head?.join = none)))

theorem Effect.answeredOrWaits (h : Effect s i t) : AnsweredOrWaits i s t := by
  cases h with
  | writeMemBusy ra addr cnt c b ha hb hw =>
    exact .inr ⟨b, rfl, hb, .inl ⟨_, hw, State.not_hostAdmits_admitted ha⟩⟩
  | readMemBusy ra addr cnt c c' m b hc hl hs hu ha ht hb hw =>
    exact .inr ⟨b, rfl, hb, .inr (.inl ⟨_, hw, State.not_hostAdmits_admitted ha⟩)⟩
  | readFdBusy ra dh cnt b len rest h0 hle hr hb hw =>
    exact .inr ⟨b, rfl, hb, .inr (.inr (.inl ⟨dh, len, hw, head?_join_eq_none hr⟩))⟩
  | writeFdBusy ra dh cnt b bytes rest h0 hle hr hb hw =>
    exact .inr ⟨b, rfl, hb, .inr (.inr (.inr ⟨dh, bytes, hw, head?_join_eq_none hr⟩))⟩
  | refused | new | free | reset | answered | writeMem | fill | noBytes | readFdNone | readFd | readMem | writeFdNone
  | writeFd | copy => exact .inl ⟨_, rfl⟩

end

/-! ## Nothing stops a command -/

section

variable {s : State} {ra rb : RingId} {dh : Handle} {b8 : Byte} {cnt : Count}

/-- READ_FD reads no storage, and its device keeps the contract. -/
theorem exists_next_readFd (hd : deviceKeeps (.readFd ra dh cnt) s) : ∃ t, exec (.readFd ra dh cnt) s = .next t := by
  simp only [exec, execReadFd]
  cases hop : s.liveRing ra with
  | error r => exact ⟨_, rfl⟩
  | ok c =>
    obtain ⟨hc, hl⟩ := State.liveRing_ok.1 hop
    by_cases hlen : min cnt.toNat (c.size - c.head.toNat) = 0
    · exact ⟨_, if_pos hlen⟩
    · simp only [if_neg hlen]
      cases hr : descRead s dh (min cnt.toNat (c.size - c.head.toNat)) with
      | breach =>
        obtain ⟨a, rest, ha, hbreach⟩ := descRead_breach hr
        have hkeeps := hd c a rest hc hl (Nat.pos_of_ne_zero hlen) ha
        exact absurd (hkeeps.symm.trans hbreach) (by decide)
      | silent s' => exact ⟨_, rfl⟩
      | answer a s' => dsimp only; (repeat' split) <;> exact ⟨_, rfl⟩

variable (hs : s.Inv)
include hs

theorem State.Inv.ring {k : Nat} {c : Ring} (hc : s.rings[k]? = some c) : c.Inv :=
  hs.rings_inv c (List.mem_of_getElem? hc)

/-- READ_MEM reads used bytes alone. -/
theorem exists_next_readMem (addr : HostAddr) : ∃ t, exec (.readMem ra addr cnt) s = .next t := by
  simp only [exec, execReadMem]
  cases hop : s.liveRingSpan ra addr cnt with
  | error r => exact ⟨_, rfl⟩
  | ok c =>
    obtain ⟨hc, hl, -⟩ := State.liveRingSpan_ok.1 hop
    by_cases hu : c.used < cnt.toNat
    · exact ⟨_, if_pos hu⟩
    · have hle := State.admitted_le (s := s) .write addr.toNat cnt.toNat
      obtain ⟨bs, -, htake⟩ := (hs.ring hc).takeSpans_used hl (n := s.admitted .write addr.toNat cnt.toNat) (by omega)
      simp only [if_neg hu, htake]
      split <;> exact ⟨_, rfl⟩

/-- COPY reads used bytes of the source alone. -/
theorem exists_next_copy : ∃ t, exec (.copy ra rb cnt) s = .next t := by
  cases hop : s.copyRings ra rb with
  | error r => simp only [exec, execCopy, hop]; exact ⟨_, rfl⟩
  | ok p =>
    obtain ⟨d, c⟩ := p
    obtain ⟨hd, hc, hne, hdl, hcl⟩ := State.copyRings_ok.1 hop
    by_cases hu : c.used < cnt.toNat
    · exact ⟨_, exec_copy_of_underflow hd hdl hc hne hcl hu⟩
    · have hh := ((hs.ring hd).cursors_legal hdl).1
      obtain ⟨bs, -, -, hexec⟩ := exec_copy_of_inv hd hdl hh hc hne hcl (hs.ring hc) (Nat.not_lt.1 hu)
      exact ⟨_, hexec⟩

/-- FIND reads used bytes alone. -/
theorem exists_next_find : ∃ t, exec (.find ra b8 cnt) s = .next t := by
  cases hop : s.liveRing ra with
  | error r => simp only [exec, execFind, hop]; exact ⟨_, rfl⟩
  | ok c =>
    obtain ⟨hc, hl⟩ := State.liveRing_ok.1 hop
    obtain ⟨v, hv, -⟩ := c.findFrom_spec b8 c.used cnt.toNat (Nat.le_add_left ..) ((hs.ring hc).used_held hl)
    exact ⟨_, exec_find_of_findFrom hc hl hv⟩

/-- WRITE_FD reads used bytes alone, and its device keeps the contract. -/
theorem exists_next_writeFd (hd : deviceKeeps (.writeFd ra dh cnt) s) : ∃ t, exec (.writeFd ra dh cnt) s = .next t := by
  simp only [exec, execWriteFd]
  cases hop : s.liveRing ra with
  | error r => exact ⟨_, rfl⟩
  | ok c =>
    obtain ⟨hc, hl⟩ := State.liveRing_ok.1 hop
    by_cases hu : c.used < cnt.toNat
    · exact ⟨_, if_pos hu⟩
    by_cases hlen : min cnt.toNat (c.size - c.tail.toNat) = 0
    · exact ⟨_, (if_neg hu).trans (if_pos hlen)⟩
    · have ht := ((hs.ring hc).cursors_legal hl).2
      obtain ⟨bytes, hbytes, hblen, -⟩ :=
        (hs.ring hc).getSpan_used hl (k := min cnt.toNat (c.size - c.tail.toNat)) (by omega) (by omega)
      simp only [if_neg hu, if_neg hlen, hbytes]
      cases hw : descWrite s dh bytes with
      | breach =>
        obtain ⟨n, rest, hn, hbreach⟩ := descWrite_breach hw
        rw [hblen] at hbreach
        exact absurd (hd c n rest hc hl (Nat.not_lt.1 hu) (Nat.pos_of_ne_zero hlen) hn) hbreach
      | silent s' => exact ⟨_, rfl⟩
      | answer n s' => dsimp only; (repeat' split) <;> exact ⟨_, rfl⟩

/-- From a state with the invariant no instruction stops whose device keeps its contract (R47, R290). -/
theorem exists_next_exec {i : Instr} (hd : deviceKeeps i s) : ∃ t, exec i s = .next t := by
  cases i with
  | readFd ra dh cnt => exact exists_next_readFd hd
  | writeFd ra dh cnt => exact exists_next_writeFd hs hd
  | readMem ra addr cnt => exact exists_next_readMem hs addr
  | copy ra rb cnt => exact exists_next_copy hs
  | find ra b8 cnt => exact exists_next_find hs
  | _ =>
    -- these neither read storage nor call the device: every branch has a next state
    simp only [exec, execNew, execFree, execReset, execQueryBufsize, execQueryCapacity, execQueryFree, execQueryUsed,
      execQueryFull, execQueryEmpty, execQueryHead, execQueryTail, query, execWriteMem, execFill]
    (repeat' split) <;> exact ⟨_, rfl⟩

end

/-! ## The obligations -/

/-- Settles O41: an answer other than OK is a refusal, or the device's error. -/
theorem errorResponsesChangeNothing : Obligations.ErrorResponsesChangeNothing := by
  unfold Obligations.ErrorResponsesChangeNothing
  intro i s t q h hq hne
  obtain ⟨st, v, ovf, rfl, hanswer⟩ := (exec_effect h).answer hq
  rw [rspStatus_packResponse] at hne ⊢
  cases hanswer with
  | ok => exact absurd rfl hne
  | refused st h1 h2 ht =>
    subst ht
    exact ⟨rfl, rfl, fun _ => ⟨rfl, rfl, rfl⟩, fun herr => absurd (statusCode_injective herr) h2⟩
  | descErr r hrings hmem hreq => exact ⟨hrings, hmem, fun hnot => absurd rfl hnot, fun _ => ⟨r, hreq⟩⟩

/-- Settles O42: every response is packed, with OVF where the status is OK alone. -/
theorem responsesAreLegal : Obligations.ResponsesAreLegal := by
  unfold Obligations.ResponsesAreLegal
  intro i s t q h hq
  obtain ⟨st, v, ovf, rfl, hanswer⟩ := (exec_effect h).answer hq
  have hlegal := legalResponse_packResponse st v ovf hanswer.ok_of_ovf
  exact ⟨hlegal, hlegal.not_ovf_and_unf⟩

/-- Settles O51: no fault is left, and each effect is a response or names what it waits for. -/
theorem everyCommandIsAnsweredOrWaits : Obligations.EveryCommandIsAnsweredOrWaits := by
  unfold Obligations.EveryCommandIsAnsweredOrWaits
  intro i s hs hd
  obtain ⟨t, ht⟩ := exists_next_exec hs hd
  exact ⟨t, ht, (exec_effect ht).answeredOrWaits⟩

end Sys2Proof.Machine

/-! # Hardware reset (70_reset_and_hazards.md R300, R301)

A command that reset cuts runs with one more hole in host memory (`State.withHole`) and perhaps against a device that
returns no result. The hole keeps from it a part of its host writes and nothing else (`CutShort`), and only a result
that breaks the device's contract stops it. -/

namespace Sys2Proof.Machine

section

variable {s u v : State} {w : CmdWord} {i : Instr} {k : Hole}

/-! ## The step -/

theorem step_command_of_rst (hr : s.rst = true) {rest : List HostInput} (hin : s.inputs = .command w :: rest) :
    step s = .next s := by
  rw [step_eq_stepController (.inr ⟨w, rest, .inl hin⟩), stepController, if_pos hr]

theorem step_cut (hr : s.rst = false) (hp : s.phase = .idle) {rest : List HostInput}
    (hin : s.inputs = .cut w :: rest) : step s = issueCut w (s.accept rest) := by
  rw [step_eq_stepController (.inr ⟨w, rest, .inr (.inr hin)⟩)]
  simp [stepController, hr, hp, hin]

/-! ## One more hole in host memory -/

/-- The state with one more range of host addresses that are not admitted (R77). -/
def State.withHole (s : State) (k : Hole) : State := s.withHost s.hostMem (k :: s.holes) s.draws

/-- Of the effects of a command that leads from `s` to `u`, those in `v` are all but a part of its host writes. -/
structure CutShort (s u v : State) : Prop where
  requests : v.requests = u.requests
  readAnswers : v.readAnswers = u.readAnswers
  writeAnswers : v.writeAnswers = u.writeAnswers
  memRead : ∀ a, v.memRead a = s.memRead a ∨ v.memRead a = u.memRead a

/-- No host write has happened. -/
theorem CutShort.withHost (s u : State) (hs : List Hole) (d : Nat) : CutShort s u (u.withHost s.hostMem hs d) :=
  ⟨rfl, rfl, rfl, fun _ => .inl rfl⟩

/-- A hole for writes keeps nothing from an instruction that does not write host memory. -/
theorem exec_withHole (hk : k.dir = .write) (hr : ∀ ra addr cnt, i ≠ .readMem ra addr cnt) :
    exec i (s.withHole k) = mapNext (fun t => t.withHost s.hostMem (k :: s.holes) s.draws) (exec i s) := by
  by_cases hw : ∃ ra addr cnt, i = .writeMem ra addr cnt
  · obtain ⟨ra, addr, cnt, rfl⟩ := hw
    have hring : (s.withHole k).liveRingSpan ra addr cnt = s.liveRingSpan ra addr cnt := rfl
    have hadm : (s.withHole k).admitted .read addr.toNat cnt.toNat = s.admitted .read addr.toNat cnt.toNat :=
      if_neg (by simp [hk])
    simp only [exec, execWriteMem, hring, hadm]
    split
    · rfl
    · split <;> rfl
  · exact exec_withHost _ _ _ (fun ra addr cnt hi => hw ⟨ra, addr, cnt, hi⟩) hr

/-- READ_MEM of used bytes writes to host memory those before the first write that is not admitted, and makes no
request. -/
theorem readMem_writes (hs : s.Inv) {ra : RingId} {addr : HostAddr} {cnt : Count} {c : Ring}
    (hop : s.liveRingSpan ra addr cnt = .ok c) (hu : cnt.toNat ≤ c.used)
    (h : exec (.readMem ra addr cnt) s = .next u) :
    ∃ bs, c.logicalFrom 0 (s.admitted .write addr.toNat cnt.toNat) = some bs ∧
      u = { s with hostMem := s.hostMem.writeSpan addr.toNat bs, rings := u.rings, phase := u.phase } := by
  obtain ⟨hc, hl, -⟩ := State.liveRingSpan_ok.1 hop
  have hle := State.admitted_le (s := s) .write addr.toNat cnt.toNat
  obtain ⟨bs, hbs, htake⟩ := (hs.ring hc).takeSpans_used hl (n := s.admitted .write addr.toNat cnt.toNat) (by omega)
  simp only [exec, execReadMem, hop, if_neg (Nat.not_lt.2 hu), htake] at h
  refine ⟨bs, hbs, ?_⟩
  split at h <;> cases h <;> rfl

/-- The first bytes of a span, written, leave at each address the old byte or that of the whole span. -/
theorem Memory.hostByte_writeSpan_first (m : Memory) (a : Nat) {c : Ring} {n n' : Nat} {bs bs' : List Byte}
    (hbs : c.logicalFrom 0 n = some bs) (hbs' : c.logicalFrom 0 n' = some bs') (hn : n' ≤ n) (b : Nat) :
    (m.writeSpan a bs').hostByte b = m.hostByte b ∨
      (m.writeSpan a bs').hostByte b = (m.writeSpan a bs).hostByte b := by
  obtain ⟨hlen, hget⟩ := Ring.logicalFrom_eq_some.1 hbs
  obtain ⟨hlen', hget'⟩ := Ring.logicalFrom_eq_some.1 hbs'
  by_cases hb : a ≤ b ∧ b < a + bs'.length
  · obtain ⟨j, rfl⟩ := Nat.exists_eq_add_of_le hb.1
    have hj : j < n' := by omega
    refine .inr (Option.some.inj ?_)
    rw [Memory.hostByte_writeSpan_get _ _ (by omega), Memory.hostByte_writeSpan_get _ _ (by omega), ← hget' j hj,
      hget j (by omega)]
  · exact .inl (Memory.hostByte_writeSpan_outside m hb)

/-- A hole takes a part of its host writes from a READ_MEM. -/
theorem readMem_cutShort (hs : s.Inv) {ra : RingId} {addr : HostAddr} {cnt : Count}
    (h : exec (.readMem ra addr cnt) (s.withHole k) = .next v) :
    ∃ u, exec (.readMem ra addr cnt) s = .next u ∧ CutShort s u v := by
  have hring : (s.withHole k).liveRingSpan ra addr cnt = s.liveRingSpan ra addr cnt := rfl
  obtain ⟨u, hu⟩ := exists_next_readMem (ra := ra) (cnt := cnt) hs addr
  refine ⟨u, hu, ?_⟩
  cases hop : s.liveRingSpan ra addr cnt with
  | error r =>
    simp only [exec, execReadMem, hring, hop] at h hu
    cases h; cases hu
    exact .withHost s _ (k :: s.holes) s.draws
  | ok c =>
    by_cases hused : c.used < cnt.toNat
    · simp only [exec, execReadMem, hring, hop, if_pos hused] at h hu
      cases h; cases hu
      exact .withHost s _ (k :: s.holes) s.draws
    · have hs' : (s.withHole k).Inv := hs.congr rfl rfl rfl rfl rfl
      obtain ⟨bs, hbs, hu⟩ := readMem_writes hs hop (Nat.not_lt.1 hused) hu
      obtain ⟨bs', hbs', hv⟩ := readMem_writes hs' (hring.trans hop) (Nat.not_lt.1 hused) h
      rw [hu, hv]
      exact ⟨rfl, rfl, rfl, Memory.hostByte_writeSpan_first s.hostMem addr.toNat hbs hbs' (State.before_le ..)⟩

/-- A hole for writes takes from a command word a part of its host writes at most. -/
theorem issue_cutShort (hs : s.Inv) (hk : k.dir = .write) (h : issue w (s.withHole k) = .next v) :
    ∃ u, issue w s = .next u ∧ CutShort s u v := by
  rcases issue_cases h with ⟨r, hd, rfl⟩ | ⟨i, hd, hi⟩
  · exact ⟨_, issue_of_error (s := s) hd, .withHost s _ (k :: s.holes) s.draws⟩
  · rw [issue_of_decode (s := s) hd]
    by_cases hr : ∃ ra addr cnt, i = .readMem ra addr cnt
    · obtain ⟨ra, addr, cnt, rfl⟩ := hr
      exact readMem_cutShort hs hi
    · rw [exec_withHole hk fun ra addr cnt hi => hr ⟨ra, addr, cnt, hi⟩] at hi
      obtain ⟨u, hu, rfl⟩ := mapNext_eq_next.1 hi
      exact ⟨u, hu, .withHost ..⟩

/-! ## A cut request -/

/-- The requests that the device has received after the first `n` effects on it of a command that leads from `s` to
`u`. -/
def State.received (s u : State) (n : Nat) : List DevRequest :=
  s.requests ++ (u.requestsSince s).filterMap fun r => r.firstEffects n

theorem State.received_congr (h : v.requests = u.requests) (n : Nat) : s.received v n = s.received u n := by
  rw [State.received, State.received, State.requestsSince, State.requestsSince, h]

theorem State.received_of_append {made : List DevRequest} (h : u.requests = s.requests ++ made) (n : Nat) :
    s.received u n = s.requests ++ made.filterMap fun r => r.firstEffects n := by
  rw [State.received, requestsSince_append h]

/-- A command word makes at most one request (R82). -/
theorem issue_requests (h : issue w s = .next u) :
    u.requests = s.requests ∨ (∃ dh len, u.requests = s.requests ++ [.read dh len]) ∨
    ∃ dh bytes, u.requests = s.requests ++ [.write dh bytes] := by
  rcases issue_cases h with ⟨r, -, rfl⟩ | ⟨i, -, hi⟩
  · exact .inl rfl
  · rcases atMostOneDeviceRequest i s u hi with
      hnone | ⟨-, dh, -, len, -, -, -, hreq⟩ | ⟨-, dh, -, bytes, -, -, -, hreq⟩
    · exact .inl hnone
    · exact .inr (.inl ⟨dh, len, hreq⟩)
    · exact .inr (.inr ⟨dh, bytes, hreq⟩)

/-- Of its request the device has received nothing, all, or a write request with a part of its bytes (R301, log 8). -/
theorem received_cases (h : issue w s = .next u) (n : Nat) :
    s.received u n = s.requests ∨ s.received u n = u.requests ∨
    ∃ dh bytes j, u.requests = s.requests ++ [DevRequest.write dh bytes] ∧ j < bytes.length ∧
      s.received u n = s.requests ++ [DevRequest.writePart dh bytes.length (bytes.take j)] := by
  rcases issue_requests h with hreq | ⟨dh, len, hreq⟩ | ⟨dh, bytes, hreq⟩
  · exact .inl (by simp [State.received_of_append (made := []) (by simpa using hreq)])
  · rw [State.received_of_append hreq, hreq]
    by_cases hn : n = 0 <;> simp [DevRequest.firstEffects, hn]
  · rw [State.received_of_append hreq, hreq]
    rcases firstEffects_cases (dh := dh) (bytes := bytes) n with hcut | hcut | ⟨j, hj, hcut⟩
    · exact .inl (by simp [hcut])
    · exact .inr (.inl (by simp [hcut]))
    · exact .inr (.inr ⟨dh, bytes, j, rfl, hj, by simp [hcut]⟩)

/-! ## What stops a cut command -/

theorem deviceKeeps_withHost (m : Memory) (hs : List Hole) (d : Nat) :
    deviceKeeps i (s.withHost m hs d) ↔ deviceKeeps i s := Iff.rfl

/-- A device that returns no result keeps its contract. -/
theorem deviceKeeps_silenced (i : Instr) (s : State) : deviceKeeps i s.silenced := by
  cases i with
  | readFd | writeFd => simp [deviceKeeps]
  | _ => trivial

/-- Where the device breaks its contract with the request of an instruction, that is a fault (R81). -/
theorem exec_of_not_deviceKeeps (hs : s.Inv) (h : ¬ deviceKeeps i s) : exec i s = .fault .deviceContract := by
  cases i with
  | readFd ra dh cnt =>
    simp only [deviceKeeps, not_forall] at h
    obtain ⟨c, a, rest, hc, hl, hlen, ha, hbreach⟩ := h
    have hread : descRead s dh (min cnt.toNat (c.size - c.head.toNat)) = .breach := by
      simp only [descRead, ha, if_neg hbreach]
    simp only [exec, execReadFd, State.liveRing_ok.2 ⟨hc, hl⟩, if_neg (Nat.ne_of_gt hlen), hread]
  | writeFd ra dh cnt =>
    simp only [deviceKeeps, not_forall] at h
    obtain ⟨c, n, rest, hc, hl, hu, hlen, hn, hbreach⟩ := h
    have ht := ((hs.ring hc).cursors_legal hl).2
    obtain ⟨bytes, hbytes, hblen, -⟩ :=
      (hs.ring hc).getSpan_used hl (k := min cnt.toNat (c.size - c.tail.toNat)) (by omega) (by omega)
    have hwrite : descWrite s dh bytes = .breach := by simp only [descWrite, hn, hblen, if_neg hbreach]
    simp only [exec, execWriteFd, State.liveRing_ok.2 ⟨hc, hl⟩, if_neg (Nat.not_lt.2 hu), if_neg (Nat.ne_of_gt hlen),
      hbytes, hwrite]
  | _ => exact absurd trivial h

theorem State.beforeCut_rings (s : State) : s.beforeCut.rings = s.rings := by
  rcases beforeCut_cases s with ⟨-, h⟩ | ⟨-, h⟩ <;> rw [h] <;> rfl

/-- A command that reset cuts stops only where the device has returned a result that breaks its contract. -/
theorem issue_beforeCut (hs : s.Inv) (w : CmdWord) :
    (∃ u, issue w s.beforeCut = .next u) ∨
    (Config.cutAnswered s.draws = true ∧ issue w s.beforeCut = .fault .deviceContract ∧
      issue w s = .fault .deviceContract) := by
  cases hd : decode s.rings.length w with
  | error r => exact .inl ⟨_, issue_of_error (s.beforeCut_rings.symm ▸ hd)⟩
  | ok i =>
    rw [issue_of_decode hd, issue_of_decode (s.beforeCut_rings.symm ▸ hd)]
    by_cases hkeeps : deviceKeeps i s.beforeCut
    · exact .inl (exists_next_exec hs.beforeCut hkeeps)
    · rcases beforeCut_cases s with ⟨hanswered, hcut⟩ | ⟨-, hcut⟩
      · have hbreach : ¬ deviceKeeps i s := by rwa [hcut, deviceKeeps_withHost] at hkeeps
        exact .inr ⟨hanswered, exec_of_not_deviceKeeps hs.beforeCut hkeeps, exec_of_not_deviceKeeps hs hbreach⟩
      · rw [hcut, deviceKeeps_withHost] at hkeeps
        exact absurd (deviceKeeps_silenced i s) hkeeps

end

/-! ## The obligations -/

/-- Settles O12: the step that drives `rst` is hardware reset, and while `rst` is 1 the controller does not move. -/
theorem hardwareResetSetsEveryResetValue : Obligations.HardwareResetSetsEveryResetValue := by
  unfold Obligations.HardwareResetSetsEveryResetValue
  refine ⟨fun s rest hin => step_rst hin, fun s hr => ⟨?_, ?_, fun w rest hin => step_command_of_rst hr hin⟩,
    fun s rest hin => ⟨_, _, step_rst hin, step_rst rfl, rfl, rfl, rfl, rfl, rfl⟩⟩
  · simp [State.cmdReady, hr]
  · simp [State.rspValid, hr]

/-- Settles O56: the step is that of the command on the host memory and device of before the cut. -/
theorem aCutCommandStopsOnlyOnAReturnedResult : Obligations.ACutCommandStopsOnlyOnAReturnedResult := by
  unfold Obligations.ACutCommandStopsOnlyOnAReturnedResult
  intro s w rest hs hr hp hin
  rw [step_cut hr hp hin, issueCut]
  rcases issue_beforeCut (hs.accept rest) w with ⟨u, hu⟩ | ⟨hanswered, hcut, huncut⟩
  · exact .inl ⟨_, mapNext_eq_next.2 ⟨u, hu, rfl⟩, rfl, rfl⟩
  · exact .inr ⟨hanswered, by rw [hcut]; rfl, huncut⟩

/-- Settles O15: the command is cut short in host memory by the hole, and at the device by the draw where no result came
before. -/
theorem resetDuringACommandAbandonsIt : Obligations.ResetDuringACommandAbandonsIt := by
  unfold Obligations.ResetDuringACommandAbandonsIt
  intro s t w rest hs hr hp hin h
  rw [step_cut hr hp hin] at h
  obtain ⟨v, hv, rfl⟩ := mapNext_eq_next.1 h
  refine ⟨rfl, rfl, rfl, rfl, rfl, rfl, ?_⟩
  have hs := hs.accept rest
  simp only [State.afterCut]
  rcases beforeCut_cases (s.accept rest) with ⟨hanswered, hcut⟩ | ⟨hanswered, hcut⟩
  · rw [hcut] at hv
    obtain ⟨u, hu, hshort⟩ := issue_cutShort hs rfl hv
    simp only [hanswered]
    exact ⟨u, .inl ⟨hu, hshort.requests, hshort.readAnswers, hshort.writeAnswers⟩, hshort.memRead⟩
  · rw [hcut] at hv
    have hs' : (s.accept rest).silenced.Inv := hs.congr rfl rfl rfl rfl rfl
    obtain ⟨u, hu, hshort⟩ := issue_cutShort hs' rfl hv
    have hreceived := received_cases hu (Config.cutDesc s.draws)
    rw [← State.received_congr hshort.requests] at hreceived
    simp only [hanswered]
    exact ⟨u, .inr ⟨hu, rfl, rfl, hreceived⟩, hshort.memRead⟩

end Sys2Proof.Machine
